-- ==== Sys2Proof/Word.lean ====
section
/-! DEFINITION. The word types of the core (spec 00_scope.md R10, R11; 10_state.md R22). -/

namespace Sys2Proof

/-- A byte: event bytes, order entries, waveform bytes, output samples (R10). -/
abbrev Byte := BitVec 8

/-- A 16-bit word: periods, loop bounds, reference frequencies, counters of frames (R22). -/
abbrev Word := BitVec 16

/-- A 32-bit word: an event as one word (R101), a 16.16 position or step (R41, R42). -/
abbrev Long := BitVec 32

end Sys2Proof
end

