-- ==== Sys2Proof/Machine/Registers.lean ====
section
/-! DEFINITION. The register sets of a session: ChannelState and PlaybackContext (spec 10_state.md R20 to R56), and the
value each channel register has in the table of START values (R62). -/

namespace Sys2Proof.Machine

/-- One ChannelState register set (R23 to R45). -/
structure Channel where
  /-- `ev_note` (R23). -/
  evNote : BitVec 8
  /-- `ev_smp` (R24). -/
  evSmp : BitVec 5
  /-- `ev_vol` (R25). -/
  evVol : BitVec 7
  /-- `ev_cmd` (R26). -/
  evCmd : BitVec 4
  /-- `ev_param` (R27). -/
  evParam : BitVec 8
  /-- `active` (R28). -/
  active : Bool
  /-- `row_ctr` (R29). -/
  rowCtr : BitVec 7
  /-- `last_note` (R30). -/
  lastNote : BitVec 8
  /-- Whether a concrete note has triggered on the channel since START: the condition of R211 and R336 (f). -/
  notePlayed : Bool
  /-- `period_cur` (R31). -/
  periodCur : BitVec 16
  /-- `period_tgt` (R32). -/
  periodTgt : BitVec 16
  /-- `tporta_mem` (R33). -/
  tportaMem : BitVec 8
  /-- `vib_mem` (R34). -/
  vibMem : BitVec 8
  /-- `vib_phase` (R35). -/
  vibPhase : BitVec 7
  /-- `tremor_ctr` (R36). -/
  tremorCtr : BitVec 4
  /-- `tremor_state` (R37). -/
  tremorState : Bool
  /-- `wave_slot` (R38). -/
  waveSlot : BitVec 5
  /-- `c2spd` (R39). -/
  c2spd : BitVec 16
  /-- Whether a sample has been bound to the channel since START: the condition of R144 and R336 (e). -/
  sampleBound : Bool
  /-- `loop_start` (R40). -/
  loopStart : BitVec 16
  /-- `loop_end` (R40). -/
  loopEnd : BitVec 16
  /-- `loop_en` (R40). -/
  loopEn : Bool
  /-- `pos`, 16.16 (R41). -/
  pos : BitVec 32
  /-- `step`, 16.16 (R42). -/
  step : BitVec 32
  /-- `vol_cur` (R43). -/
  volCur : BitVec 7
  /-- `vol_init` (R44). -/
  volInit : BitVec 7
  /-- `vol_mix` (R45). -/
  volMix : BitVec 7
  deriving DecidableEq, Repr, Inhabited

/-- The START values of a channel (R62). `lastNote` and `c2spd`, which R62 leaves unspecified, are 0 and
8448 here (DESIGN CHOICE, log entry 3), and no sample is bound and no note played. -/
def Channel.start : Channel where
  evNote := 255
  evSmp := 0
  evVol := 65
  evCmd := 0
  evParam := 0
  active := true
  rowCtr := 0
  lastNote := 0
  notePlayed := false
  periodCur := 0
  periodTgt := 0
  tportaMem := 0
  vibMem := 0
  vibPhase := 0
  tremorCtr := 0
  tremorState := false
  waveSlot := 0
  c2spd := 8448
  sampleBound := false
  loopStart := 0
  loopEnd := 0
  loopEn := false
  pos := 0
  step := 0
  volCur := 0
  volInit := 0
  volMix := 0

/-- The PlaybackContext register set (R46 to R56). -/
structure Context where
  /-- `order_pos`: the order entry `change_pattern` reads next (R46). -/
  orderPos : BitVec 8
  /-- `pattern` (R47). -/
  pattern : BitVec 7
  /-- `tick_ctr` (R48). -/
  tickCtr : BitVec 8
  /-- `frame_ctr` (R49). -/
  frameCtr : BitVec 16
  /-- `tempo` (R50). -/
  tempo : BitVec 8
  /-- `ticks_per_row` (R50). -/
  ticksPerRow : BitVec 4
  /-- `frames_per_tick` (R50). -/
  framesPerTick : BitVec 16
  /-- `gvol` (R51). -/
  gvol : BitVec 7
  /-- `loop_ctr` (R52). -/
  loopCtr : BitVec 8
  /-- `order_mark` (R53). -/
  orderMark : BitVec 8
  /-- `rate` (R54). -/
  rate : BitVec 16
  /-- `chg_pat` (R55). -/
  chgPat : Bool
  /-- `single_row` (R56). -/
  singleRow : Bool
  deriving DecidableEq, Repr, Inhabited

end Sys2Proof.Machine
end

