-- ==== Sys2Proof/Syntax.lean ====
section
/-! DEFINITION. The instructions of st2play-core: one constructor for each row of spec/opcode_table.json
(spec 30_encoding.md R121: the four formats EVENT, EVENT.note, ORDER, HOSTOP). -/

namespace Sys2Proof

/-- The sixteen effect names of R109: which one a command number means is `cfg.CMD_MAP`
(`Coding.cmdMap`). `rsv13`, `rsv14`, `rsv15` are the three reserved ones (R195). -/
inductive Effect
  | noEffect | setSpeed | posJump | patBreak | volSlide | portaDown | portaUp | tonePorta
  | vibrato | tremor | arpeggio | volslideVib | volslideTporta | rsv13 | rsv14 | rsv15
  deriving DecidableEq, Repr, Inhabited

/-- The sixteen effects, in the order of the default numbering of R109. -/
def Effect.all : List Effect :=
  [.noEffect, .setSpeed, .posJump, .patBreak, .volSlide, .portaDown, .portaUp, .tonePorta,
   .vibrato, .tremor, .arpeggio, .volslideVib, .volslideTporta, .rsv13, .rsv14, .rsv15]

/-- What an event carries beside its command (R100, R103): note byte, sample slot, assembled
7-bit volume, parameter byte. -/
structure EventArgs where
  note  : BitVec 8
  smp   : BitVec 5
  vol   : BitVec 7
  param : BitVec 8
  deriving DecidableEq, Repr, Inhabited

/-- The four formats of R121. -/
inductive Format
  | event | note | order | hostop
  deriving DecidableEq, Repr

/-- Every row of the opcode table. -/
inductive Instr
  /-- EVENT, `NONE` (R191). -/
  | noneCmd (e : EventArgs)
  /-- EVENT, `SET_SPEED` (R192). -/
  | setSpeed (e : EventArgs)
  /-- EVENT, `POS_JUMP` (R193). -/
  | posJump (e : EventArgs)
  /-- EVENT, `PAT_BREAK` (R194). -/
  | patBreak (e : EventArgs)
  /-- EVENT, `VOL_SLIDE` (R220). -/
  | volSlide (e : EventArgs)
  /-- EVENT, `PORTA_DOWN` (R219). -/
  | portaDown (e : EventArgs)
  /-- EVENT, `PORTA_UP` (R218). -/
  | portaUp (e : EventArgs)
  /-- EVENT, `TONE_PORTA` (R214). -/
  | tonePorta (e : EventArgs)
  /-- EVENT, `VIBRATO` (R216). -/
  | vibrato (e : EventArgs)
  /-- EVENT, `TREMOR` (R212). -/
  | tremor (e : EventArgs)
  /-- EVENT, `ARPEGGIO` (R211). -/
  | arpeggio (e : EventArgs)
  /-- EVENT, `VOLSLIDE_VIB` (R223). -/
  | volslideVib (e : EventArgs)
  /-- EVENT, `VOLSLIDE_TPORTA` (R222). -/
  | volslideTporta (e : EventArgs)
  /-- EVENT, `RSV13` (R195). -/
  | rsv13 (e : EventArgs)
  /-- EVENT, `RSV14` (R195). -/
  | rsv14 (e : EventArgs)
  /-- EVENT, `RSV15` (R195). -/
  | rsv15 (e : EventArgs)
  /-- EVENT.note, `NOTE_CUT`: the note byte 254 (R246). -/
  | noteCut
  /-- EVENT.note, `NO_NOTE`: the note byte 255 (R248). -/
  | noNote
  /-- EVENT.note, `NOTE`: a concrete note byte (R105, R243, R247). -/
  | note (b : BitVec 8)
  /-- ORDER, `END_MARK` (R173). -/
  | endMark
  /-- ORDER, `END_ZERO` (R174). -/
  | endZero
  /-- ORDER, `PATTERN n` (R172). -/
  | pattern (n : BitVec 8)
  /-- HOSTOP 0, `CREATE` (R291). -/
  | create
  /-- HOSTOP 1, `START(rate_arg)` (R292). -/
  | start (rateArg : BitVec 16)
  /-- HOSTOP 2, `SET_POSITION(order)` (R294). -/
  | setPosition (order : BitVec 8)
  /-- HOSTOP 3, `QUERY_POSITION` (R295). -/
  | queryPosition
  /-- HOSTOP 4, `RENDER` (R296). -/
  | render
  /-- HOSTOP 5, `DESTROY` (R297). -/
  | destroy
  deriving DecidableEq, Repr

/-- The EVENT instruction of an effect and its operands. -/
def Instr.ofEvent : Effect → EventArgs → Instr
  | .noEffect, e => .noneCmd e
  | .setSpeed, e => .setSpeed e
  | .posJump, e => .posJump e
  | .patBreak, e => .patBreak e
  | .volSlide, e => .volSlide e
  | .portaDown, e => .portaDown e
  | .portaUp, e => .portaUp e
  | .tonePorta, e => .tonePorta e
  | .vibrato, e => .vibrato e
  | .tremor, e => .tremor e
  | .arpeggio, e => .arpeggio e
  | .volslideVib, e => .volslideVib e
  | .volslideTporta, e => .volslideTporta e
  | .rsv13, e => .rsv13 e
  | .rsv14, e => .rsv14 e
  | .rsv15, e => .rsv15 e

/-- The effect and operands of an EVENT instruction; `none` for the other three formats. -/
def Instr.asEvent : Instr → Option (Effect × EventArgs)
  | .noneCmd e => some (.noEffect, e)
  | .setSpeed e => some (.setSpeed, e)
  | .posJump e => some (.posJump, e)
  | .patBreak e => some (.patBreak, e)
  | .volSlide e => some (.volSlide, e)
  | .portaDown e => some (.portaDown, e)
  | .portaUp e => some (.portaUp, e)
  | .tonePorta e => some (.tonePorta, e)
  | .vibrato e => some (.vibrato, e)
  | .tremor e => some (.tremor, e)
  | .arpeggio e => some (.arpeggio, e)
  | .volslideVib e => some (.volslideVib, e)
  | .volslideTporta e => some (.volslideTporta, e)
  | .rsv13 e => some (.rsv13, e)
  | .rsv14 e => some (.rsv14, e)
  | .rsv15 e => some (.rsv15, e)
  | .noteCut => none
  | .noNote => none
  | .note _ => none
  | .endMark => none
  | .endZero => none
  | .pattern _ => none
  | .create => none
  | .start _ => none
  | .setPosition _ => none
  | .queryPosition => none
  | .render => none
  | .destroy => none

/-- The format of an instruction's encoding (R121). -/
def Instr.format : Instr → Format
  | .noneCmd _ => .event
  | .setSpeed _ => .event
  | .posJump _ => .event
  | .patBreak _ => .event
  | .volSlide _ => .event
  | .portaDown _ => .event
  | .portaUp _ => .event
  | .tonePorta _ => .event
  | .vibrato _ => .event
  | .tremor _ => .event
  | .arpeggio _ => .event
  | .volslideVib _ => .event
  | .volslideTporta _ => .event
  | .rsv13 _ => .event
  | .rsv14 _ => .event
  | .rsv15 _ => .event
  | .noteCut => .note
  | .noNote => .note
  | .note _ => .note
  | .endMark => .order
  | .endZero => .order
  | .pattern _ => .order
  | .create => .hostop
  | .start _ => .hostop
  | .setPosition _ => .hostop
  | .queryPosition => .hostop
  | .render => .hostop
  | .destroy => .hostop

end Sys2Proof
end

