-- ==== Sys2Proof/Config.lean ====
section
/-! DEFINITION. The configuration record `cfg` (spec 00_scope.md R8), bound to a session at CREATE (R291) and held by the
state as plain data, and the free values of the registers the spec leaves unspecified (R21). -/

namespace Sys2Proof

/-- The part of `cfg` that the decoders take: `cfg.CMD_MAP`, as the effect each command number names,
and the two order-list sentinels (R8, R109, R111). -/
structure Coding where
  cmdMap       : Vector Effect 16
  sentinelMark : BitVec 8
  sentinelZero : BitVec 8
  deriving DecidableEq, Repr

/-- The defaults of R109 and R111, on which opcode_table.json is written (log entry 12). -/
def Coding.standard : Coding where
  cmdMap := #v[.noEffect, .setSpeed, .posJump, .patBreak, .volSlide, .portaDown, .portaUp,
    .tonePorta, .vibrato, .tremor, .arpeggio, .volslideVib, .volslideTporta, .rsv13, .rsv14, .rsv15]
  sentinelMark := 98
  sentinelZero := 99

/-- One point of `cfg.NOTE_PERIOD`: table period, reference frequency, result. -/
structure PeriodRow where
  tv     : BitVec 16
  c2spd  : BitVec 16
  period : BitVec 16
  deriving DecidableEq, Repr

/-- `cfg.NOTE_PERIOD` (R8, R144) as plain data (log entry 13): any partial function given by its
points, or a rescaling `(tv × num) div c2spd`, undefined at `c2spd = 0`. -/
inductive NotePeriod
  | table (rows : List PeriodRow)
  | rescale (num : Nat)
  deriving DecidableEq, Repr

/-- One point of `cfg.VIB_SCALE`: waveform value, depth, offset. -/
structure VibRow where
  level  : Int
  depth  : BitVec 4
  offset : Int
  deriving DecidableEq, Repr

/-- `cfg.VIB_SCALE` (R8, R217) as plain data (log entry 13): any function given by its nonzero
points, or `floor(level × depth / den)`. -/
inductive VibScale
  | table (rows : List VibRow)
  | ratio (den : Nat)
  deriving DecidableEq, Repr

/-- The configuration record `cfg` of R8. -/
structure Cfg where
  /-- `cfg.P0`: the twelve octave-0 periods (R142). -/
  p0 : Vector (BitVec 16) 12
  /-- `cfg.N_OCTAVES` (R143). -/
  nOctaves : Nat
  /-- `cfg.TEMPO_TABLE` (R146). -/
  tempoTable : Vector (BitVec 16) 18
  /-- `cfg.LFO` (R145). -/
  lfo : Vector Int 65
  /-- `cfg.BASEFREQ` (R268). -/
  baseFreq : Nat
  /-- `cfg.NOTE_PERIOD` (R144). -/
  notePeriod : NotePeriod
  /-- `cfg.TPORTA_MULT` (R215). -/
  tportaMult : Nat
  /-- `cfg.PORTA_MULT` (R218, R219). -/
  portaMult : Nat
  /-- `cfg.VIB_SCALE` (R217). -/
  vibScale : VibScale
  /-- `cfg.CMD_MAP`, `cfg.SENTINEL_MARK`, `cfg.SENTINEL_ZERO` (R109, R111). -/
  coding : Coding
  /-- `cfg.DEFAULT_RATE`, nonzero (R293). -/
  defaultRate : BitVec 16
  /-- `cfg.INIT_TEMPO` (R292). -/
  initTempo : BitVec 8
  /-- `cfg.INIT_GVOL`, 0..64 (R292). -/
  initGvol : BitVec 7
  /-- `cfg.TPORTA_REBINDS_SAMPLE` (R250). -/
  tportaRebindsSample : Bool
  deriving DecidableEq, Repr

/-- The test configuration `TCFG` of spec 95_test_vectors.md section 0: "test inputs, not facts about
the real player". It is what `State.reset` holds (DESIGN CHOICE, log entry 4). -/
def Cfg.test : Cfg where
  p0 := #v[17080, 16012, 15184, 14236, 13664, 12808, 12008, 11388, 10676, 10248, 9608, 9108]
  nOctaves := 5
  tempoTable := #v[140, 50, 25, 15, 10, 7, 6, 4, 3, 3, 2, 2, 2, 2, 1, 1, 1, 1]
  lfo := #v[0, 24, 49, 74, 97, 120, 141, 161, 180, 197, 212, 224, 235, 244, 250, 253, 255,
    253, 250, 244, 235, 224, 212, 197, 180, 161, 141, 120, 97, 74, 49, 24, 0,
    -24, -49, -74, -97, -120, -141, -161, -180, -197, -212, -224, -235, -244, -250, -253, -255,
    -253, -250, -244, -235, -224, -212, -197, -180, -161, -141, -120, -97, -74, -49, -24, 0]
  baseFreq := 36072500
  notePeriod := .rescale 8448
  tportaMult := 10
  portaMult := 10
  vibScale := .ratio 64
  coding := .standard
  defaultRate := 8000
  initTempo := 0x60
  initGvol := 64
  tportaRebindsSample := true

namespace Config

/-- FREE VALUE: what channel `c`'s registers hold where the spec leaves them unspecified (R21: after
CREATE all of them; after START `last_note` and `c2spd`). The first argument is the state's counter
`fresh`; nothing constrains the value (log entry 8). -/
opaque freeChannel : Nat → Fin 4 → Machine.Channel

/-- FREE VALUE: what the context registers hold where the spec leaves them unspecified (R21: after
CREATE all of them; after START `pattern`). Log entry 8. -/
opaque freeContext : Nat → Machine.Context

end Config

end Sys2Proof
end

