-- ==== Sys2Proof/WellFormed.lean ====
section
/-! DEFINITION. What the spec calls legal: instructions (spec 30_encoding.md section 3, R113 to R115), the coding and
the configuration (00_scope.md R8). Decoding itself is total on events (R103); legality is "a separate question". -/

namespace Sys2Proof

/-- A note byte is 254, 255 or a valid concrete note: semitone at most 11, octave below
`cfg.N_OCTAVES` (R106, R336 c). -/
def legalNote (nOctaves : Nat) (b : BitVec 8) : Bool :=
  decide (254 ≤ b.toNat) || (decide (b.toNat % 16 ≤ 11) && decide (b.toNat / 16 < nOctaves))

/-- An event's operands are legal: a legal note byte and a volume of 0..65 (R113, R114, R336 c). -/
def EventArgs.wf (nOctaves : Nat) (e : EventArgs) : Bool :=
  legalNote nOctaves e.note && decide (e.vol.toNat ≤ 65)

/-- The operand values an encoding has room for without being another row's encoding: a `NOTE` byte
is not 254 or 255 (R105), a `PATTERN` number is 0..97 (R111). Every other operand is free. -/
def Instr.encodable : Instr → Bool
  | .note b => decide (b.toNat < 254)
  | .pattern n => decide (n.toNat ≤ 97)
  | .noneCmd _ => true
  | .setSpeed _ => true
  | .posJump _ => true
  | .patBreak _ => true
  | .volSlide _ => true
  | .portaDown _ => true
  | .portaUp _ => true
  | .tonePorta _ => true
  | .vibrato _ => true
  | .tremor _ => true
  | .arpeggio _ => true
  | .volslideVib _ => true
  | .volslideTporta _ => true
  | .rsv13 _ => true
  | .rsv14 _ => true
  | .rsv15 _ => true
  | .noteCut => true
  | .noNote => true
  | .endMark => true
  | .endZero => true
  | .create => true
  | .start _ => true
  | .setPosition _ => true
  | .queryPosition => true
  | .render => true
  | .destroy => true

/-- A legal instruction under a configuration of `nOctaves` octaves: encodable, and an event's or a
note's operands legal (R113, R114, R115). -/
def Instr.wf (nOctaves : Nat) (i : Instr) : Bool :=
  match i.asEvent with
  | some (_, e) => e.wf nOctaves
  | none =>
    match i with
    | .note b => i.encodable && legalNote nOctaves b
    | _ => i.encodable

/-- `cfg.CMD_MAP` is a bijection in which 0 is `NONE`, and the sentinels are 98 and 99 in some order
(R8, R109, R111). -/
def Coding.wf (cd : Coding) : Bool :=
  Effect.all.all (fun e => cd.cmdMap.toList.contains e) && decide cd.cmdMap.toList.Nodup &&
  decide (cd.cmdMap[0] = .noEffect) &&
  (decide (cd.sentinelMark = 98 ∧ cd.sentinelZero = 99) ||
    decide (cd.sentinelMark = 99 ∧ cd.sentinelZero = 98))

/-- The constraints R8 and R145 put on a configuration. -/
def Cfg.wf (c : Cfg) : Bool :=
  c.coding.wf && decide (2 ≤ c.nOctaves) && decide (c.tempoTable[6] = 6) &&
  decide (c.lfo[0] = 0) && decide (c.lfo[64] = 0) &&
  (List.range 65).all (fun i => decide ((c.lfo[64 - i]?).getD 0 = - (c.lfo[i]?).getD 0)) &&
  decide (c.defaultRate ≠ 0) && decide (c.initGvol.toNat ≤ 64)

end Sys2Proof
end

