-- ==== Sys2Proof/Decode.lean ====
section
/-! DEFINITION. The four decoders of R121 and their encoders (spec 30_encoding.md R100 to R121). Decoding is total on any
bytes and rejects by name. The number of a command and the two sentinels are parameters (R8), so decoder and encoder take a
`Coding`; spec/opcode_table.json is written on `Coding.standard`. -/

namespace Sys2Proof

/-- Why bytes are no instruction of a format. -/
inductive DecodeError
  /-- The list of bytes has not the format's length (R117: an event is always 4 bytes). -/
  | wrongLength
  /-- An order byte 100..255 (R115). -/
  | reservedOrder (b : BitVec 8)
  /-- An operation code 6 or 7, or a code byte that is no 3-bit code (R120). -/
  | reservedOperation (code : BitVec 8)
  deriving DecidableEq, Repr

/-- The effect that command number `n` names under `cfg.CMD_MAP` (R109). -/
def Coding.effectOf (cd : Coding) (n : BitVec 4) : Effect :=
  (cd.cmdMap.toList[n.toNat]?).getD .noEffect

/-- The command number of an effect under `cfg.CMD_MAP` (R109). -/
def Coding.codeOf (cd : Coding) (e : Effect) : BitVec 4 :=
  BitVec.ofNat 4 (cd.cmdMap.toList.idxOf e)

/-- The operands of the event word `w` (R101, R103, R108): the volume is `vol_hi` above `vol_lo`. -/
def eventArgs (w : BitVec 32) : EventArgs where
  note := w.extractLsb' 0 8
  smp := w.extractLsb' 11 5
  vol := w.extractLsb' 20 4 ++ w.extractLsb' 8 3
  param := w.extractLsb' 24 8

/-- The command field of the event word `w` (R101). -/
def eventCmd (w : BitVec 32) : BitVec 4 := w.extractLsb' 16 4

/-- The EVENT decoder: total (R103). -/
def decodeEvent (cd : Coding) (w : BitVec 32) : Instr :=
  Instr.ofEvent (cd.effectOf (eventCmd w)) (eventArgs w)

/-- The three forms of a note byte (R105). -/
inductive NoteForm
  | cut | none | concrete (b : BitVec 8)
  deriving DecidableEq, Repr

/-- The form of a note byte: 254 cut, 255 none, any other concrete (R105). -/
def noteForm (b : BitVec 8) : NoteForm :=
  if b = 254 then .cut else if b = 255 then .none else .concrete b

/-- The EVENT.note decoder: total (R105, R121 b). -/
def decodeNote (b : BitVec 8) : Instr :=
  match noteForm b with
  | .cut => .noteCut
  | .none => .noNote
  | .concrete b => .note b

/-- The ORDER decoder: a sentinel, a pattern number 0..97, or rejected (R111, R115). -/
def decodeOrder (cd : Coding) (b : BitVec 8) : Except DecodeError Instr :=
  if b = cd.sentinelMark then .ok .endMark
  else if b = cd.sentinelZero then .ok .endZero
  else if b.toNat ≤ 97 then .ok (.pattern b)
  else .error (.reservedOrder b)

/-- The HOSTOP decoder: the codes of R120, with the request's 16-bit argument (R290). SET_POSITION
takes the argument's low byte; operations without an argument do not look at it (log entry 10). -/
def decodeHostOp (code : BitVec 8) (arg : BitVec 16) : Except DecodeError Instr :=
  if code = 0 then .ok .create
  else if code = 1 then .ok (.start arg)
  else if code = 2 then .ok (.setPosition (arg.extractLsb' 0 8))
  else if code = 3 then .ok .queryPosition
  else if code = 4 then .ok .render
  else if code = 5 then .ok .destroy
  else .error (.reservedOperation code)

/-- The decoder of a format on the bytes of an instruction, lowest address first: four for an event
(R101), one for a note or an order entry, code byte and argument (low byte first) for an operation. -/
def decode (cd : Coding) : Format → List (BitVec 8) → Except DecodeError Instr
  | .event, [b0, b1, b2, b3] => .ok (decodeEvent cd (b3 ++ b2 ++ b1 ++ b0))
  | .note, [b] => .ok (decodeNote b)
  | .order, [b] => decodeOrder cd b
  | .hostop, [c, lo, hi] => decodeHostOp c (hi ++ lo)
  | _, _ => .error .wrongLength

/-- The event word of a command number and operands (R104). -/
def eventWord (cmd : BitVec 4) (e : EventArgs) : BitVec 32 :=
  e.param ++ (e.vol.extractLsb' 3 4 ++ cmd) ++ (e.smp ++ e.vol.extractLsb' 0 3) ++ e.note

/-- The four bytes of a word, lowest address first (R78). -/
def wordBytes (w : BitVec 32) : List (BitVec 8) :=
  [w.extractLsb' 0 8, w.extractLsb' 8 8, w.extractLsb' 16 8, w.extractLsb' 24 8]

/-- The bytes of an operation request: code, argument low byte, argument high byte (log entry 10). -/
def requestBytes (code : BitVec 8) (arg : BitVec 16) : List (BitVec 8) :=
  [code, arg.extractLsb' 0 8, arg.extractLsb' 8 8]

/-- The encoder: the bytes of an instruction in its format (R104, R111, R120). -/
def encode (cd : Coding) : Instr → List (BitVec 8)
  | .noneCmd e => wordBytes (eventWord (cd.codeOf .noEffect) e)
  | .setSpeed e => wordBytes (eventWord (cd.codeOf .setSpeed) e)
  | .posJump e => wordBytes (eventWord (cd.codeOf .posJump) e)
  | .patBreak e => wordBytes (eventWord (cd.codeOf .patBreak) e)
  | .volSlide e => wordBytes (eventWord (cd.codeOf .volSlide) e)
  | .portaDown e => wordBytes (eventWord (cd.codeOf .portaDown) e)
  | .portaUp e => wordBytes (eventWord (cd.codeOf .portaUp) e)
  | .tonePorta e => wordBytes (eventWord (cd.codeOf .tonePorta) e)
  | .vibrato e => wordBytes (eventWord (cd.codeOf .vibrato) e)
  | .tremor e => wordBytes (eventWord (cd.codeOf .tremor) e)
  | .arpeggio e => wordBytes (eventWord (cd.codeOf .arpeggio) e)
  | .volslideVib e => wordBytes (eventWord (cd.codeOf .volslideVib) e)
  | .volslideTporta e => wordBytes (eventWord (cd.codeOf .volslideTporta) e)
  | .rsv13 e => wordBytes (eventWord (cd.codeOf .rsv13) e)
  | .rsv14 e => wordBytes (eventWord (cd.codeOf .rsv14) e)
  | .rsv15 e => wordBytes (eventWord (cd.codeOf .rsv15) e)
  | .noteCut => [254]
  | .noNote => [255]
  | .note b => [b]
  | .endMark => [cd.sentinelMark]
  | .endZero => [cd.sentinelZero]
  | .pattern n => [n]
  | .create => requestBytes 0 0
  | .start rateArg => requestBytes 1 rateArg
  | .setPosition order => requestBytes 2 (order.setWidth 16)
  | .queryPosition => requestBytes 3 0
  | .render => requestBytes 4 0
  | .destroy => requestBytes 5 0

/-- Which format a word of the opcode table is read in (log entry 14). More than one byte: an event.
One byte: an operation code 0..7, else a sentinel or note byte of a row of its own, else a pattern
number, else a concrete note. No bits at all: the note row. -/
def tableFormat (nbits w : Nat) : Format :=
  if 8 < nbits then .event
  else if nbits = 0 then .note
  else if w % 256 < 8 then .hostop
  else if w % 256 < 100 then .order
  else .note

/-- The bytes of a table word in a format: bit 0 is the least significant bit of the first byte, and
every bit above `nbits` is 0. -/
def tableBytes (nbits w : Nat) : List (BitVec 8) :=
  let v := BitVec.ofNat 32 (w % 2 ^ nbits)
  match tableFormat nbits w with
  | .event => wordBytes v
  | .note => [v.extractLsb' 0 8]
  | .order => [v.extractLsb' 0 8]
  | .hostop => [v.extractLsb' 0 8, 0, 0]

/-- The instruction the decoder reads from a word of spec/opcode_table.json. -/
def decodeTableWord (nbits w : Nat) : Option Instr :=
  match decode .standard (tableFormat nbits w) (tableBytes nbits w) with
  | .ok i => some i
  | .error _ => none

end Sys2Proof
end

