-- ==== Sys2Proof/Machine/State.lean ====
section
/-! DEFINITION. The state of the machine as plain data (spec 10_state.md, 20_memory.md R70 to R77, 46_host_operations.md
R290 to R298), the reasons a step can stop (60_exceptions.md R310, R314), and the state after reset. -/

namespace Sys2Proof.Machine

/-- The three byte spaces of the Song (R70). -/
inductive Space
  | ord | pat | wave
  deriving DecidableEq, Repr

/-- A byte space as (address, byte) pairs, addresses strictly rising, no entry equal to what an
unlisted address reads as (log entry 6). -/
abbrev Memory := List Host.Cell

/-- A sample descriptor (R76). The `name`, which "is never read by the core", is not here. -/
structure SampleDesc where
  length    : BitVec 16
  loopStart : BitVec 16
  loopEnd   : BitVec 16
  volume    : BitVec 7
  c2spd     : BitVec 16
  deriving DecidableEq, Repr, Inhabited

/-- A slot for which the loader supplied no sample: `length = 0` (R77); no loop. -/
def SampleDesc.absent : SampleDesc := ⟨0, 0, 0xFFFF, 0, 0⟩

/-- The Song: the four read-only spaces and their geometry (R9, R70 to R77). -/
structure Song where
  /-- `song.ORDER_LEN` (R71). -/
  orderLen : Nat
  /-- `song.N_PATTERNS` (R72). -/
  nPatterns : Nat
  /-- ORD: the order list, by order position (R71). -/
  ord : Memory
  /-- PAT: byte `off` of pattern `p` at `1024 * p + off` (R72, R74). -/
  pat : Memory
  /-- WAVE: frame `i` of slot `s` at `65536 * s + i` (R75). -/
  wave : Memory
  /-- SMP: the descriptor of slot `s` at index `s - 1` (R76, R77). -/
  smp : Vector SampleDesc 31
  deriving DecidableEq, Repr

/-- What a session is bound to at CREATE: its arguments, the Song and the configuration (R291). -/
structure Binding where
  song : Song
  cfg  : Cfg
  deriving DecidableEq, Repr

/-- The life of the session (R298): none before CREATE, created, started, and ended by DESTROY, which ends
the run (R297). -/
inductive Session
  | none | created | started | ended
  deriving DecidableEq, Repr

/-- Where inside a tick event the core is, that is, which decoder of R121 reads the next instruction. Every
step leaves the core between operations (R290); the model's own field (log entry 1). -/
inductive Seq
  /-- Between operations: the core waits for a request of the host. -/
  | host
  /-- `change_pattern` is about to read the order entry at `order_pos` (R165). -/
  | order
  /-- `change_pattern` has resolved a sentinel and reads the entry it led to (R165). -/
  | orderAgain
  /-- A row event is about to serve channel `chan` (R163). -/
  | row
  /-- A per-tick event is about to serve channel `chan` (R210). -/
  | tick
  deriving DecidableEq, Repr

/-- What the host presents to the core, one at a time (R290, R298, R320). -/
inductive Request
  /-- An operation code (R120) with its argument. -/
  | op (code : BitVec 3) (arg : BitVec 16)
  /-- A write of the control bit `single_row` (R320). -/
  | setSingleRow (b : Bool)
  /-- A write of the control bit `active[c]` (R320). -/
  | setActive (c : Fin 4) (b : Bool)
  /-- A write of any other register (R320: refused). -/
  | writeOther
  /-- The loader presents a Song and a configuration: the arguments of the CREATE to come (R291, R335); while
  a session exists, a change of Song memory or of `cfg` (R87: refused). -/
  | load (g : Song) (c : Cfg)
  deriving DecidableEq, Repr

/-- What the last operation returned (R290). -/
inductive Result
  /-- An operation without a result, or none yet. -/
  | none
  /-- RENDER's output byte (R296). -/
  | sample (b : BitVec 8)
  /-- QUERY_POSITION's word (R295). -/
  | position (w : BitVec 16)
  deriving DecidableEq, Repr

/-- The state: the registers, the Song and `cfg` bound to the session, the session, the interface, and
the model's own sequencing fields. -/
structure State where
  /-- The four ChannelState register sets (R20). -/
  chans : Vector Channel 4
  /-- The PlaybackContext registers (R46 to R56). -/
  ctx : Context
  /-- The Song bound to the session (R291). -/
  song : Song
  /-- The configuration bound to the session (R291). -/
  cfg : Cfg
  /-- The Song and configuration the host presents with its operations: what CREATE binds (R291; log
  entry 11). -/
  given : Binding
  /-- Whether a session exists and is started (R298). -/
  session : Session
  /-- The result of the last operation (R290). -/
  result : Result
  /-- The requests the host has still to issue, first to come first (log entry 10). -/
  ops : List Request
  /-- Where inside an operation the core is (log entry 1). -/
  seq : Seq
  /-- The channel being served, in the order of R169 (log entry 1). -/
  chan : Fin 4
  /-- The tick event in progress is START's priming tick (R292; log entry 1). -/
  priming : Bool
  /-- The index of the next free value (log entry 8). -/
  fresh : Nat
  deriving DecidableEq, Repr

/-- The hardware "raises no exception and returns no error" (R310), so no step ends in a fault: this
type has no constructor. -/
inductive Fault
  deriving DecidableEq, Repr

/-- The refusals of R314, in its order, and the host's `notModelled`. Each is an input or state that
breaks the loader's or the host's contract and for which the spec says the step has no successor, so
each is safe: the hardware goes on where the model stops. -/
inductive Refusal
  /-- An instruction without a meaning yet; raised by no arm of this model. Safe. -/
  | notModelled (mnemonic : String)
  /-- `period_of`: semitone above 11 or octave at or beyond `cfg.N_OCTAVES` (R144). Safe. -/
  | invalidNote
  /-- A note or a running arpeggio where no sample was ever bound, or where `cfg.NOTE_PERIOD` is undefined at the
  reference frequency (R144, R336 d and e). Safe. -/
  | unboundSample
  /-- `set_tempo`: divisor not positive (R147). Safe. -/
  | invalidTempo
  /-- `change_pattern`: the resolved entry is above 97 or names no pattern (R165). Safe. -/
  | invalidOrderEntry
  /-- A read of ORD at or beyond `song.ORDER_LEN` (R71). Safe. -/
  | orderOutOfRange
  /-- A read of PAT outside the patterns there are (R72). Safe. -/
  | patternOutOfRange
  /-- A read of WAVE at or beyond the slot's `length` (R75). Safe. -/
  | waveOutOfRange
  /-- An active channel decodes an event with volume above 65 (R240). Safe. -/
  | invalidVolume
  /-- `rebind` to a descriptor with volume above 64 (R244). Safe. -/
  | invalidSampleVolume
  /-- Arpeggio semitone sum of 24 or more (R211). Safe. -/
  | arpeggioRange
  /-- A running arpeggio where no note was ever played (R211, R336 f). Safe. -/
  | noLastNote
  /-- An operation out of sequence, any operation after DESTROY, an operation code 6 or 7 (R298). Safe. -/
  | notStarted
  /-- An operation executed while another one is in progress (R85). Safe. -/
  | overlap
  /-- The host changes the Song or `cfg` while a session exists (R87). Safe. -/
  | songMutated
  /-- A host write to a register other than `single_row` and `active[c]` (R320). Safe. -/
  | badControlWrite
  deriving DecidableEq, Repr

/-- A Song in which nothing is listed, over the largest address spaces the rules can address: 256 order
positions (`order_pos` has 8 bits) and 98 patterns (R7); no sample (DESIGN CHOICE, log entry 4). -/
def Song.blank : Song where
  orderLen := 256
  nPatterns := 98
  ord := []
  pat := []
  wave := []
  smp := Vector.replicate 31 .absent

/-- The machine right after reset: the state START(0) writes before its priming tick (R62, R332), under
`Cfg.test` and with a blank Song bound; the first step is the priming tick, from its read of order entry 0
(R333; log entries 2 to 5). -/
def State.reset : State where
  chans := Vector.replicate 4 .start
  ctx :=
    { orderPos := 0, pattern := 0, tickCtr := 0, frameCtr := 160, tempo := 0x60, ticksPerRow := 6,
      framesPerTick := 160, gvol := 64, loopCtr := 0, orderMark := 0, rate := 8000, chgPat := true,
      singleRow := false }
  song := .blank
  cfg := .test
  given := ⟨.blank, .test⟩
  session := .started
  result := .none
  ops := []
  seq := .order
  chan := 0
  priming := true
  fresh := 0

end Sys2Proof.Machine
end

