-- ==== Sys2Proof/Machine/Operands.lean ====
section
/-! DEFINITION. How instructions read their operands: the nibbles of a parameter byte, the parameter memories, the latched
event (spec 00_scope.md R10, 30_encoding.md R110, 41_sequencer.md R163). -/

namespace Sys2Proof.Machine

/-- The high nibble of a byte (R10). -/
def hiNibble (b : BitVec 8) : BitVec 4 := b.extractLsb' 4 4

/-- The low nibble of a byte (R10). -/
def loNibble (b : BitVec 8) : BitVec 4 := b.extractLsb' 0 4

/-- A parameter with memory: a nonzero byte is used and remembered, a zero byte reuses the memory (R215,
R217). The answer is both the byte used and the new memory. -/
def remembered (mem p : BitVec 8) : BitVec 8 := if p = 0 then mem else p

/-- The row decode's writes: the event becomes the channel's active event (R163). -/
def Channel.latch (cmd : BitVec 4) (e : EventArgs) (ch : Channel) : Channel :=
  { ch with evNote := e.note, evSmp := e.smp, evVol := e.vol, evCmd := cmd, evParam := e.param }

/-- The operands of the latched event (R23 to R27). -/
def Channel.latchedArgs (ch : Channel) : EventArgs := ⟨ch.evNote, ch.evSmp, ch.evVol, ch.evParam⟩

/-- The latched event as an instruction: what the per-tick path dispatches on (R210). -/
def Channel.latchedInstr (cd : Coding) (ch : Channel) : Instr :=
  Instr.ofEvent (cd.effectOf ch.evCmd) ch.latchedArgs

/-- The integer part of the position: the sample-frame index (R41, R81). -/
def Channel.frameIndex (ch : Channel) : BitVec 16 := ch.pos.extractLsb' 16 16

end Sys2Proof.Machine
end

