-- ==== Sys2Proof/Machine/Flags.lean ====
section
/-! DEFINITION. The one-bit state (spec 10_state.md R55 to R57): there are no condition codes; `chg_pat` and the tremor
state have the writers below. -/

namespace Sys2Proof.Machine

/-- Request a pattern change: `chg_pat <- 1` (R55, R194). -/
def Context.requestPattern (x : Context) : Context := { x with chgPat := true }

/-- `continuation_reset(c)` under the active effect: tremor goes idle unless it is `TREMOR`, the vibrato
phase goes to 0 unless it is `VIBRATO` or `VOLSLIDE_VIB` (R198). -/
def Channel.continuationReset (eff : Effect) (ch : Channel) : Channel :=
  { ch with
    tremorCtr := if eff = .tremor then ch.tremorCtr else 0
    tremorState := if eff = .tremor then ch.tremorState else false
    vibPhase := if eff = .vibrato ∨ eff = .volslideVib then ch.vibPhase else 0 }

/-- Start the pattern's rows over: `row_ctr <- 0` (R165). -/
def Channel.rewind (ch : Channel) : Channel := { ch with rowCtr := 0 }

end Sys2Proof.Machine
end

