-- ==== Sys2Proof/Machine/Memory.lean ====
section
/-! DEFINITION. The named operations over the Song's spaces (spec 20_memory.md R70 to R81). The core only reads; the one
write here is the loader's, used by `State.withFetchWord`. -/

namespace Sys2Proof.Machine

/-- What an unlisted address reads as (DESIGN CHOICE, log entry 6): in PAT the bytes `FF 01 80 00` of the
empty event, as R119 has it for rows and patterns not written out; in ORD and WAVE 0. -/
def blankByte : Space → Nat → BitVec 8
  | .ord, _ => 0
  | .pat, a => if a % 4 = 0 then 0xFF else if a % 4 = 1 then 0x01 else if a % 4 = 2 then 0x80 else 0
  | .wave, _ => 0

/-- The byte at an address of a space. -/
def Memory.read (sp : Space) : Memory → Nat → BitVec 8
  | [], a => blankByte sp a
  | (k, b) :: m, a => if a = k then b else Memory.read sp m a

/-- The memory with one byte written, in canonical form again. -/
def Memory.write (sp : Space) : Memory → Nat → BitVec 8 → Memory
  | [], a, b => if b = blankByte sp a then [] else [(a, b)]
  | (k, x) :: m, a, b =>
    if a < k then (if b = blankByte sp a then (k, x) :: m else (a, b) :: (k, x) :: m)
    else if a = k then (if b = blankByte sp a then m else (k, b) :: m)
    else (k, x) :: Memory.write sp m a b

/-- The canonical form: addresses strictly rising, no entry equal to what its address reads as when
unlisted (log entry 6). -/
abbrev Memory.wf (sp : Space) (m : Memory) : Prop :=
  m.Pairwise (fun x y => x.1 < y.1) ∧ ∀ c ∈ m, c.2 ≠ blankByte sp c.1

/-- All three byte spaces of a Song are in canonical form. -/
abbrev Song.wf (g : Song) : Prop :=
  Memory.wf .ord g.ord ∧ Memory.wf .pat g.pat ∧ Memory.wf .wave g.wave

/-- Consecutive bytes from an address, lowest first. -/
def Memory.writeBytes (sp : Space) : Memory → Nat → List (BitVec 8) → Memory
  | m, _, [] => m
  | m, a, b :: bs => Memory.writeBytes sp (Memory.write sp m a b) (a + 1) bs

/-- `MemRead(ORD, i, 1)` (R71). -/
def Song.orderAt (g : Song) (i : BitVec 8) : Except Refusal (BitVec 8) :=
  if i.toNat < g.orderLen then .ok (Memory.read .ord g.ord i.toNat) else .error .orderOutOfRange

/-- The offset of the event of channel `c` at row `r` (R74). -/
def eventOffset (r : BitVec 7) (c : Fin 4) : Nat := 16 * r.toNat + 4 * c.val

/-- `MemRead(PAT, (p, off), 4)` as the word of R101 (R72, R74, R78). A pattern has 1024 bytes: an offset
past them, which no reachable state asks for, is no address of PAT (log entry 18). -/
def Song.eventAt (g : Song) (p : BitVec 7) (off : Nat) : Except Refusal (BitVec 32) :=
  if p.toNat < g.nPatterns ∧ off + 3 < 1024 then
    let a := 1024 * p.toNat + off
    .ok (Memory.read .pat g.pat (a + 3) ++ Memory.read .pat g.pat (a + 2) ++
      Memory.read .pat g.pat (a + 1) ++ Memory.read .pat g.pat a)
  else .error .patternOutOfRange

/-- `SmpDesc(slot)` (R76); slot 0 has none and is never asked for (R77). -/
def Song.desc (g : Song) (slot : BitVec 5) : SampleDesc :=
  if slot = 0 then .absent else (g.smp[slot.toNat - 1]?).getD .absent

/-- `MemRead(WAVE, (slot, i), 1)` (R75). -/
def Song.waveAt (g : Song) (slot : BitVec 5) (i : BitVec 16) : Except Refusal (BitVec 8) :=
  if i.toNat < (g.desc slot).length.toNat then
    .ok (Memory.read .wave g.wave (65536 * slot.toNat + i.toNat))
  else .error .waveOutOfRange

end Sys2Proof.Machine
end

