-- ==== Sys2Proof/Machine/Tables.lean ====
section
/-! DEFINITION. The constant tables and the pure functions on them (spec 40_constant_tables.md R140 to R151; 45_mixer_render.md
R268 to R271). -/

namespace Sys2Proof.Machine

/-- `vol_lut(v, s)`: the floor of `v × sext8(s) / 256`, as a byte (R140). -/
def volLut (v : BitVec 7) (s : BitVec 8) : BitVec 8 :=
  BitVec.ofInt 8 ((v.toNat : Int) * s.toInt / 256)

/-- `ptab(o, n)`: the octave-0 period shifted right once an octave (R142, R143). -/
def ptab (cfg : Cfg) (o n : Nat) : BitVec 16 := (cfg.p0[n]?).getD 0 >>> o

/-- `cfg.NOTE_PERIOD(tv, c2)`, `none` where it is undefined (R144). -/
def notePeriodAt (cfg : Cfg) (tv c2 : BitVec 16) : Option (BitVec 16) :=
  match cfg.notePeriod with
  | .table rows => (rows.find? (fun r => decide (r.tv = tv ∧ r.c2spd = c2))).map (·.period)
  | .rescale num => if c2 = 0 then none else some (BitVec.ofNat 16 (tv.toNat * num / c2.toNat))

/-- `period_of(note, c2)` of a reference frequency (R144), the note as a number so that an octave carried past 15 is still
one. It refuses an invalid note, and a frequency at which `cfg.NOTE_PERIOD` is undefined; that no sample was ever bound
is refused by `Channel.notePeriod`. -/
def periodOf (cfg : Cfg) (note : Nat) (c2 : BitVec 16) : Except Refusal (BitVec 16) :=
  if 11 < note % 16 ∨ cfg.nOctaves ≤ note / 16 then .error .invalidNote
  else
    match notePeriodAt cfg (ptab cfg (note / 16) (note % 16)) c2 with
    | none => .error .unboundSample
    | some p => .ok p

/-- `cfg.LFO[vib_phase >> 1]` (R145, R217). -/
def lfoAt (cfg : Cfg) (phase : BitVec 7) : Int := (cfg.lfo[phase.toNat / 2]?).getD 0

/-- `cfg.VIB_SCALE(l, d)`, which is 0 when either argument is (R217). -/
def vibOffset (cfg : Cfg) (l : Int) (d : BitVec 4) : Int :=
  if l = 0 ∨ d = 0 then 0
  else
    match cfg.vibScale with
    | .table rows =>
      ((rows.find? (fun r => decide (r.level = l ∧ r.depth = d))).map (·.offset)).getD 0
    | .ratio den => l * (d.toNat : Int) / (den : Int)

/-- The divisor of `set_tempo`: `50 - (TEMPO_TABLE[hi] × lo) div 16` (R147). -/
def tempoDivisor (cfg : Cfg) (t : BitVec 8) : Int :=
  50 - (((((cfg.tempoTable[(hiNibble t).toNat]?).getD 0).toNat * (loNibble t).toNat) / 16 : Nat) : Int)

/-- The step of a period at a rate: the two-stage division of R268, 0 below period 551 (R269). The two
halves are the integer part modulo 65536 and the fraction. -/
def frequencyStep (cfg : Cfg) (rate period : BitVec 16) : BitVec 32 :=
  if 551 ≤ period.toNat then
    let t := cfg.baseFreq / period.toNat
    BitVec.ofNat 16 (t / rate.toNat) ++ BitVec.ofNat 16 (t % rate.toNat * 65536 / rate.toNat)
  else 0

/-- The effective mix volume `(vol_cur × gvol) div 64` (R168). -/
def mixVolume (volCur gvol : BitVec 7) : BitVec 7 := BitVec.ofNat 7 (volCur.toNat * gvol.toNat / 64)

end Sys2Proof.Machine
end

