-- ==== Sys2Proof/Machine/Ops.lean ====
section
/-! DEFINITION. The shared operations over registers (spec 40_constant_tables.md R147, 43_effects_tick.md R211 to R221,
44_trigger_note.md R240 to R250, 45_mixer_render.md R268). The hardware raises no exception and returns from none (R310,
R316, R317), so there is no exception entry here. -/

namespace Sys2Proof.Machine

/-- The outcome of a meaning. -/
abbrev Out := Host.Outcome State Fault Refusal

/-- Go on with a next state; a stop stays a stop. -/
def andThen (o : Out) (f : State → Out) : Out :=
  match o with
  | .next s => f s
  | .fault x => .fault x
  | .refused r => .refused r

/-- Go on with a value; its refusal is the step's. -/
def withValue {α : Type} (x : Except Refusal α) (f : α → Out) : Out :=
  match x with
  | .ok a => f a
  | .error r => .refused r

/-- The registers of channel `c` (R12). -/
def State.channel (s : State) (c : Fin 4) : Channel := s.chans[c]

/-- Write the registers of channel `c` (R12). -/
def State.setChannel (s : State) (c : Fin 4) (ch : Channel) : State :=
  { s with chans := s.chans.set c ch }

/-- Apply a register update to all four channels. -/
def onAll (f : Channel → Channel) (chans : Vector Channel 4) : Vector Channel 4 :=
  Vector.ofFn fun c => f chans[c]

/-- The channel being served. -/
def State.cur (s : State) : Channel := s.channel s.chan

/-- Write the channel being served. -/
def State.setCur (s : State) (ch : Channel) : State := s.setChannel s.chan ch

/-- Apply a register update to the channel being served. -/
def State.modCur (s : State) (f : Channel → Channel) : State := s.setCur (f s.cur)

/-- `set_tempo(t)` (R147). -/
def Context.setTempo (cfg : Cfg) (t : BitVec 8) (x : Context) : Except Refusal Context :=
  if tempoDivisor cfg t ≤ 0 then .error .invalidTempo
  else .ok
    { x with
      tempo := t
      ticksPerRow := hiNibble t
      framesPerTick := BitVec.ofNat 16 (x.rate.toNat / (tempoDivisor cfg t).toNat) }

/-- `update_frequency(c)` (R268). -/
def Channel.updateFrequency (cfg : Cfg) (rate : BitVec 16) (ch : Channel) : Channel :=
  { ch with step := frequencyStep cfg rate ch.periodCur }

/-- Write `period_cur` and, in the same procedure, the step (R225). -/
def Channel.setPeriod (cfg : Cfg) (rate period : BitVec 16) (ch : Channel) : Channel :=
  ({ ch with periodCur := period }).updateFrequency cfg rate

/-- The explicit volume of an event (R241): refused above 65, ignored at 65. -/
def Channel.explicitVolume (ch : Channel) : Except Refusal Channel :=
  if 65 < ch.evVol.toNat then .error .invalidVolume
  else if ch.evVol = 65 then .ok ch
  else .ok { ch with volCur := ch.evVol, volInit := ch.evVol }

/-- `rebind(c, slot)` to the descriptor `d` of `slot` (R244). -/
def Channel.rebind (slot : BitVec 5) (d : SampleDesc) (ch : Channel) : Except Refusal Channel :=
  if 64 < d.volume.toNat then .error .invalidSampleVolume
  else .ok
    { ch with
      waveSlot := slot
      c2spd := d.c2spd
      sampleBound := true
      loopStart := if d.loopEnd = 0xFFFF then 0 else d.loopStart
      loopEnd := if d.loopEnd = 0xFFFF then d.length else d.loopEnd
      loopEn := decide (d.loopEnd ≠ 0xFFFF)
      volCur := if ch.evVol = 65 then d.volume else ch.volCur
      volInit := if ch.evVol = 65 then d.volume else ch.volInit }

/-- The sample field outside tone portamento: bind, and force a note cut if the sample has no waveform
data (R244, R245). -/
def Channel.sampleStep (g : Song) (ch : Channel) : Except Refusal Channel :=
  if ch.evSmp = 0 then .ok ch
  else
    match ch.rebind ch.evSmp (g.desc ch.evSmp) with
    | .error r => .error r
    | .ok ch' => .ok (if (g.desc ch.evSmp).length = 0 then { ch' with evNote := 254 } else ch')

/-- The sample field under tone portamento (R250). -/
def Channel.portaSampleStep (cfg : Cfg) (g : Song) (ch : Channel) : Except Refusal Channel :=
  if cfg.tportaRebindsSample ∧ ch.evSmp ≠ 0 then ch.rebind ch.evSmp (g.desc ch.evSmp) else .ok ch

/-- The note cut's writes (R246). -/
def Channel.cutNote (ch : Channel) : Channel :=
  { ch with pos := 0, loopEn := false, loopStart := 0, loopEnd := 0 }

/-- The period of a note on a channel, at the frequency `c2spd` holds (R144). Where no sample was ever bound it is
refused: the Song plays a note before a sample (R336 e, R314). -/
def Channel.notePeriod (cfg : Cfg) (note : Nat) (ch : Channel) : Except Refusal (BitVec 16) :=
  match periodOf cfg note ch.c2spd with
  | .error r => .error r
  | .ok p => if ch.sampleBound then .ok p else .error .unboundSample

/-- A concrete note's writes (R247). -/
def Channel.playNote (cfg : Cfg) (rate : BitVec 16) (b : BitVec 8) (ch : Channel) :
    Except Refusal Channel :=
  match ch.notePeriod cfg b.toNat with
  | .error r => .error r
  | .ok p =>
    .ok (({ ch with lastNote := b, notePlayed := true, periodTgt := p, pos := 0 }).setPeriod cfg rate p)

/-- A concrete note's write under tone portamento: the target period only (R242, R243). -/
def Channel.aimNote (cfg : Cfg) (b : BitVec 8) (ch : Channel) : Except Refusal Channel :=
  match ch.notePeriod cfg b.toNat with
  | .error r => .error r
  | .ok p => .ok { ch with periodTgt := p }

/-- A concrete note, by whether the active command is tone portamento (R240 step 2). -/
def Channel.concreteNote (cfg : Cfg) (rate : BitVec 16) (porta : Bool) (b : BitVec 8) (ch : Channel) :
    Except Refusal Channel :=
  if porta then ch.aimNote cfg b else ch.playNote cfg rate b

/-- A note cut, which tone portamento does not perform (R242, R246). -/
def Channel.noteCut (porta : Bool) (ch : Channel) : Channel := if porta then ch else ch.cutNote

/-- The note byte of the active event, by its form (R105, R240 step 2). -/
def Channel.noteStep (cfg : Cfg) (rate : BitVec 16) (porta : Bool) (ch : Channel) :
    Except Refusal Channel :=
  match noteForm ch.evNote with
  | .concrete b => ch.concreteNote cfg rate porta b
  | .cut => .ok (ch.noteCut porta)
  | .none => .ok ch

/-- Steps 1 and 2 of `trigger_note(c)` (R240): volume; then under tone portamento the target and the
sample, otherwise the sample and the note. -/
def Channel.trigger (cfg : Cfg) (g : Song) (rate : BitVec 16) (porta : Bool) (ch : Channel) :
    Except Refusal Channel :=
  match ch.explicitVolume with
  | .error r => .error r
  | .ok ch₁ =>
    if porta then
      match ch₁.noteStep cfg rate true with
      | .error r => .error r
      | .ok ch₂ => ch₂.portaSampleStep cfg g
    else
      match ch₁.sampleStep g with
      | .error r => .error r
      | .ok ch₂ => ch₂.noteStep cfg rate false

/-- The semitone offset of an arpeggio at a tick count (R211): residue 2 base, 1 high nibble, 0 low. -/
def arpeggioOffset (tickCtr p : BitVec 8) : Nat :=
  if tickCtr.toNat % 3 = 2 then 0
  else if tickCtr.toNat % 3 = 1 then (hiNibble p).toNat
  else (loNibble p).toNat

/-- The note of an arpeggio: base plus offset with one carry into the octave (R211). -/
def arpeggioNote (base : BitVec 8) (k : Nat) : Except Refusal Nat :=
  let o := base.toNat / 16
  let n := base.toNat % 16 + k
  if n < 12 then .ok (16 * o + n)
  else if n < 24 then .ok (16 * (o + 1) + (n - 12))
  else .error .arpeggioRange

/-- `do_arpeggio(c, p)` (R211). Where no note was ever played it is refused: the Song runs an arpeggio before a note
(R336 f, R314). -/
def Channel.arpeggio (cfg : Cfg) (rate : BitVec 16) (tickCtr p : BitVec 8) (ch : Channel) :
    Except Refusal Channel :=
  if ch.notePlayed then
    match arpeggioNote ch.lastNote (arpeggioOffset tickCtr p) with
    | .error r => .error r
    | .ok n =>
      match ch.notePeriod cfg n with
      | .error r => .error r
      | .ok q => .ok (ch.setPeriod cfg rate q)
  else .error .noLastNote

/-- `do_tremor(c)` (R213). -/
def Channel.doTremor (ch : Channel) : Channel :=
  if ch.tremorCtr = 0 then
    if ch.tremorState then
      { ch with tremorState := false, volCur := 0, tremorCtr := loNibble ch.evParam }
    else
      { ch with tremorState := true, volCur := ch.volInit, tremorCtr := hiNibble ch.evParam }
  else { ch with tremorCtr := ch.tremorCtr - 1 }

/-- One step of a period toward a target, never past it (R215). -/
def slideToward (cur tgt d : Nat) : Nat :=
  if cur < tgt then min (cur + d) tgt else max (cur - d) tgt

/-- `do_tone_portamento(c, p)` (R215). -/
def Channel.tonePortamento (cfg : Cfg) (rate : BitVec 16) (p : BitVec 8) (ch : Channel) : Channel :=
  let q := remembered ch.tportaMem p
  ({ ch with tportaMem := q }).setPeriod cfg rate
    (BitVec.ofNat 16 (slideToward ch.periodCur.toNat ch.periodTgt.toNat (cfg.tportaMult * q.toNat)))

/-- `do_vibrato(c, p)` (R217). -/
def Channel.doVibrato (cfg : Cfg) (rate : BitVec 16) (p : BitVec 8) (ch : Channel) : Channel :=
  let q := remembered ch.vibMem p
  ({ ch with
      vibMem := q
      vibPhase := BitVec.ofNat 7 (ch.vibPhase.toNat + 2 * (hiNibble q).toNat) &&& 0x7E }).setPeriod
    cfg rate
    (BitVec.ofInt 16 ((ch.periodTgt.toNat : Int) + vibOffset cfg (lfoAt cfg ch.vibPhase) (loNibble q)))

/-- `PORTA_UP`'s step: the period falls by the speed, modulo 2^16 (R218). -/
def Channel.slideUp (cfg : Cfg) (rate : BitVec 16) (p : BitVec 8) (ch : Channel) : Channel :=
  ch.setPeriod cfg rate
    (BitVec.ofInt 16 ((ch.periodCur.toNat : Int) - (cfg.portaMult * p.toNat : Nat)))

/-- `PORTA_DOWN`'s step: the period grows by the speed, modulo 2^16 (R219). -/
def Channel.slideDown (cfg : Cfg) (rate : BitVec 16) (p : BitVec 8) (ch : Channel) : Channel :=
  ch.setPeriod cfg rate (BitVec.ofNat 16 (ch.periodCur.toNat + cfg.portaMult * p.toNat))

/-- `do_volume_slide(c, p)` (R221). -/
def Channel.volumeSlide (p : BitVec 8) (ch : Channel) : Channel :=
  { ch with
    volCur :=
      if loNibble p ≠ 0 then BitVec.ofNat 7 (ch.volCur.toNat - (loNibble p).toNat)
      else BitVec.ofNat 7 (min (ch.volCur.toNat + (hiNibble p).toNat) 64) }

end Sys2Proof.Machine
end

