-- ==== Sys2Proof/Machine/Events.lean ====
section
/-! DEFINITION. The sixteen EVENT instructions (spec 42_effects_row.md R190 to R198, 43_effects_tick.md R210 to R224). An event
runs on the channel being served: in a row event it is latched, triggers its volume, sample and note and then runs `cmd_once`
(R163, R240); in a per-tick event the latched event runs `cmd_tick` (R210). -/

namespace Sys2Proof.Machine

/-- What every event does, around what its own command adds. In a per-tick event: the continuation reset,
then the command's per-tick action (R210). In a row event: latch (R163), steps 1 and 2 of `trigger_note`
(R240), the continuation reset and the command's row-trigger action (R190, R249). -/
def onEvent (eff : Effect) (once tick : State → Out) (e : EventArgs) (s : State) : Out :=
  if s.seq = .tick then tick (s.modCur (·.continuationReset eff))
  else
    withValue
      ((s.cur.latch (s.cfg.coding.codeOf eff) e).trigger s.cfg s.song s.ctx.rate
        (decide (eff = .tonePorta)))
      fun ch => once (s.setCur (ch.continuationReset eff))

/-- No action beyond the continuation reset (R191, R195, R197, R224). -/
def noAction (s : State) : Out := .next s

/-- An action on the registers of the channel being served. -/
def channelAction (f : Channel → Channel) (s : State) : Out := .next (s.modCur f)

/-- `NONE` (R191, R224). -/
def execNoneCmd (e : EventArgs) (s : State) : Out := onEvent .noEffect noAction noAction e s

/-- `SET_SPEED`'s row-trigger action: a nonzero parameter sets the tempo (R192). -/
def setSpeedOnce (s : State) : Out :=
  if s.cur.evParam = 0 then .next s
  else withValue (s.ctx.setTempo s.cfg s.cur.evParam) fun x => .next { s with ctx := x }

/-- `SET_SPEED` (R192, R224). -/
def execSetSpeed (e : EventArgs) (s : State) : Out := onEvent .setSpeed setSpeedOnce noAction e s

/-- `POS_JUMP`'s row-trigger action (R193). -/
def posJumpOnce (s : State) : Out := .next { s with ctx := { s.ctx with orderPos := s.cur.evParam } }

/-- `POS_JUMP` (R193, R224). -/
def execPosJump (e : EventArgs) (s : State) : Out := onEvent .posJump posJumpOnce noAction e s

/-- `PAT_BREAK`'s row-trigger action (R194). -/
def patBreakOnce (s : State) : Out := .next { s with ctx := s.ctx.requestPattern }

/-- `PAT_BREAK` (R194, R224). -/
def execPatBreak (e : EventArgs) (s : State) : Out := onEvent .patBreak patBreakOnce noAction e s

/-- `VOL_SLIDE`'s per-tick action (R220, R221). -/
def volSlideTick (s : State) : Out := channelAction (·.volumeSlide s.cur.evParam) s

/-- `VOL_SLIDE` (R220). -/
def execVolSlide (e : EventArgs) (s : State) : Out := onEvent .volSlide noAction volSlideTick e s

/-- `PORTA_DOWN`'s per-tick action (R219). -/
def portaDownTick (s : State) : Out :=
  channelAction (·.slideDown s.cfg s.ctx.rate s.cur.evParam) s

/-- `PORTA_DOWN` (R219). -/
def execPortaDown (e : EventArgs) (s : State) : Out := onEvent .portaDown noAction portaDownTick e s

/-- `PORTA_UP`'s per-tick action (R218). -/
def portaUpTick (s : State) : Out := channelAction (·.slideUp s.cfg s.ctx.rate s.cur.evParam) s

/-- `PORTA_UP` (R218). -/
def execPortaUp (e : EventArgs) (s : State) : Out := onEvent .portaUp noAction portaUpTick e s

/-- `TONE_PORTA`'s per-tick action (R214, R215). -/
def tonePortaTick (s : State) : Out :=
  channelAction (·.tonePortamento s.cfg s.ctx.rate s.cur.evParam) s

/-- `TONE_PORTA` (R214; at the row event R242, R243, R250). -/
def execTonePorta (e : EventArgs) (s : State) : Out := onEvent .tonePorta noAction tonePortaTick e s

/-- `VIBRATO`'s per-tick action (R216, R217). -/
def vibratoTick (s : State) : Out := channelAction (·.doVibrato s.cfg s.ctx.rate s.cur.evParam) s

/-- `VIBRATO` (R216). -/
def execVibrato (e : EventArgs) (s : State) : Out := onEvent .vibrato noAction vibratoTick e s

/-- `TREMOR`'s action, on the triggering tick (R196) and on every per-tick event (R212). -/
def tremorAction (s : State) : Out := channelAction Channel.doTremor s

/-- `TREMOR` (R196, R212). -/
def execTremor (e : EventArgs) (s : State) : Out := onEvent .tremor tremorAction tremorAction e s

/-- `ARPEGGIO`'s per-tick action (R211). -/
def arpeggioTick (s : State) : Out :=
  withValue (s.cur.arpeggio s.cfg s.ctx.rate s.ctx.tickCtr s.cur.evParam) fun ch => .next (s.setCur ch)

/-- `ARPEGGIO` (R211). -/
def execArpeggio (e : EventArgs) (s : State) : Out := onEvent .arpeggio noAction arpeggioTick e s

/-- `VOLSLIDE_VIB`'s per-tick action: the slide, then vibrato from its own memory (R223). -/
def volslideVibTick (s : State) : Out :=
  channelAction (fun ch => (ch.volumeSlide s.cur.evParam).doVibrato s.cfg s.ctx.rate 0) s

/-- `VOLSLIDE_VIB` (R223). -/
def execVolslideVib (e : EventArgs) (s : State) : Out :=
  onEvent .volslideVib noAction volslideVibTick e s

/-- `VOLSLIDE_TPORTA`'s per-tick action: the slide, then tone portamento from its own memory (R222). -/
def volslideTportaTick (s : State) : Out :=
  channelAction (fun ch => (ch.volumeSlide s.cur.evParam).tonePortamento s.cfg s.ctx.rate 0) s

/-- `VOLSLIDE_TPORTA` (R222). -/
def execVolslideTporta (e : EventArgs) (s : State) : Out :=
  onEvent .volslideTporta noAction volslideTportaTick e s

/-- `RSV13` (R195, R224). -/
def execRsv13 (e : EventArgs) (s : State) : Out := onEvent .rsv13 noAction noAction e s

/-- `RSV14` (R195, R224). -/
def execRsv14 (e : EventArgs) (s : State) : Out := onEvent .rsv14 noAction noAction e s

/-- `RSV15` (R195, R224). -/
def execRsv15 (e : EventArgs) (s : State) : Out := onEvent .rsv15 noAction noAction e s

end Sys2Proof.Machine
end

