-- ==== Sys2Proof/Machine/Mixer.lean ====
section
/-! DEFINITION. The mixer and sample engine: steps 1 to 3 of `render()` (spec 45_mixer_render.md R260 to R265). -/

namespace Sys2Proof.Machine

/-- The mixer at work: the channels, and the 8-bit accumulator (R264). -/
structure Mix where
  chans : Vector Channel 4
  acc   : BitVec 8
  deriving DecidableEq, Repr

/-- Step 1: at or past the loop end, wrap the integer part to the loop start, keeping the fraction (R261,
R274). -/
def Channel.wrapLoop (ch : Channel) : Channel :=
  if ch.loopEnd ≤ ch.frameIndex then { ch with pos := ch.loopStart ++ ch.pos.extractLsb' 0 16 } else ch

/-- Step 1: at or past the loop end with no loop configured, the channel is silent and does not advance
(R261). -/
def Channel.exhausted (ch : Channel) : Bool := decide (ch.loopEnd ≤ ch.frameIndex) && !ch.loopEn

/-- Step 3's condition: waveform data, the index before the loop end, the mix volume below the silence
threshold 65 (R263). -/
def Channel.sounds (g : Song) (ch : Channel) : Bool :=
  decide (ch.waveSlot ≠ 0) && decide (0 < (g.desc ch.waveSlot).length.toNat) &&
  decide (ch.frameIndex < ch.loopEnd) && decide (ch.volMix.toNat < 65)

/-- The channel's contribution to the sample (R263): the table entry of its byte, 0 when it is silent. -/
def Channel.contribution (g : Song) (ch : Channel) : Except Refusal (BitVec 8) :=
  if ch.sounds g then
    match g.waveAt ch.waveSlot ch.frameIndex with
    | .error r => .error r
    | .ok b => .ok (volLut ch.volMix b)
  else .ok 0

/-- Step 2: advance by the step, modulo 2^32 (R262). -/
def Channel.advance (ch : Channel) : Channel := { ch with pos := ch.pos + ch.step }

/-- Steps 1 to 3 of `render()` for one channel (R260): the channel after, and its contribution. -/
def Channel.mix (g : Song) (ch : Channel) : Except Refusal (Channel × BitVec 8) :=
  if ch.exhausted then .ok (ch, 0)
  else
    match ch.wrapLoop.contribution g with
    | .error r => .error r
    | .ok v => .ok (ch.wrapLoop.advance, v)

/-- Channel `c`'s turn; the accumulator wraps modulo 256 (R264). -/
def Mix.turn (g : Song) (c : Fin 4) (m : Mix) : Except Refusal Mix :=
  match m.chans[c].mix g with
  | .error r => .error r
  | .ok (ch, v) => .ok ⟨m.chans.set c ch, m.acc + v⟩

/-- The turns of a list of channels, in order. -/
def Mix.turns (g : Song) : List (Fin 4) → Mix → Except Refusal Mix
  | [], m => .ok m
  | c :: cs, m =>
    match m.turn g c with
    | .error r => .error r
    | .ok m' => Mix.turns g cs m'

/-- Steps 1 to 3 of `render()` for the four channels in ascending order (R260, R275). -/
def mixAll (g : Song) (chans : Vector Channel 4) : Except Refusal Mix :=
  Mix.turns g [0, 1, 2, 3] ⟨chans, 0⟩

end Sys2Proof.Machine
end

