-- ==== Sys2Proof/Machine/Fetch.lean ====
section
/-! DEFINITION. Fetching an instruction from where the sequencer stands (spec 10_state.md R58, 30_encoding.md R121, 46_host_operations.md
R290, 92_eei_decisions.md D29 for what is refused). -/

namespace Sys2Proof.Machine

/-- The operation of a request: its code (R120) and argument through the HOSTOP decoder; codes 6 and 7 are
refused (R314). -/
def fetchOp (code : BitVec 3) (arg : BitVec 16) : Except Refusal Instr :=
  match decodeHostOp (code.setWidth 8) arg with
  | .ok i => .ok i
  | .error _ => .error .notStarted

/-- The order entry at `order_pos`, through the ORDER decoder; a reserved entry is refused (R115, R165). -/
def fetchOrder (s : State) : Except Refusal Instr :=
  match s.song.orderAt s.ctx.orderPos with
  | .error r => .error r
  | .ok b =>
    match decodeOrder s.cfg.coding b with
    | .ok i => .ok i
    | .error _ => .error .invalidOrderEntry

/-- The event of the channel being served, at its row of the current pattern, through the EVENT decoder
(R74, R163). -/
def fetchEvent (s : State) : Except Refusal Instr :=
  match s.song.eventAt s.ctx.pattern (eventOffset s.cur.rowCtr s.chan) with
  | .error r => .error r
  | .ok w => .ok (decodeEvent s.cfg.coding w)

/-- The active event of the channel being served (R26, R210). -/
def fetchLatched (s : State) : Instr := s.cur.latchedInstr s.cfg.coding

/-- The request code and argument of a table word: code in bits 2..0, argument in bits 23..8. -/
def wordRequest (w : BitVec 32) : Request := .op (w.extractLsb' 0 3) (w.extractLsb' 8 16)

/-- The event in which a note byte runs when it is given alone: no sample, no volume override, no effect
(R118: `<note> S-- V-- NONE 00`; log entry 15). -/
def noteEventBytes (b : BitVec 8) : List (BitVec 8) := [b, 0x01, 0x80, 0x00]

/-- The row counter as a row of a pattern (R29): itself below 64, else 0. -/
def rowInPattern (r : BitVec 7) : BitVec 7 := if r.toNat < 64 then r else 0

/-- Place an event's bytes where channel 3's row step fetches, and stand there: the last channel of a row
event, so that the step runs no other event (log entry 5). The loader plays a concrete note only on a channel
to which a sample was bound (R336 e), so for a concrete note channel 3 counts as such a channel. -/
def State.placeEvent (s : State) (bytes : List (BitVec 8)) : State :=
  let ch := s.channel 3
  let row := rowInPattern ch.rowCtr
  let playsNote := decide ((bytes.headD 0xFF).toNat < 254)
  { s.setChannel 3
      { ch with active := true, rowCtr := row, sampleBound := ch.sampleBound || playsNote } with
    song :=
      { s.song with
        nPatterns := max s.song.nPatterns (s.ctx.pattern.toNat + 1)
        pat := Memory.writeBytes .pat s.song.pat (1024 * s.ctx.pattern.toNat + eventOffset row 3) bytes }
    cfg := { s.cfg with coding := .standard }
    session := .started
    seq := .row
    chan := 3 }

/-- Place an order entry where `change_pattern` fetches, and stand there. A sentinel is placed beside the
position it leads to, where `PATTERN 0` is placed, since it is resolved once only (R165; log entry 5). -/
def State.placeOrder (s : State) (b : BitVec 8) : State :=
  let wraps := decide (b = 98 ∨ b = 99)
  let target := if b = 98 then s.ctx.orderMark else 0
  let pos := if wraps ∧ s.ctx.orderPos = target then target + 1 else s.ctx.orderPos
  let ord := Memory.write .ord s.song.ord pos.toNat b
  { s with
    ctx := { s.ctx with orderPos := pos }
    song :=
      { s.song with
        orderLen := max s.song.orderLen (max pos.toNat target.toNat + 1)
        nPatterns := max s.song.nPatterns (if wraps then 1 else b.toNat + 1)
        ord := if wraps then Memory.write .ord ord target.toNat 0 else ord }
    cfg := { s.cfg with coding := .standard }
    session := .started
    seq := .order
    chan := 0 }

/-- The session in which an operation is legal: the one there is, if it is legal there (R298). -/
def sessionFor (code : BitVec 3) (x : Session) : Session :=
  if code = 0 then .none
  else if code = 1 ∨ code = 5 then (if x = .none ∨ x = .ended then .created else x)
  else .started

/-- Make an operation the host's next request, between operations, in a session in which it is legal (log
entry 5). -/
def State.placeRequest (s : State) (r : Request) : State :=
  { s with
    ops := r :: s.ops
    session := match r with
      | .op code _ => sessionFor code s.session
      | _ => s.session
    seq := .host
    chan := 0
    priming := false }

end Sys2Proof.Machine
end

