-- ==== Sys2Proof/Machine/Notes.lean ====
section
/-! DEFINITION. The three note forms as instructions (spec 44_trigger_note.md R243, R246 to R248): the note step of
`trigger_note` on the channel being served, whose active event says whether it is tone portamento. `Channel.trigger` runs the
same operations when an event's note byte is reached (log entry 15). -/

namespace Sys2Proof.Machine

/-- Whether the active command of the channel being served is `TONE_PORTA` exactly (R242). -/
def State.curIsPorta (s : State) : Bool :=
  decide (s.cfg.coding.effectOf s.cur.evCmd = .tonePorta)

/-- `NOTE` (R247; under `TONE_PORTA` R243). -/
def execNote (b : BitVec 8) (s : State) : Out :=
  withValue (s.cur.concreteNote s.cfg s.ctx.rate s.curIsPorta b) fun ch => .next (s.setCur ch)

/-- `NOTE_CUT` (R246; under `TONE_PORTA` it does nothing, R242). -/
def execNoteCut (s : State) : Out := .next (s.setCur (s.cur.noteCut s.curIsPorta))

/-- `NO_NOTE`: no note handling (R248). -/
def execNoNote (s : State) : Out := .next s

end Sys2Proof.Machine
end

