-- ==== Sys2Proof/Machine/Sequencer.lean ====
section
/-! DEFINITION. The sequencer's flow between instructions (spec 41_sequencer.md R160 to R164, R168; 46_host_operations.md
R292). A tick event is entered by RENDER or START, serves the four channels in ascending order (R169), and ends with the
mix-volume recompute; Machine/Run.lean runs it through. -/

namespace Sys2Proof.Machine

/-- The mix-volume recompute of every channel (R168). -/
def State.recomputeMix (s : State) : State :=
  { s with chans := onAll (fun ch => { ch with volMix := mixVolume ch.volCur s.ctx.gvol }) s.chans }

/-- After START's priming tick the frame counter is loaded (R292); other tick events leave it. -/
def State.primeFrame (s : State) : State :=
  if s.priming then { s with ctx := { s.ctx with frameCtr := s.ctx.framesPerTick } } else s

/-- The end of a tick event, on every path of R160; the operation is complete. -/
def State.finishTick (s : State) : State :=
  { s.recomputeMix.primeFrame with seq := .host, chan := 0, priming := false }

/-- `tick_advance()` up to its first channel or order entry (R160, R161, R162): a nonzero `tick_ctr` is
decremented and the per-tick handlers follow; a zero one takes the row boundary, unless `single_row`
is 1, when only the recompute runs. -/
def State.enterTick (s : State) : State :=
  if s.ctx.tickCtr ≠ 0 then
    { s with ctx := { s.ctx with tickCtr := s.ctx.tickCtr - 1 }, seq := .tick, chan := 0 }
  else if s.ctx.singleRow then s.finishTick
  else { s with seq := if s.ctx.chgPat then .order else .row, chan := 0 }

/-- The end of `row_boundary()`: `tick_ctr` is reloaded from the `ticks_per_row` the row left (R162). -/
def State.finishRow (s : State) : State :=
  State.finishTick
    { s with
      ctx :=
        { s.ctx with
          tickCtr := if s.ctx.ticksPerRow = 0 then 0 else s.ctx.ticksPerRow.setWidth 8 - 1 } }

/-- The end of `row_step(c)`: the row counter advances, and reaching 64 requests a pattern change (R163,
R164). -/
def State.countRow (s : State) : State :=
  { s.setCur { s.cur with rowCtr := s.cur.rowCtr + 1 } with
    ctx := if s.cur.rowCtr + 1 = 64 then s.ctx.requestPattern else s.ctx }

/-- After channel `chan`'s share of a row event: the next channel, or the end of the row (R162, R169). -/
def State.advanceRow (s : State) : State :=
  if s.chan = 3 then s.countRow.finishRow else { s.countRow with chan := s.chan + 1 }

/-- After channel `chan`'s share of a per-tick event: the next channel, or the end of the tick (R160,
R169). -/
def State.advanceTick (s : State) : State :=
  if s.chan = 3 then s.finishTick else { s with chan := s.chan + 1 }

end Sys2Proof.Machine
end

