-- ==== Sys2Proof/Machine/Orders.lean ====
section
/-! DEFINITION. The order-list entries as instructions: `change_pattern()` (spec 41_sequencer.md R165, R172 to R174). -/

namespace Sys2Proof.Machine

/-- `PATTERN n` (R172): the rows of pattern `n` start over; refused when there is no such pattern (R115,
R165). -/
def execPattern (n : BitVec 8) (s : State) : Out :=
  if 97 < n.toNat ∨ s.song.nPatterns ≤ n.toNat then .refused .invalidOrderEntry
  else .next
    { s with
      ctx :=
        { s.ctx with pattern := n.setWidth 7, orderPos := s.ctx.orderPos + 1, chgPat := false }
      chans := onAll Channel.rewind s.chans
      seq := .row
      chan := 0 }

/-- A sentinel: continue at `target` and count a loop; a second sentinel in a row is refused, "resolved
once only" (R165). -/
def wrapOrder (target : BitVec 8) (s : State) : Out :=
  if s.seq = .orderAgain then .refused .invalidOrderEntry
  else .next
    { s with
      ctx := { s.ctx with orderPos := target, loopCtr := s.ctx.loopCtr + 1 }
      seq := .orderAgain }

/-- `END_MARK` (R173). -/
def execEndMark (s : State) : Out := wrapOrder s.ctx.orderMark s

/-- `END_ZERO` (R174). -/
def execEndZero (s : State) : Out := wrapOrder 0 s

end Sys2Proof.Machine
end

