-- ==== Sys2Proof/Machine/Run.lean ====
section
/-! DEFINITION. A tick event run through: the sequencer fetches one instruction after another, the order entries of
`change_pattern` and the events of the four channels, until the operation that began it is complete (spec 41_sequencer.md
R160 to R165, 10_state.md R58; 46_host_operations.md R290: an operation is one atomic step). -/

namespace Sys2Proof.Machine

/-- An instruction met inside a tick event. The six operations are not: an operation there would overlap the
one in progress (R85). -/
def runInside (i : Instr) (s : State) : Out :=
  match i with
  | .noneCmd e => execNoneCmd e s
  | .setSpeed e => execSetSpeed e s
  | .posJump e => execPosJump e s
  | .patBreak e => execPatBreak e s
  | .volSlide e => execVolSlide e s
  | .portaDown e => execPortaDown e s
  | .portaUp e => execPortaUp e s
  | .tonePorta e => execTonePorta e s
  | .vibrato e => execVibrato e s
  | .tremor e => execTremor e s
  | .arpeggio e => execArpeggio e s
  | .volslideVib e => execVolslideVib e s
  | .volslideTporta e => execVolslideTporta e s
  | .rsv13 e => execRsv13 e s
  | .rsv14 e => execRsv14 e s
  | .rsv15 e => execRsv15 e s
  | .noteCut => execNoteCut s
  | .noNote => execNoNote s
  | .note b => execNote b s
  | .endMark => execEndMark s
  | .endZero => execEndZero s
  | .pattern n => execPattern n s
  | .create => .refused .overlap
  | .start _ => .refused .overlap
  | .setPosition _ => .refused .overlap
  | .queryPosition => .refused .overlap
  | .render => .refused .overlap
  | .destroy => .refused .overlap

/-- One instruction of a tick event. Inside `change_pattern`: the order entry. In a row event: the channel's
event if the channel is active, and its row counter (R163). In a per-tick event: the channel's latched event
(R210). Between operations there is none. -/
def turn (s : State) : Out :=
  match s.seq with
  | .host => .next s
  | .order => withValue (fetchOrder s) fun i => runInside i s
  | .orderAgain => withValue (fetchOrder s) fun i => runInside i s
  | .row =>
    if s.cur.active then
      withValue (fetchEvent s) fun i => andThen (runInside i s) fun t => .next t.advanceRow
    else .next s.advanceRow
  | .tick => andThen (runInside (fetchLatched s) s) fun t => .next t.advanceTick

/-- At most `k` instructions of the tick event in progress, stopping where the operation is complete. -/
def runOn : Nat → State → Out
  | 0, s => .next s
  | k + 1, s => if s.seq = .host then .next s else andThen (turn s) (runOn k)

/-- The tick event in progress, run to its end: at most two order entries and four channels are left of it
(R89, R165, R169). -/
def finishOperation (s : State) : Out := runOn 6 s

end Sys2Proof.Machine
end

