-- ==== Sys2Proof/Machine/HostOps.lean ====
section
/-! DEFINITION. The six host operations (spec 46_host_operations.md R290 to R298) and the host's other writes
(60_exceptions.md R314, R320). -/

namespace Sys2Proof.Machine

/-- An operation runs between operations only (R85) and only in a session that allows it (R298). -/
def onHost (legal : Bool) (act : State → Out) (s : State) : Out :=
  if s.seq ≠ .host then .refused .overlap
  else if legal then act s
  else .refused .notStarted

/-- Whether a session exists: after CREATE and before DESTROY (R298). -/
def Session.live (x : Session) : Bool := decide (x = .created ∨ x = .started)

/-- `CREATE` (R291): a session exists, bound to the Song and configuration given, and every register is
without a value: free values take their place (log entry 8). Legal only where no session was yet (R298; log
entry 9). -/
def execCreate (s : State) : Out :=
  onHost (decide (s.session = .none))
    (fun s =>
      .next
        { s with
          song := s.given.song
          cfg := s.given.cfg
          chans := Vector.ofFn (Config.freeChannel s.fresh)
          ctx := Config.freeContext s.fresh
          fresh := s.fresh + 1
          session := .created
          result := .none })
    s

/-- The START value of channel `c` (R62); what R62 leaves unspecified is a free value (log entry 8). -/
def startChannel (n : Nat) (c : Fin 4) : Channel :=
  { Channel.start with
    lastNote := (Config.freeChannel n c).lastNote
    c2spd := (Config.freeChannel n c).c2spd }

/-- The START values of the context before `set_tempo` (R62, R292). -/
def startContext (cfg : Cfg) (n : Nat) (rateArg : BitVec 16) : Context :=
  { Config.freeContext n with
    rate := if rateArg = 0 then cfg.defaultRate else rateArg
    orderPos := 0
    orderMark := 0
    loopCtr := 0
    tickCtr := 0
    chgPat := true
    singleRow := false
    gvol := cfg.initGvol }

/-- `START(rate_arg)` (R292): every register takes its START value, then the priming tick runs. The frame
counter takes its START value here (R62) and again after the priming tick (`State.finishTick`). -/
def execStart (rateArg : BitVec 16) (s : State) : Out :=
  onHost s.session.live
    (fun s =>
      withValue ((startContext s.cfg s.fresh rateArg).setTempo s.cfg s.cfg.initTempo) fun x =>
        finishOperation
          (State.enterTick
            { s with
              chans := Vector.ofFn (startChannel s.fresh)
              ctx := { x with frameCtr := x.framesPerTick }
              fresh := s.fresh + 1
              session := .started
              result := .none
              priming := true }))
    s

/-- `SET_POSITION(order)` (R294). -/
def execSetPosition (order : BitVec 8) (s : State) : Out :=
  onHost (decide (s.session = .started))
    (fun s =>
      .next
        { s with
          ctx := { s.ctx with orderPos := order, orderMark := order, chgPat := true }
          result := .none })
    s

/-- `QUERY_POSITION` (R295): the loop count above the order position. -/
def execQueryPosition (s : State) : Out :=
  onHost (decide (s.session = .started))
    (fun s => .next { s with result := .position (s.ctx.loopCtr ++ s.ctx.orderPos) })
    s

/-- Step 4 of `render()` (R266) up to the tick event: at 1 the frame counter is reloaded and a tick event
begins; otherwise it is decremented, modulo 2^16. -/
def State.countFrame (s : State) : State :=
  if s.ctx.frameCtr = 1 then
    State.enterTick
      { s with ctx := { s.ctx with frameCtr := s.ctx.framesPerTick }, priming := false }
  else { s with ctx := { s.ctx with frameCtr := s.ctx.frameCtr - 1 } }

/-- `RENDER` (R260, R296): mix the four channels, return the biased sum (R265), count the frame, and run the
tick event if the frame counter is at its boundary. -/
def execRender (s : State) : Out :=
  onHost (decide (s.session = .started))
    (fun s =>
      withValue (mixAll s.song s.chans) fun m =>
        finishOperation (State.countFrame { s with chans := m.chans, result := .sample (m.acc + 128) }))
    s

/-- `DESTROY` (R297): the session ceases to exist, and the run ends: no operation is legal afterwards (R298).
The registers' contents stay (log entry 23). -/
def execDestroy (s : State) : Out :=
  onHost s.session.live (fun s => .next { s with session := .ended, result := .none }) s

/-- A host write of `single_row` (R320): in a started session, no side effect. -/
def hostSetSingleRow (b : Bool) (s : State) : Out :=
  if s.session = .started then .next { s with ctx := { s.ctx with singleRow := b } }
  else .refused .notStarted

/-- A host write of `active[c]` (R320): in a started session, no side effect. -/
def hostSetActive (c : Fin 4) (b : Bool) (s : State) : Out :=
  if s.session = .started then .next (s.setChannel c { s.channel c with active := b })
  else .refused .notStarted

/-- A host write of any other register (R320). -/
def hostWriteOther (_ : State) : Out := .refused .badControlWrite

/-- The loader presents a Song and a configuration (R291, R335). While a session exists that is a change of
the Song or `cfg` it is bound to, which is refused (R87). -/
def hostLoad (g : Song) (c : Cfg) (s : State) : Out :=
  if s.session.live then .refused .songMutated else .next { s with given := ⟨g, c⟩ }

end Sys2Proof.Machine
end

