-- ==== Sys2Proof/Machine/Dispatch.lean ====
section
/-! DEFINITION. The meaning of every instruction of the opcode table, one arm for each constructor of `Instr`. -/

namespace Sys2Proof.Machine

def exec (i : Instr) (s : State) : Host.Outcome State Fault Refusal :=
  match i with
  | .noneCmd e => Sys2Proof.Machine.execNoneCmd e s
  | .setSpeed e => Sys2Proof.Machine.execSetSpeed e s
  | .posJump e => Sys2Proof.Machine.execPosJump e s
  | .patBreak e => Sys2Proof.Machine.execPatBreak e s
  | .volSlide e => Sys2Proof.Machine.execVolSlide e s
  | .portaDown e => Sys2Proof.Machine.execPortaDown e s
  | .portaUp e => Sys2Proof.Machine.execPortaUp e s
  | .tonePorta e => Sys2Proof.Machine.execTonePorta e s
  | .vibrato e => Sys2Proof.Machine.execVibrato e s
  | .tremor e => Sys2Proof.Machine.execTremor e s
  | .arpeggio e => Sys2Proof.Machine.execArpeggio e s
  | .volslideVib e => Sys2Proof.Machine.execVolslideVib e s
  | .volslideTporta e => Sys2Proof.Machine.execVolslideTporta e s
  | .rsv13 e => Sys2Proof.Machine.execRsv13 e s
  | .rsv14 e => Sys2Proof.Machine.execRsv14 e s
  | .rsv15 e => Sys2Proof.Machine.execRsv15 e s
  | .noteCut => Sys2Proof.Machine.execNoteCut s
  | .noNote => Sys2Proof.Machine.execNoNote s
  | .note b => Sys2Proof.Machine.execNote b s
  | .endMark => Sys2Proof.Machine.execEndMark s
  | .endZero => Sys2Proof.Machine.execEndZero s
  | .pattern n => Sys2Proof.Machine.execPattern n s
  | .create => Sys2Proof.Machine.execCreate s
  | .start rateArg => Sys2Proof.Machine.execStart rateArg s
  | .setPosition order => Sys2Proof.Machine.execSetPosition order s
  | .queryPosition => Sys2Proof.Machine.execQueryPosition s
  | .render => Sys2Proof.Machine.execRender s
  | .destroy => Sys2Proof.Machine.execDestroy s

end Sys2Proof.Machine
end

