-- ==== Sys2Proof/Machine/Serve.lean ====
section
/-! DEFINITION. The host's requests, served one at a time (spec 46_host_operations.md R290, R298, 60_exceptions.md R320). -/

namespace Sys2Proof.Machine

/-- Serve one request of the host: a whole operation, or an act beside the operations (R87, R320). -/
def serve (r : Request) (s : State) : Out :=
  match r with
  | .op code arg => withValue (fetchOp code arg) fun i => exec i s
  | .setSingleRow b => hostSetSingleRow b s
  | .setActive c b => hostSetActive c b s
  | .writeOther => hostWriteOther s
  | .load g c => hostLoad g c s

/-- Between operations: the host's next request, or nothing if it has none (R324; log entry 20). -/
def serveNext (s : State) : Out :=
  match s.ops with
  | [] => .next s
  | r :: rest => serve r { s with ops := rest }

end Sys2Proof.Machine
end

