-- ==== Sys2Proof/Machine/Step.lean ====
section
/-! DEFINITION. One step of the machine: one whole operation of the host (spec 46_host_operations.md R290: "an operation is one
atomic step of the model"; log entry 1). -/

namespace Sys2Proof.Machine

/-- One step. Between operations: serve the host's next request, an operation being carried out whole. In a
state that stands inside an operation (the priming tick at reset, an instruction placed by
`State.withFetchWord`): the rest of that operation, from the instruction it stands at. -/
def step (s : State) : Host.Outcome State Fault Refusal :=
  if s.seq = .host then serveNext s else finishOperation s

/-- The state with a table word stored where `step` fetches its next instruction (log entry 5). -/
def State.withFetchWord (s : State) (nbits w : Nat) : State :=
  let v := BitVec.ofNat 32 (w % 2 ^ nbits)
  match tableFormat nbits w with
  | .event => s.placeEvent (wordBytes v)
  | .note => s.placeEvent (noteEventBytes (v.extractLsb' 0 8))
  | .order => s.placeOrder (v.extractLsb' 0 8)
  | .hostop => s.placeRequest (wordRequest v)

end Sys2Proof.Machine
end

