-- ==== Sys2Proof/Safety.lean ====
section
/-! DEFINITION. The terms in which claims about runs are made: the procedures of the spec that an operation carries out,
the invariants of a started session, the loader's contract (spec 10_state.md R60, 41_sequencer.md R160 to R165,
46_host_operations.md R290, 70_reset_and_hazards.md R336). -/

namespace Sys2Proof.Machine

/-- `cmd_tick(c)` (R210) as a procedure on the whole state. -/
def cmdTick (c : Fin 4) (s : State) : Out :=
  exec (fetchLatched { s with seq := .tick, chan := c }) { s with seq := .tick, chan := c }

/-- `row_step(c)` (R163) as a procedure on the whole state. -/
def rowStep (c : Fin 4) (s : State) : Out :=
  if (s.channel c).active then
    withValue (fetchEvent { s with seq := .row, chan := c }) fun i =>
      andThen (exec i { s with seq := .row, chan := c }) fun t => .next t.countRow
  else .next (State.countRow { s with seq := .row, chan := c })

/-- A procedure for channels 0, 1, 2, 3 in turn (R169). -/
def forChannels (f : Fin 4 → State → Out) (s : State) : Out :=
  andThen (f 0 s) fun s₁ => andThen (f 1 s₁) fun s₂ => andThen (f 2 s₂) (f 3)

/-- The entry `change_pattern` resolves, with the order position and loop counter it leaves (R165). -/
def resolveOrder (s : State) : Except Refusal (BitVec 8 × Context) :=
  match s.song.orderAt s.ctx.orderPos with
  | .error r => .error r
  | .ok e =>
    if e = s.cfg.coding.sentinelMark then
      match s.song.orderAt s.ctx.orderMark with
      | .error r => .error r
      | .ok e' =>
        .ok (e', { s.ctx with orderPos := s.ctx.orderMark, loopCtr := s.ctx.loopCtr + 1 })
    else if e = s.cfg.coding.sentinelZero then
      match s.song.orderAt 0 with
      | .error r => .error r
      | .ok e' => .ok (e', { s.ctx with orderPos := 0, loopCtr := s.ctx.loopCtr + 1 })
    else .ok (e, s.ctx)

/-- `change_pattern()` (R165) as one procedure. -/
def changePattern (s : State) : Out :=
  withValue (resolveOrder s) fun ec =>
    if 97 < ec.1.toNat ∨ s.song.nPatterns ≤ ec.1.toNat then .refused .invalidOrderEntry
    else .next
      { s with
        ctx :=
          { ec.2 with pattern := ec.1.setWidth 7, orderPos := ec.2.orderPos + 1, chgPat := false }
        chans := onAll (fun ch => { ch with rowCtr := 0 }) s.chans }

/-- `row_boundary()` (R162), up to the reload of the tick counter, which `State.finishRow` holds. -/
def rowBoundary (s : State) : Out :=
  andThen (if s.ctx.chgPat then changePattern s else .next s) (forChannels rowStep)

/-- `tick_advance()` (R160) as one procedure. -/
def tickAdvance (s : State) : Out :=
  if s.ctx.tickCtr ≠ 0 then
    andThen
      (forChannels cmdTick { s with ctx := { s.ctx with tickCtr := s.ctx.tickCtr - 1 } })
      fun t => .next t.finishTick
  else if s.ctx.singleRow then .next s.finishTick
  else andThen (rowBoundary s) fun t => .next t.finishRow

/-- `RENDER` as one procedure (R260): mix, bias, and at the frame boundary reload and run the tick event. -/
def renderWhole (s : State) : Out :=
  withValue (mixAll s.song s.chans) fun m =>
    if s.ctx.frameCtr = 1 then
      tickAdvance
        { s with
          chans := m.chans, result := .sample (m.acc + 128), priming := false
          ctx := { s.ctx with frameCtr := s.ctx.framesPerTick } }
    else .next
      { s with
        chans := m.chans, result := .sample (m.acc + 128)
        ctx := { s.ctx with frameCtr := s.ctx.frameCtr - 1 } }

/-- `START(rate_arg)` as one procedure (R292): the START values, the priming tick, and last the frame counter. -/
def startWhole (rateArg : BitVec 16) (s : State) : Out :=
  withValue ((startContext s.cfg s.fresh rateArg).setTempo s.cfg s.cfg.initTempo) fun x =>
    tickAdvance
      { s with
        chans := Vector.ofFn (startChannel s.fresh)
        ctx := { x with frameCtr := x.framesPerTick }
        fresh := s.fresh + 1
        session := .started
        result := .none
        priming := true }

/-- Where channel `ch`'s position stands after a RENDER, in the registers (R261, R262): at or past the loop end
it stays, or, with a loop, it restarts at the loop start with its fraction; else it advances by the step. -/
def advancedPos (ch : Channel) : BitVec 32 :=
  if ch.loopEnd ≤ ch.pos.extractLsb' 16 16 then
    if ch.loopEn then (ch.loopStart ++ ch.pos.extractLsb' 0 16) + ch.step else ch.pos
  else ch.pos + ch.step

/-- What a channel of a started session keeps (R60, R198, R225): volumes at most 64, an even vibrato phase, the
step of its period, a row counter of at most 64, tremor idle and vibrato phase 0 under other commands, a
reference frequency exactly when a sample is bound. -/
def ChannelInv (cfg : Cfg) (rate : BitVec 16) (ch : Channel) : Prop :=
  ch.volCur.toNat ≤ 64 ∧ ch.volInit.toNat ≤ 64 ∧ ch.volMix.toNat ≤ 64 ∧
  ch.vibPhase.toNat % 2 = 0 ∧
  ch.step = frequencyStep cfg rate ch.periodCur ∧
  ch.rowCtr.toNat ≤ 64 ∧
  (cfg.coding.effectOf ch.evCmd ≠ .tremor → ch.tremorCtr = 0 ∧ ch.tremorState = false) ∧
  (cfg.coding.effectOf ch.evCmd ≠ .vibrato → cfg.coding.effectOf ch.evCmd ≠ .volslideVib →
    ch.vibPhase = 0) ∧
  (ch.sampleBound = true ↔ ch.waveSlot ≠ 0)

/-- A row counter at 64 has its pattern change pending, and inside a row event the channels still to be served
stand at a row of the pattern (R163, R164). -/
def RowInv (s : State) : Prop :=
  (∀ c, (s.channel c).rowCtr = 64 → s.ctx.chgPat = true) ∧
  (s.seq = .row → ∀ c, s.chan ≤ c → (s.channel c).rowCtr.toNat < 64)

/-- A Song and configuration as the loader must give them: `cfg` meets R8's constraints, and the Song's byte
spaces are in canonical form (log entry 6). -/
def Binding.Legal (x : Binding) : Prop := x.cfg.wf = true ∧ Song.wf x.song

/-- The invariant of the machine (R60): while a session is started its channels keep `ChannelInv`, the global
volume is at most 64, the rate is not 0 (R54), and the rows keep `RowInv`; the core is inside an operation
only in a started session; what is bound, what the host presents and what it is still to present is legal. -/
def Inv (s : State) : Prop :=
  Binding.Legal ⟨s.song, s.cfg⟩ ∧ s.given.Legal ∧
  (∀ g c, Request.load g c ∈ s.ops → Binding.Legal ⟨g, c⟩) ∧
  (s.seq ≠ .host → s.session = .started) ∧
  (s.session = .started →
    (∀ c, ChannelInv s.cfg s.ctx.rate (s.channel c)) ∧
    s.ctx.gvol.toNat ≤ 64 ∧ s.ctx.rate ≠ 0 ∧ RowInv s)

/-- The registers a binding of the sample of `slot` writes beside the volumes (R244). -/
def Channel.BoundTo (slot : BitVec 5) (d : SampleDesc) (ch : Channel) : Prop :=
  ch.waveSlot = slot ∧ ch.c2spd = d.c2spd ∧ ch.sampleBound = true ∧
  (d.loopEnd = 0xFFFF → ch.loopEnd = d.length ∧ ch.loopStart = 0 ∧ ch.loopEn = false) ∧
  (d.loopEnd ≠ 0xFFFF → ch.loopEnd = d.loopEnd ∧ ch.loopStart = d.loopStart ∧ ch.loopEn = true)

/-- Channel `ch`'s turn in the mixer reads its waveform at or beyond its length, in the registers (R75, R261,
R263): it has waveform data and a mix volume below 65, and the frame it reads, its own before the loop end, the
loop start at or past it, is before the loop end but not before the waveform's. -/
def Channel.ReadsBeyond (g : Song) (ch : Channel) : Prop :=
  ch.waveSlot ≠ 0 ∧ (g.desc ch.waveSlot).length ≠ 0 ∧ ch.volMix.toNat < 65 ∧
  ((ch.pos.extractLsb' 16 16 < ch.loopEnd ∧ (g.desc ch.waveSlot).length ≤ ch.pos.extractLsb' 16 16) ∨
   (ch.loopEnd ≤ ch.pos.extractLsb' 16 16 ∧ ch.loopEn = true ∧ ch.loopStart < ch.loopEnd ∧
     (g.desc ch.waveSlot).length ≤ ch.loopStart))

/-- `off` is `cfg.VIB_SCALE(l, d)` (R217), read from the configuration's data (log entry 13): 0 where the waveform
value or the depth is 0; else for a ratio the floor of their product over its denominator, for a table the offset
of its first point there, or 0. -/
def VibScales (cfg : Cfg) (l : Int) (d : Nat) (off : Int) : Prop :=
  (l = 0 ∨ d = 0 → off = 0) ∧
  (l ≠ 0 → d ≠ 0 →
    (∀ den : Nat, cfg.vibScale = .ratio den → off = (l * d).fdiv den) ∧
    (∀ rows, cfg.vibScale = .table rows →
      (∀ before row after, rows = before ++ row :: after →
        (∀ r ∈ before, ¬ (r.level = l ∧ r.depth.toNat = d)) →
        row.level = l → row.depth.toNat = d → off = row.offset) ∧
      ((∀ r ∈ rows, ¬ (r.level = l ∧ r.depth.toNat = d)) → off = 0)))

/-- The volume an event outside tone portamento gives (R241, R244): its explicit one, else the base volume of the
sample it binds, else the one there was. -/
def volumeOver (e : EventArgs) (d : SampleDesc) (old : BitVec 7) : BitVec 7 :=
  if e.vol ≠ 65 then e.vol else if e.smp ≠ 0 then d.volume else old

/-- What an event of `eff` outside tone portamento, binding `d` if it has a sample field, does to the volumes of
channel `old` (R241, R244): both take the event's volume; `TREMOR` then makes its move on the current one (R196,
R213). -/
def Channel.TakesVolumes (eff : Effect) (e : EventArgs) (d : SampleDesc) (old new : Channel) : Prop :=
  new.volInit = volumeOver e d old.volInit ∧
  (eff ≠ .tremor ∨ old.tremorCtr ≠ 0 → new.volCur = volumeOver e d old.volCur) ∧
  (eff = .tremor → old.tremorCtr = 0 →
    new.volCur = if old.tremorState then 0 else new.volInit)

/-- The loader's contract for a descriptor (R336 d): base volume at most 64, and no loop or a nonempty loop
inside the waveform. -/
def DescLegal (d : SampleDesc) : Prop :=
  d.volume.toNat ≤ 64 ∧ (d.loopEnd = 0xFFFF ∨ (d.loopStart < d.loopEnd ∧ d.loopEnd ≤ d.length))

/-- Every slot's descriptor is legal (R336 d). -/
def SamplesLegal (g : Song) : Prop := ∀ slot : BitVec 5, slot ≠ 0 → DescLegal (g.desc slot)

/-- While a session is started no channel's loop end lies beyond its waveform (R244 with R336 d). -/
def LoopInv (s : State) : Prop :=
  s.session = .started → ∀ c, (s.channel c).waveSlot ≠ 0 →
    (s.channel c).loopEnd ≤ (s.song.desc (s.channel c).waveSlot).length

/-- What a row event needs of a freshly latched channel for its event to trigger (R240, with R113, R114, R144,
R244, R336 e): a volume of 0..65; a legal base volume in a sample it binds; and, for a concrete note that is not
forced to a cut, a sample bound, and a period at the reference frequency then bound. -/
def TriggerLegal (cfg : Cfg) (g : Song) (porta : Bool) (ch : Channel) : Prop :=
  ch.evVol.toNat ≤ 65 ∧
  (ch.evSmp ≠ 0 → (porta = true → cfg.tportaRebindsSample = true) →
    (g.desc ch.evSmp).volume.toNat ≤ 64) ∧
  (ch.evNote.toNat < 254 → (porta = false → ch.evSmp ≠ 0 → (g.desc ch.evSmp).length ≠ 0) →
    (porta = false ∧ ch.evSmp ≠ 0 ∨ ch.sampleBound = true) ∧ ∃ p, periodOf cfg ch.evNote.toNat
      (if porta = false ∧ ch.evSmp ≠ 0 then (g.desc ch.evSmp).c2spd else ch.c2spd) = .ok p)

/-- The loader's contract on the channel being served for an event of `eff` (R336 e, f): a concrete note finds a
sample bound, by the event itself or before, and a running arpeggio a note played and a sample bound. Its breach
is what R314 refuses as `UnboundSample` and `NoLastNote`. -/
def State.PlaysBound (eff : Effect) (e : EventArgs) (s : State) : Prop :=
  (s.seq ≠ .tick → e.note.toNat < 254 → (eff ≠ .tonePorta ∧ e.smp ≠ 0) ∨ s.cur.sampleBound = true) ∧
  (s.seq = .tick → eff = .arpeggio → s.cur.notePlayed = true ∧ s.cur.sampleBound = true)

/-- The channel with other contents in the registers R62 leaves unspecified, where no rule has written them yet:
`c2spd` holds `x` and `lastNote` holds `n` (R21, log entries 3 and 8). -/
def Channel.withUnwritten (x : BitVec 16) (n : BitVec 8) (ch : Channel) : Channel :=
  { ch with
    c2spd := if ch.sampleBound then ch.c2spd else x
    lastNote := if ch.notePlayed then ch.lastNote else n }

end Sys2Proof.Machine
end

