-- ==== Sys2Proof/Certificates/Slice0/Obligations.lean ====
section
/-! DEFINITION. The statements for the provers. Each names the rules of spec/ it formalises in its docstring. -/

open Sys2Proof
open Sys2Proof.Machine

/-! ### Encodings -/

/-- R103: the fields of an event from its four bytes. -/
def Obligations.EventFieldsFollowTheByteLayout : Prop :=
  ∀ b0 b1 b2 b3 : BitVec 8,
    (eventArgs (b3 ++ b2 ++ b1 ++ b0)).note = b0 ∧
    (eventArgs (b3 ++ b2 ++ b1 ++ b0)).smp.toNat = (b1 >>> 3).toNat ∧
    (eventArgs (b3 ++ b2 ++ b1 ++ b0)).vol.toNat = ((b1 &&& 0x07) ||| ((b2 &&& 0xF0) >>> 1)).toNat ∧
    (eventCmd (b3 ++ b2 ++ b1 ++ b0)).toNat = (b2 &&& 0x0F).toNat ∧
    (eventArgs (b3 ++ b2 ++ b1 ++ b0)).param = b3

/-- R104: the bytes of an event; encode then decode, and decode then encode, are the identity, under every
legal command map. -/
def Obligations.EventEncodingIsABijection : Prop :=
  ∀ cd : Coding, cd.wf = true →
    (∀ (eff : Effect) (e : EventArgs),
      encode cd (Instr.ofEvent eff e) =
        [e.note, (e.smp.setWidth 8 <<< 3) ||| (e.vol.setWidth 8 &&& 7),
          ((e.vol.setWidth 8 >>> 3) <<< 4) ||| (cd.codeOf eff).setWidth 8, e.param]) ∧
    (∀ (eff : Effect) (e : EventArgs),
      decode cd .event (encode cd (Instr.ofEvent eff e)) = .ok (Instr.ofEvent eff e)) ∧
    (∀ b0 b1 b2 b3 : BitVec 8,
      encode cd (decodeEvent cd (b3 ++ b2 ++ b1 ++ b0)) = [b0, b1, b2, b3])

/-- Section 30: every encodable instruction of every format decodes from its encoding. -/
def Obligations.EveryInstructionDecodesFromItsEncoding : Prop :=
  ∀ (cd : Coding) (i : Instr), cd.wf = true → i.encodable = true →
    decode cd i.format (encode cd i) = .ok i

/-- R111, R115: what an order byte is, under either assignment of the sentinels. -/
def Obligations.OrderBytesDecodeByRange : Prop :=
  ∀ (cd : Coding) (b : BitVec 8), cd.wf = true →
    (b.toNat ≤ 97 → decodeOrder cd b = .ok (.pattern b)) ∧
    (b = cd.sentinelMark → decodeOrder cd b = .ok .endMark) ∧
    (b = cd.sentinelZero → decodeOrder cd b = .ok .endZero) ∧
    (100 ≤ b.toNat → decodeOrder cd b = .error (.reservedOrder b))

/-- Words written out from the encodings of 95_test_vectors.md V1 and R111, R120 decode to the instruction they
stand for, under the command numbers and the order of the sentinels that R109 and R111 presume as defaults (log
entry 12), one-byte words being read as log entry 14 says. -/
def Obligations.WrittenOutWordsDecode : Prop :=
  decodeTableWord 32 0x00800920 = some (.noneCmd ⟨0x20, 1, 65, 0⟩) ∧
  decodeTableWord 32 0x03541020 = some (.volSlide ⟨0x20, 2, 40, 3⟩) ∧
  decodeTableWord 32 0x78563412 = some (.portaUp ⟨0x12, 6, 44, 0x78⟩) ∧
  decodeTableWord 32 0xFF8FF8FF = some (.rsv15 ⟨0xFF, 31, 64, 0xFF⟩) ∧
  decodeTableWord 8 0xFE = some .noteCut ∧ decodeTableWord 8 99 = some .endZero ∧
  decodeTableWord 8 4 = some .render

/-! ### Constant tables -/

/-- R140: the volume table is the floor of the signed product over 256, within -32..31. -/
def Obligations.VolumeTableIsTheFloor : Prop :=
  ∀ (v : BitVec 7) (s : BitVec 8), v.toNat ≤ 64 →
    (volLut v s).toInt = ((v.toNat : Int) * s.toInt).fdiv 256 ∧
    -32 ≤ (volLut v s).toInt ∧ (volLut v s).toInt ≤ 31

/-- R142: octave 0 is `cfg.P0` and octave 1 halves it, truncating; R143: every further octave continues the law,
which is the spec's extension (D5; log entry 21). R144: the period of a note is `cfg.NOTE_PERIOD` of the table period
and the reference frequency, read from the configuration's data (log entry 13): for a rescaling the truncated
quotient modulo 65536, undefined at reference frequency 0; for a table its first point there, undefined without one.
A valid note has the period of its octave and semitone. -/
def Obligations.PeriodsComeFromTheConfiguration : Prop :=
  ∀ cfg : Cfg,
    (∀ (o n : Nat) (h : n < 12),
      ptab cfg 0 n = cfg.p0[n] ∧ (ptab cfg (o + 1) n).toNat = (ptab cfg o n).toNat / 2) ∧
    (∀ tv c2 : BitVec 16,
      (∀ num : Nat, cfg.notePeriod = .rescale num →
        (c2 = 0 → notePeriodAt cfg tv c2 = none) ∧
        (c2 ≠ 0 → ∃ p, notePeriodAt cfg tv c2 = some p ∧
          p.toNat = tv.toNat * num / c2.toNat % 65536)) ∧
      (∀ rows, cfg.notePeriod = .table rows →
        (∀ before row after, rows = before ++ row :: after → (∀ r ∈ before, ¬ (r.tv = tv ∧ r.c2spd = c2)) →
          row.tv = tv → row.c2spd = c2 → notePeriodAt cfg tv c2 = some row.period) ∧
        ((∀ r ∈ rows, ¬ (r.tv = tv ∧ r.c2spd = c2)) → notePeriodAt cfg tv c2 = none))) ∧
    (∀ (note : Nat) (c2 p : BitVec 16), note % 16 ≤ 11 → note / 16 < cfg.nOctaves →
      notePeriodAt cfg (ptab cfg (note / 16) (note % 16)) c2 = some p →
        periodOf cfg note c2 = .ok p)

/-- R268, R269: the two-stage division from period 551 on, 0 below. -/
def Obligations.FrequencyStepIsTwoStage : Prop :=
  ∀ (cfg : Cfg) (rate period : BitVec 16), rate ≠ 0 →
    (551 ≤ period.toNat →
      (frequencyStep cfg rate period).toNat =
        (cfg.baseFreq / period.toNat / rate.toNat) % 65536 * 65536 +
          (cfg.baseFreq / period.toNat % rate.toNat) * 65536 / rate.toNat) ∧
    (period.toNat < 551 → frequencyStep cfg rate period = 0)

/-! ### The step -/

/-- R58, R163, R165, R210, R290 (log entry 1 for the states inside an operation): a step runs the instruction decoded
from where the sequencer stands. Between operations that is the host's next request, which leaves the queue, and its
operation whole. Inside an operation it is the order entry at `order_pos` (R71), the event in the four bytes at the
channel's place in its row of the pattern (R72, R74, R101) or the channel's latched event, and the step goes on with
the rest of the operation: the next channel, and so to the operation's end. -/
def Obligations.StepRunsTheDecodedInstruction : Prop :=
  ∀ (s : State) (i : Instr),
    (∀ (code : BitVec 3) (arg : BitVec 16) (rest : List Request),
      s.seq = .host → s.ops = .op code arg :: rest → decodeHostOp (code.setWidth 8) arg = .ok i →
        step s = exec i { s with ops := rest }) ∧
    (s.seq = .order ∨ s.seq = .orderAgain → s.ctx.orderPos.toNat < s.song.orderLen →
      decodeOrder s.cfg.coding (Memory.read .ord s.song.ord s.ctx.orderPos.toNat) = .ok i →
        step s = andThen (exec i s) (runOn 5)) ∧
    (∀ a : Nat, s.seq = .row → s.cur.active = true → s.ctx.pattern.toNat < s.song.nPatterns →
      s.cur.rowCtr.toNat < 64 →
      a = 1024 * s.ctx.pattern.toNat + 16 * s.cur.rowCtr.toNat + 4 * s.chan.val →
      decodeEvent s.cfg.coding
        (Memory.read .pat s.song.pat (a + 3) ++ Memory.read .pat s.song.pat (a + 2) ++
          Memory.read .pat s.song.pat (a + 1) ++ Memory.read .pat s.song.pat a) = i →
        step s = andThen (exec i s) fun t => runOn 5 t.advanceRow) ∧
    (s.seq = .row → s.cur.active = false → step s = runOn 5 s.advanceRow) ∧
    (s.seq = .tick →
      Instr.ofEvent (s.cfg.coding.effectOf s.cur.evCmd)
        ⟨s.cur.evNote, s.cur.evSmp, s.cur.evVol, s.cur.evParam⟩ = i →
        step s = andThen (exec i s) fun t => runOn 5 t.advanceTick)

/-- R70, R87, R291: no step changes a byte of the Song, a descriptor, or `cfg`, but for CREATE, which binds the Song
and `cfg` the host presents; and only the loader, while no session exists, changes what is presented. -/
def Obligations.StepsNeverChangeTheSong : Prop :=
  ∀ s t : State, step s = .next t →
    ((t.song = s.song ∧ t.cfg = s.cfg) ∨
      (s.session = .none ∧ t.session = .created ∧ t.song = s.given.song ∧ t.cfg = s.given.cfg)) ∧
    (t.given = s.given ∨
      (s.session ≠ .created ∧ s.session ≠ .started ∧
        ∃ g c, s.ops.head? = some (.load g c) ∧ t.given = ⟨g, c⟩))

/-- R70: no instruction changes what any address of any space reads; R291: CREATE binds the Song it is given, and
every address reads what it reads there. -/
def Obligations.NoInstructionStores : Prop :=
  ∀ (i : Instr) (s t : State) (a : Nat), exec i s = .next t →
    (i ≠ .create →
      Memory.read .ord t.song.ord a = Memory.read .ord s.song.ord a ∧
      Memory.read .pat t.song.pat a = Memory.read .pat s.song.pat a ∧
      Memory.read .wave t.song.wave a = Memory.read .wave s.song.wave a) ∧
    (i = .create →
      Memory.read .ord t.song.ord a = Memory.read .ord s.given.song.ord a ∧
      Memory.read .pat t.song.pat a = Memory.read .pat s.given.song.pat a ∧
      Memory.read .wave t.song.wave a = Memory.read .wave s.given.song.wave a)

/-- R85, R290, R314: two operations never overlap. Inside an operation every operation is refused, whatever its
arguments and the session, and a step reads no request: the host's requests, the Song and what is presented stay. -/
def Obligations.OperationsNeverOverlap : Prop :=
  ∀ s : State, s.seq ≠ .host →
    (exec .create s = .refused .overlap ∧ (∀ r, exec (.start r) s = .refused .overlap) ∧
      (∀ o, exec (.setPosition o) s = .refused .overlap) ∧ exec .queryPosition s = .refused .overlap ∧
      exec .render s = .refused .overlap ∧ exec .destroy s = .refused .overlap) ∧
    (∀ t, step s = .next t →
      t.ops = s.ops ∧ t.given = s.given ∧ t.session = s.session ∧ t.result = s.result ∧ t.fresh = s.fresh)

/-- R290, R89: an operation is one atomic step. Whatever state a step starts from, if it is not refused it leaves the
core between operations; no state in the middle of an operation is the result of a step. -/
def Obligations.EveryStepCompletesItsOperation : Prop :=
  ∀ s t : State, step s = .next t → t.seq = .host

/-- R260, R296, R160, R162, R163, R165, R168: RENDER is the procedure `render()` of the spec with the tick event it
begins, refusals included. -/
def Obligations.RenderIsTheAtomicProcedure : Prop :=
  ∀ s : State, s.cfg.coding.wf = true → s.seq = .host → s.session = .started →
    exec .render s = renderWhole s

/-- R292: START is the procedure of the spec with its priming tick, refusals included; registers R62 leaves unspecified
hold free values (log entry 8). -/
def Obligations.StartIsTheAtomicProcedure : Prop :=
  ∀ (s : State) (rateArg : BitVec 16), s.cfg.coding.wf = true → s.seq = .host →
    s.session = .created ∨ s.session = .started →
      exec (.start rateArg) s = startWhole rateArg s

/-! ### Invariants -/

/-- R60, R225, R198, R164, R54: every step keeps the invariant of the machine, which says of a started session that its
registers are in range and consistent, and of every state that what is bound and presented is legal. -/
def Obligations.StepKeepsTheInvariant : Prop :=
  ∀ s t : State, Inv s → step s = .next t → Inv t

/-- R332: the state after reset meets the invariant (its `cfg` and Song are the model's choice, log entry 4). -/
def Obligations.ResetMeetsTheInvariant : Prop :=
  Inv State.reset ∧ Song.wf State.reset.song ∧ LoopInv State.reset

/-- R62, R332: the state after reset holds the START value of every register; of those R62 leaves unspecified,
`last_note` and `c2spd` are marked as not yet written. That reset is the state START(0) leaves before its priming tick is
log entry 2, its configuration log entry 4. -/
def Obligations.ResetHoldsTheStartValues : Prop :=
  (∀ c : Fin 4,
    State.reset.channel c =
      { evNote := 255, evSmp := 0, evVol := 65, evCmd := 0, evParam := 0, active := true, rowCtr := 0
        lastNote := (State.reset.channel c).lastNote, notePlayed := false, periodCur := 0, periodTgt := 0
        tportaMem := 0, vibMem := 0, vibPhase := 0, tremorCtr := 0, tremorState := false, waveSlot := 0
        c2spd := (State.reset.channel c).c2spd, sampleBound := false, loopStart := 0, loopEnd := 0
        loopEn := false, pos := 0, step := 0, volCur := 0, volInit := 0, volMix := 0 }) ∧
  State.reset.ctx.orderPos = 0 ∧ State.reset.ctx.tickCtr = 0 ∧
  State.reset.ctx.frameCtr = State.reset.ctx.framesPerTick ∧
  State.reset.ctx.tempo = State.reset.cfg.initTempo ∧
  State.reset.ctx.ticksPerRow.toNat = State.reset.cfg.initTempo.toNat / 16 ∧
  State.reset.ctx.framesPerTick.toNat =
    State.reset.ctx.rate.toNat / (tempoDivisor State.reset.cfg State.reset.cfg.initTempo).toNat ∧
  State.reset.ctx.gvol = State.reset.cfg.initGvol ∧ State.reset.ctx.loopCtr = 0 ∧
  State.reset.ctx.orderMark = 0 ∧ State.reset.ctx.rate = State.reset.cfg.defaultRate ∧
  State.reset.ctx.chgPat = true ∧ State.reset.ctx.singleRow = false

/-- R244 with R336 d: under legal descriptors no step takes a channel's loop end past its waveform. -/
def Obligations.StepKeepsLoopsInsideWaveforms : Prop :=
  ∀ s t : State, SamplesLegal s.song → LoopInv s → step s = .next t → LoopInv t

/-! ### Host operations -/

/-- R291: CREATE, where there was no session yet, makes one bound to the Song and `cfg` the host presents, whose
registers are free values (log entry 8); R298: in every other session, a destroyed one included, CREATE is refused
(log entry 9). -/
def Obligations.CreateMakesASession : Prop :=
  ∀ s : State, s.seq = .host →
    (s.session = .none →
      exec .create s =
        .next
          { s with
            song := s.given.song, cfg := s.given.cfg
            session := .created, result := .none, fresh := s.fresh + 1
            chans := Vector.ofFn (Config.freeChannel s.fresh), ctx := Config.freeContext s.fresh }) ∧
    (s.session ≠ .none → exec .create s = .refused .notStarted)

/-- R292, R293, R334: START, in any session, when the initial tempo has a positive divisor. With a first order entry
that names a pattern and a row 0 of empty events it completes in the state of R334: every channel register at its START
value but the row counter (`last_note` and `c2spd` free, log entry 8), the context as listed. Over any Song, if it
completes, the session is started at the rate chosen, row 0 has been played on every channel, and the counters are
loaded for the first tick. -/
def Obligations.StartWritesTheStartValues : Prop :=
  ∀ (s : State) (rateArg : BitVec 16), s.cfg.coding.wf = true → s.seq = .host →
    s.session = .created ∨ s.session = .started → 0 < tempoDivisor s.cfg s.cfg.initTempo →
    (∀ p : BitVec 8, s.song.orderAt 0 = .ok p → p.toNat ≤ 97 → p.toNat < s.song.nPatterns →
      (∀ c : Fin 4, s.song.eventAt (p.setWidth 7) (eventOffset 0 c) = .ok 0x008001FF) →
      ∃ t, exec (.start rateArg) s = .next t ∧
        (∀ c, t.channel c =
          { Channel.start with
            rowCtr := 1, lastNote := (t.channel c).lastNote, c2spd := (t.channel c).c2spd }) ∧
        t.ctx.pattern.toNat = p.toNat ∧ t.ctx.orderPos = 1 ∧ t.ctx.loopCtr = 0 ∧ t.ctx.chgPat = false ∧
        t.ctx.tempo = s.cfg.initTempo ∧ t.ctx.ticksPerRow.toNat = s.cfg.initTempo.toNat / 16 ∧
        t.ctx.framesPerTick.toNat =
          t.ctx.rate.toNat / (tempoDivisor s.cfg s.cfg.initTempo).toNat) ∧
    (∀ t, exec (.start rateArg) s = .next t →
      t.ctx.rate = (if rateArg = 0 then s.cfg.defaultRate else rateArg) ∧
      t.ctx.orderMark = 0 ∧ t.ctx.singleRow = false ∧ t.ctx.gvol = s.cfg.initGvol ∧
      t.ctx.tickCtr.toNat = t.ctx.ticksPerRow.toNat - 1 ∧ t.ctx.frameCtr = t.ctx.framesPerTick ∧
      (∀ c, (t.channel c).rowCtr = 1 ∧ (t.channel c).active = true) ∧
      t.session = .started ∧ t.seq = .host ∧ t.result = .none ∧
      t.song = s.song ∧ t.cfg = s.cfg ∧ t.given = s.given ∧ t.ops = s.ops)

/-- R294: SET_POSITION writes the order position, the mark and the pattern-change flag, and nothing else. -/
def Obligations.SetPositionSeeks : Prop :=
  ∀ (s : State) (order : BitVec 8), s.seq = .host → s.session = .started →
    exec (.setPosition order) s =
      .next
        { s with
          ctx := { s.ctx with orderPos := order, orderMark := order, chgPat := true }
          result := .none }

/-- R295: QUERY_POSITION returns the loop count in the high byte and the order position in the low byte, and
writes no register. The packing is the spec's choice (D24; log entry 21). -/
def Obligations.QueryPacksLoopAndOrder : Prop :=
  ∀ s : State, s.seq = .host → s.session = .started →
    ∃ w : BitVec 16, exec .queryPosition s = .next { s with result := .position w } ∧
      w.toNat = 256 * s.ctx.loopCtr.toNat + s.ctx.orderPos.toNat

/-- R297, R298, R314: DESTROY ends the session and with it the run: afterwards every operation is refused, CREATE
included. That the registers' contents stay is log entry 23. -/
def Obligations.DestroyEndsTheSession : Prop :=
  ∀ s : State, s.seq = .host → s.session = .created ∨ s.session = .started →
    ∃ t, exec .destroy s = .next t ∧ t = { s with session := .ended, result := .none } ∧
      exec .create t = .refused .notStarted ∧
      (∀ r, exec (.start r) t = .refused .notStarted) ∧
      (∀ o, exec (.setPosition o) t = .refused .notStarted) ∧
      exec .queryPosition t = .refused .notStarted ∧ exec .render t = .refused .notStarted ∧
      exec .destroy t = .refused .notStarted

/-- R298, R314: before the first START, SET_POSITION, QUERY_POSITION and RENDER are refused; before CREATE and after
DESTROY so are START and DESTROY; while a session exists and after it CREATE is refused (log entry 9); R120:
operation codes 6 and 7 are always refused. -/
def Obligations.OutOfSequenceIsRefused : Prop :=
  (∀ s : State, s.seq = .host → s.session ≠ .started →
    (∀ o, exec (.setPosition o) s = .refused .notStarted) ∧
    exec .queryPosition s = .refused .notStarted ∧ exec .render s = .refused .notStarted) ∧
  (∀ s : State, s.seq = .host → s.session = .none ∨ s.session = .ended →
    (∀ r, exec (.start r) s = .refused .notStarted) ∧ exec .destroy s = .refused .notStarted) ∧
  (∀ s : State, s.seq = .host → s.session ≠ .none → exec .create s = .refused .notStarted) ∧
  (∀ (s : State) (code : BitVec 3) (arg : BitVec 16) (rest : List Request),
    s.seq = .host → s.ops = .op code arg :: rest → 6 ≤ code.toNat →
      step s = .refused .notStarted)

/-- R320: the host's write of `single_row` or `active[c]` in a started session changes that bit alone, and a write of
any other register is refused; R87: a Song or `cfg` presented while a session exists is refused, and otherwise stands
ready for CREATE (R291; log entry 11). -/
def Obligations.ControlBitsAreHostWritable : Prop :=
  ∀ (s : State) (rest : List Request) (c : Fin 4) (b : Bool) (g : Song) (k : Cfg), s.seq = .host →
    (s.session = .started → s.ops = .setSingleRow b :: rest →
      step s = .next { s with ops := rest, ctx := { s.ctx with singleRow := b } }) ∧
    (s.session = .started → s.ops = .setActive c b :: rest →
      ∃ t, step s = .next t ∧ t.channel c = { s.channel c with active := b } ∧
        (∀ d, d ≠ c → t.channel d = s.channel d) ∧
        t = { s with ops := rest, chans := t.chans }) ∧
    (s.ops = .writeOther :: rest → step s = .refused .badControlWrite) ∧
    (s.session = .created ∨ s.session = .started → s.ops = .load g k :: rest →
      step s = .refused .songMutated) ∧
    (s.session = .none ∨ s.session = .ended → s.ops = .load g k :: rest →
      step s = .next { s with ops := rest, given := ⟨g, k⟩ })

/-! ### Mixer -/

/-- R260 to R265, R296 with R336 d: RENDER with no channel's loop end past its waveform, in the registers. A channel
with `pos[31:16]` at or past its loop end and no loop adds nothing and stays. Every other one reads from `first`, its
own frame, or at or past the loop end the loop start, moves to `first` with its fraction plus the step, and adds the
table entry of the byte there exactly when it has waveform data, `first` is before the loop end and the mix volume is
below 65. The sample is the biased 8-bit sum. Off the frame boundary RENDER completes, and of everything else only the
frame counter changes; at the boundary the tick event of R160 then runs on exactly that state, with the frame counter
reloaded. -/
def Obligations.RenderSumsFourChannels : Prop :=
  ∀ s : State, s.seq = .host → s.session = .started → LoopInv s →
    ∃ (pos : Fin 4 → BitVec 32) (v : Fin 4 → BitVec 8) (mixed : State),
      (∀ (c : Fin 4) (idx frac first : BitVec 16), (s.channel c).pos = idx ++ frac →
        first = (if (s.channel c).loopEnd ≤ idx then (s.channel c).loopStart else idx) →
        ((s.channel c).loopEnd ≤ idx → (s.channel c).loopEn = false →
          pos c = (s.channel c).pos ∧ v c = 0) ∧
        (idx < (s.channel c).loopEnd ∨ (s.channel c).loopEn = true →
          pos c = (first ++ frac) + (s.channel c).step ∧
          v c =
            (if (s.channel c).waveSlot ≠ 0 ∧ (s.song.desc (s.channel c).waveSlot).length ≠ 0 ∧
                first < (s.channel c).loopEnd ∧ (s.channel c).volMix.toNat < 65 then
              volLut (s.channel c).volMix
                (Memory.read .wave s.song.wave (65536 * (s.channel c).waveSlot.toNat + first.toNat))
            else 0))) ∧
      mixed =
        { s with
          chans := Vector.ofFn fun c => { s.channel c with pos := pos c }
          result := .sample (128 + (v 0 + v 1 + v 2 + v 3)) } ∧
      (s.ctx.frameCtr ≠ 1 →
        exec .render s = .next { mixed with ctx := { s.ctx with frameCtr := s.ctx.frameCtr - 1 } }) ∧
      (s.ctx.frameCtr = 1 → s.cfg.coding.wf = true →
        exec .render s =
          tickAdvance
            { mixed with ctx := { s.ctx with frameCtr := s.ctx.framesPerTick }, priming := false }) ∧
      (∀ t, exec .render s = .next t → t.result = mixed.result)

/-- R266, R160, R161, R168: RENDER's frame counter and the three ways of a tick event. Off the boundary the counter is
decremented modulo 65536 and nothing else of the context changes. At 1 it reloads `frames_per_tick`, and: a nonzero
tick counter is decremented, nothing else of the context changing; a zero one under `single_row` leaves the context,
and of a channel only the position moves and the mix volume is recomputed; a zero one otherwise plays a row. -/
def Obligations.RenderCountsFrames : Prop :=
  ∀ s t : State, s.seq = .host → s.session = .started → exec .render s = .next t →
    (s.ctx.frameCtr ≠ 1 → t.ctx = { s.ctx with frameCtr := s.ctx.frameCtr - 1 }) ∧
    (s.ctx.frameCtr = 1 → s.ctx.tickCtr ≠ 0 →
      t.ctx = { s.ctx with frameCtr := s.ctx.framesPerTick, tickCtr := s.ctx.tickCtr - 1 }) ∧
    (s.ctx.frameCtr = 1 → s.ctx.tickCtr = 0 → s.ctx.singleRow = true →
      t.ctx = { s.ctx with frameCtr := s.ctx.framesPerTick } ∧
      ∀ c, t.channel c =
        { s.channel c with
          pos := advancedPos (s.channel c), volMix := mixVolume (s.channel c).volCur s.ctx.gvol }) ∧
    (s.ctx.frameCtr = 1 → s.ctx.tickCtr = 0 → s.ctx.singleRow = false →
      t.ctx.frameCtr = s.ctx.framesPerTick ∧ t.ctx.tickCtr.toNat = t.ctx.ticksPerRow.toNat - 1 ∧
      ∀ c, (t.channel c).rowCtr = (if s.ctx.chgPat then 0 else (s.channel c).rowCtr) + 1)

/-- R261, R262, R263, R274: one channel's turn in the mixer, in the registers. At or past the loop end without a loop
it is silent and keeps its position. Otherwise its integer part becomes `first`, its own frame before the loop end and
exactly the loop start at or past it, its fraction is kept, and the step is added; with waveform data, `first` before
the loop end and a mix volume below 65 it adds the table entry of the byte at `first`, refused where the waveform has
ended (R75), and nothing otherwise. -/
def Obligations.LoopWrapKeepsTheFraction : Prop :=
  ∀ (g : Song) (ch : Channel) (idx frac first : BitVec 16), ch.pos = idx ++ frac →
    first = (if ch.loopEnd ≤ idx then ch.loopStart else idx) →
    ch.wrapLoop.pos = first ++ frac ∧
    (ch.loopEnd ≤ idx → ch.loopEn = false → ch.mix g = .ok (ch, 0)) ∧
    (idx < ch.loopEnd ∨ ch.loopEn = true →
      (ch.waveSlot ≠ 0 → (g.desc ch.waveSlot).length ≠ 0 → first < ch.loopEnd → ch.volMix.toNat < 65 →
        (first < (g.desc ch.waveSlot).length →
          ch.mix g =
            .ok ({ ch with pos := (first ++ frac) + ch.step },
              volLut ch.volMix (Memory.read .wave g.wave (65536 * ch.waveSlot.toNat + first.toNat)))) ∧
        ((g.desc ch.waveSlot).length ≤ first → ch.mix g = .error .waveOutOfRange)) ∧
      (ch.waveSlot = 0 ∨ (g.desc ch.waveSlot).length = 0 ∨ ch.loopEnd ≤ first ∨ 65 ≤ ch.volMix.toNat →
        ch.mix g = .ok ({ ch with pos := (first ++ frac) + ch.step }, 0)))

/-! ### Sequencer -/

/-- R172, R165: `PATTERN n`, where there is such a pattern, restarts the rows at row 0 of pattern `n`, moves the
order position on, and clears the pattern-change flag; channels keep every other register. -/
def Obligations.PatternEntryStartsThePattern : Prop :=
  ∀ (s : State) (n : BitVec 8), n.toNat ≤ 97 → n.toNat < s.song.nPatterns →
    ∃ t, exec (.pattern n) s = .next t ∧
      t.ctx.pattern.toNat = n.toNat ∧ t.ctx.orderPos = s.ctx.orderPos + 1 ∧
      t.ctx = { s.ctx with pattern := t.ctx.pattern, orderPos := t.ctx.orderPos, chgPat := false } ∧
      (∀ c, t.channel c = { s.channel c with rowCtr := 0 }) ∧
      t.seq = .row ∧ t.chan = 0 ∧
      t = { s with ctx := t.ctx, chans := t.chans, seq := t.seq, chan := t.chan }

/-- R173, R174: a sentinel sends the order position to the mark or to 0 and counts a loop modulo 256; R165: met
again at the wrapped position it is refused, as is an entry that names no pattern; R115: a reserved order byte read
by a step is refused. -/
def Obligations.SentinelsWrapTheOrderList : Prop :=
  (∀ s : State, s.seq ≠ .orderAgain →
    exec .endMark s =
      .next { s with
        ctx := { s.ctx with orderPos := s.ctx.orderMark, loopCtr := s.ctx.loopCtr + 1 }, seq := .orderAgain } ∧
    exec .endZero s =
      .next { s with
        ctx := { s.ctx with orderPos := 0, loopCtr := s.ctx.loopCtr + 1 }, seq := .orderAgain }) ∧
  (∀ s : State, s.seq = .orderAgain →
    exec .endMark s = .refused .invalidOrderEntry ∧ exec .endZero s = .refused .invalidOrderEntry) ∧
  (∀ (s : State) (n : BitVec 8), 97 < n.toNat ∨ s.song.nPatterns ≤ n.toNat →
    exec (.pattern n) s = .refused .invalidOrderEntry) ∧
  (∀ (s : State) (b : BitVec 8), s.seq = .order ∨ s.seq = .orderAgain → s.cfg.coding.wf = true →
    s.song.orderAt s.ctx.orderPos = .ok b → 100 ≤ b.toNat → step s = .refused .invalidOrderEntry)

/-- R163, R164, R169: a step that plays a row from channel `chan` on advances the row counter of every channel from
there, active or not, by one, and a counter reaching 64 leaves a pattern change requested. An inactive channel
changes in nothing but its row counter and its mix volume, a channel already served in its mix volume only. -/
def Obligations.RowStepCountsTheRow : Prop :=
  ∀ s t : State, s.seq = .row → step s = .next t → ∀ c,
    (s.chan ≤ c →
      (t.channel c).rowCtr = (s.channel c).rowCtr + 1 ∧
      ((s.channel c).rowCtr = 63 → t.ctx.chgPat = true) ∧
      ((s.channel c).active = false →
        t.channel c =
          { s.channel c with
            rowCtr := (s.channel c).rowCtr + 1
            volMix := mixVolume (s.channel c).volCur s.ctx.gvol })) ∧
    (c < s.chan →
      t.channel c = { s.channel c with volMix := mixVolume (s.channel c).volCur s.ctx.gvol })

/-- R162, R169: inside a row event the channels are served in ascending order, and the step ends it with the tick
counter reloaded from the `ticks_per_row` the row left, less one, or 0. -/
def Obligations.RowEndsWithTheTickReload : Prop :=
  ∀ s t : State, s.seq = .row →
    (turn s = .next t →
      (s.chan.val < 3 → t.seq = .row ∧ t.chan.val = s.chan.val + 1) ∧ (s.chan = 3 → t.seq = .host)) ∧
    (step s = .next t →
      t.ctx.tickCtr.toNat = t.ctx.ticksPerRow.toNat - 1 ∧
      t.ctx.frameCtr = (if s.priming then t.ctx.framesPerTick else s.ctx.frameCtr))

/-- R168: whenever a step runs a tick event, the priming tick of START, the tick event of a RENDER on each of its three
paths (single-row mode included) or the rest of one in progress, every channel's mix volume is afterwards its current
volume times the global volume over 64, at most 64. -/
def Obligations.TickEventsEndWithTheMixRecompute : Prop :=
  ∀ s t : State, Inv s → step s = .next t →
    s.seq ≠ .host ∨ (∃ arg rest, s.ops = .op 1 arg :: rest) ∨
      (s.ctx.frameCtr = 1 ∧ ∃ arg rest, s.ops = .op 4 arg :: rest) →
    ∀ c, (t.channel c).volMix.toNat = (t.channel c).volCur.toNat * t.ctx.gvol.toNat / 64 ∧
      (t.channel c).volMix.toNat ≤ 64

/-! ### Notes -/

/-- R247: a concrete note outside tone portamento sets the last note, both periods, the position and the step. First
as an event carries it, in a row event and under every command but `TONE_PORTA`: the period is that of the reference
frequency bound after the event's own sample field, the volumes are those R241 and R244 give, and what else the note
does not write is as before (without a sample) or as the sample binds it. Then the note byte as an instruction of its
own on the channel being served (log entry 15), which under tone portamento (R242, R243) moves the target period only;
for the event that carries it there see `TonePortaEventOnlyRetargets`. -/
def Obligations.NoteSetsThePitch : Prop :=
  (∀ (s : State) (eff : Effect) (e : EventArgs) (p : BitVec 16), s.seq = .row → eff ≠ .tonePorta →
    e.note.toNat < 254 → e.vol.toNat ≤ 65 →
    (e.smp ≠ 0 → (s.song.desc e.smp).volume.toNat ≤ 64 ∧ (s.song.desc e.smp).length ≠ 0) →
    (e.smp = 0 → s.cur.sampleBound = true) →
    periodOf s.cfg e.note.toNat
      (if e.smp = 0 then s.cur.c2spd else (s.song.desc e.smp).c2spd) = .ok p →
    (eff = .setSpeed → e.param ≠ 0 → 0 < tempoDivisor s.cfg e.param) →
    ∃ t, exec (Instr.ofEvent eff e) s = .next t ∧
      t = { s with ctx := t.ctx, chans := s.chans.set s.chan t.cur } ∧
      (eff ≠ .setSpeed → eff ≠ .posJump → eff ≠ .patBreak → t.ctx = s.ctx) ∧
      Channel.TakesVolumes eff e (s.song.desc e.smp) s.cur t.cur ∧
      t.cur.evNote = e.note ∧ t.cur.lastNote = e.note ∧ t.cur.notePlayed = true ∧
      t.cur.periodCur = p ∧ t.cur.periodTgt = p ∧ t.cur.pos = 0 ∧
      t.cur.step = frequencyStep s.cfg s.ctx.rate p ∧
      (e.smp = 0 →
        t.cur.waveSlot = s.cur.waveSlot ∧ t.cur.c2spd = s.cur.c2spd ∧ t.cur.sampleBound = s.cur.sampleBound ∧
        t.cur.loopStart = s.cur.loopStart ∧ t.cur.loopEnd = s.cur.loopEnd ∧
        t.cur.loopEn = s.cur.loopEn) ∧
      (e.smp ≠ 0 → t.cur.BoundTo e.smp (s.song.desc e.smp))) ∧
  (∀ (s : State) (b : BitVec 8) (p : BitVec 16),
    s.cfg.coding.effectOf s.cur.evCmd ≠ .tonePorta →
    b.toNat % 16 ≤ 11 → b.toNat / 16 < s.cfg.nOctaves → s.cur.sampleBound = true →
    notePeriodAt s.cfg (ptab s.cfg (b.toNat / 16) (b.toNat % 16)) s.cur.c2spd = some p →
    exec (.note b) s =
      .next (s.setCur
        { s.cur with
          lastNote := b, notePlayed := true, periodCur := p, periodTgt := p, pos := 0
          step := frequencyStep s.cfg s.ctx.rate p })) ∧
  (∀ (s : State) (b : BitVec 8) (p : BitVec 16),
    s.cfg.coding.effectOf s.cur.evCmd = .tonePorta →
    b.toNat % 16 ≤ 11 → b.toNat / 16 < s.cfg.nOctaves → s.cur.sampleBound = true →
    notePeriodAt s.cfg (ptab s.cfg (b.toNat / 16) (b.toNat % 16)) s.cur.c2spd = some p →
    exec (.note b) s = .next (s.setCur { s.cur with periodTgt := p }))

/-- R21, R314, R336 e and f: no event of any command, in a row event or on a tick, depends on a `c2spd` or `last_note`
that no rule has written: with other contents there it is refused alike, or leads to the same state with those
contents, unless it writes them. An event that breaks the loader's contract, a note before any sample or an arpeggio
before any note, has no successor. What an event has bound or played stays so marked. -/
def Obligations.UnwrittenRegistersAreNotRead : Prop :=
  ∀ (s : State) (eff : Effect) (e : EventArgs) (x : BitVec 16) (n : BitVec 8),
    exec (Instr.ofEvent eff e) (s.setCur (s.cur.withUnwritten x n)) =
      andThen (exec (Instr.ofEvent eff e) s) (fun t => .next (t.setCur (t.cur.withUnwritten x n))) ∧
    (¬ s.PlaysBound eff e → ∃ r, exec (Instr.ofEvent eff e) s = .refused r) ∧
    (∀ t, exec (Instr.ofEvent eff e) s = .next t →
      (s.cur.sampleBound = true → t.cur.sampleBound = true) ∧ (s.cur.notePlayed = true → t.cur.notePlayed = true))

/-- R246: a note cut empties the loop and rewinds the position; R248: no note leaves the oscillator. First as an event
carries it, in a row event and under every command but `TONE_PORTA`, after the event's own sample field, the volumes
being those R241 and R244 give. Then as instructions of their own on the channel being served, where the cut under
`TONE_PORTA` does nothing (R242; log entry 15). -/
def Obligations.NoteCutSilencesTheChannel : Prop :=
  (∀ (s : State) (eff : Effect) (e : EventArgs), s.seq = .row → eff ≠ .tonePorta →
    e.note = 254 ∨ e.note = 255 → e.vol.toNat ≤ 65 →
    (e.smp ≠ 0 → (s.song.desc e.smp).volume.toNat ≤ 64 ∧ (s.song.desc e.smp).length ≠ 0) →
    (eff = .setSpeed → e.param ≠ 0 → 0 < tempoDivisor s.cfg e.param) →
    ∃ t, exec (Instr.ofEvent eff e) s = .next t ∧
      t = { s with ctx := t.ctx, chans := s.chans.set s.chan t.cur } ∧
      (eff ≠ .setSpeed → eff ≠ .posJump → eff ≠ .patBreak → t.ctx = s.ctx) ∧
      Channel.TakesVolumes eff e (s.song.desc e.smp) s.cur t.cur ∧
      (e.note = 254 →
        t.cur.pos = 0 ∧ t.cur.loopEn = false ∧ t.cur.loopStart = 0 ∧ t.cur.loopEnd = 0) ∧
      (e.note = 255 → t.cur.pos = s.cur.pos) ∧
      (e.note = 255 → e.smp = 0 →
        t.cur.loopStart = s.cur.loopStart ∧ t.cur.loopEnd = s.cur.loopEnd ∧
        t.cur.loopEn = s.cur.loopEn) ∧
      t.cur.evNote = e.note ∧ t.cur.periodCur = s.cur.periodCur ∧ t.cur.periodTgt = s.cur.periodTgt ∧
      t.cur.step = s.cur.step ∧ t.cur.lastNote = s.cur.lastNote ∧
      t.cur.notePlayed = s.cur.notePlayed ∧
      t.cur.waveSlot = (if e.smp = 0 then s.cur.waveSlot else e.smp) ∧
      t.cur.c2spd = (if e.smp = 0 then s.cur.c2spd else (s.song.desc e.smp).c2spd)) ∧
  (∀ s : State,
    (s.cfg.coding.effectOf s.cur.evCmd ≠ .tonePorta →
      exec .noteCut s =
        .next (s.setCur { s.cur with pos := 0, loopEn := false, loopStart := 0, loopEnd := 0 })) ∧
    (s.cfg.coding.effectOf s.cur.evCmd = .tonePorta →
      ∃ t, exec .noteCut s = .next t ∧ (∀ c, t.channel c = s.channel c) ∧
        t = { s with chans := t.chans }) ∧
    exec .noNote s = .next s)

/-- R113, R144, R314: a concrete note, a byte below 254, that is not valid is refused, and so is a valid one where no
sample was ever bound, or under a reference frequency at which `cfg.NOTE_PERIOD` is undefined for it. First as an
event of any command carries it, in a row event: outside `TONE_PORTA` the event's own sample is the one bound, under
`TONE_PORTA` (R243) it is not. Then the note byte as an instruction of its own (log entry 15). -/
def Obligations.UnplayableNotesAreRefused : Prop :=
  (∀ (s : State) (eff : Effect) (e : EventArgs), s.seq = .row → e.note.toNat < 254 → e.vol.toNat ≤ 65 →
    (eff ≠ .tonePorta → e.smp ≠ 0 →
      (s.song.desc e.smp).volume.toNat ≤ 64 ∧ (s.song.desc e.smp).length ≠ 0) →
    (11 < e.note.toNat % 16 ∨ s.cfg.nOctaves ≤ e.note.toNat / 16 →
      exec (Instr.ofEvent eff e) s = .refused .invalidNote) ∧
    (e.note.toNat % 16 ≤ 11 → e.note.toNat / 16 < s.cfg.nOctaves →
      e.smp = 0 ∨ eff = .tonePorta →
        s.cur.sampleBound = false ∨
          notePeriodAt s.cfg (ptab s.cfg (e.note.toNat / 16) (e.note.toNat % 16)) s.cur.c2spd = none →
        exec (Instr.ofEvent eff e) s = .refused .unboundSample) ∧
    (e.note.toNat % 16 ≤ 11 → e.note.toNat / 16 < s.cfg.nOctaves → e.smp ≠ 0 → eff ≠ .tonePorta →
      notePeriodAt s.cfg (ptab s.cfg (e.note.toNat / 16) (e.note.toNat % 16))
        (s.song.desc e.smp).c2spd = none →
      exec (Instr.ofEvent eff e) s = .refused .unboundSample)) ∧
  (∀ (s : State) (b : BitVec 8), b.toNat < 254 →
    (11 < b.toNat % 16 ∨ s.cfg.nOctaves ≤ b.toNat / 16 → exec (.note b) s = .refused .invalidNote) ∧
    (b.toNat % 16 ≤ 11 → b.toNat / 16 < s.cfg.nOctaves →
      s.cur.sampleBound = false ∨
        notePeriodAt s.cfg (ptab s.cfg (b.toNat / 16) (b.toNat % 16)) s.cur.c2spd = none →
      exec (.note b) s = .refused .unboundSample))

/-! ### Events in a row event -/

/-- R114, R240: in a row event every one of the sixteen commands refuses a volume above 65. -/
def Obligations.VolumeAbove65IsRefused : Prop :=
  ∀ (s : State) (eff : Effect) (e : EventArgs), s.seq = .row → 65 < e.vol.toNat →
    exec (Instr.ofEvent eff e) s = .refused .invalidVolume

/-- R241 (with R248, R198): an event of any command with an explicit volume and neither sample nor note sets both
volumes. Under every command but `TREMOR` nothing else of the channel changes but the latched event and the
continuation state; `TREMOR` then runs its own move from the new initial volume (R196, R213). Only `SET_SPEED`,
`POS_JUMP` and `PAT_BREAK` write the context. -/
def Obligations.ExplicitVolumeSetsBothVolumes : Prop :=
  ∀ (s : State) (eff : Effect) (e : EventArgs), s.seq = .row →
    e.note = 255 → e.smp = 0 → e.vol.toNat ≤ 64 →
    (eff = .setSpeed → e.param ≠ 0 → 0 < tempoDivisor s.cfg e.param) →
    ∃ t, exec (Instr.ofEvent eff e) s = .next t ∧
      t = { s with ctx := t.ctx, chans := s.chans.set s.chan t.cur } ∧
      (eff ≠ .setSpeed → eff ≠ .posJump → eff ≠ .patBreak → t.ctx = s.ctx) ∧
      (eff ≠ .tremor →
        t.cur =
          Channel.continuationReset eff
            { s.cur with
              evNote := 255, evSmp := 0, evVol := e.vol, evCmd := s.cfg.coding.codeOf eff
              evParam := e.param, volCur := e.vol, volInit := e.vol }) ∧
      (eff = .tremor →
        t.cur.volInit = e.vol ∧
        t.cur.volCur = (if s.cur.tremorCtr = 0 ∧ s.cur.tremorState = true then 0 else e.vol) ∧
        t.cur =
          { s.cur with
            evNote := 255, evSmp := 0, evVol := e.vol, evCmd := s.cfg.coding.codeOf eff
            evParam := e.param, volCur := t.cur.volCur, volInit := e.vol
            tremorCtr := t.cur.tremorCtr, tremorState := t.cur.tremorState, vibPhase := 0 })

/-- R244: in a row event an event of any command but `TONE_PORTA` with a sample, no note and any legal volume binds the
sample: slot, reference frequency and loop bounds; both volumes are the base volume, or the explicit volume of the same
event if it has one (`TREMOR` then makes its move, R196). Position, step and periods run on, and only `SET_SPEED`,
`POS_JUMP` and `PAT_BREAK` write the context. -/
def Obligations.SampleFieldBindsTheSample : Prop :=
  ∀ (s : State) (eff : Effect) (e : EventArgs), s.seq = .row → eff ≠ .tonePorta →
    e.note = 255 → e.vol.toNat ≤ 65 → e.smp ≠ 0 →
    (s.song.desc e.smp).volume.toNat ≤ 64 → (s.song.desc e.smp).length ≠ 0 →
    (eff = .setSpeed → e.param ≠ 0 → 0 < tempoDivisor s.cfg e.param) →
    ∃ t, exec (Instr.ofEvent eff e) s = .next t ∧
      t = { s with ctx := t.ctx, chans := s.chans.set s.chan t.cur } ∧
      (eff ≠ .setSpeed → eff ≠ .posJump → eff ≠ .patBreak → t.ctx = s.ctx) ∧
      t.cur.BoundTo e.smp (s.song.desc e.smp) ∧
      t.cur.volInit = (if e.vol = 65 then (s.song.desc e.smp).volume else e.vol) ∧
      t.cur.volCur =
        (if eff = .tremor ∧ s.cur.tremorCtr = 0 ∧ s.cur.tremorState = true then 0 else t.cur.volInit) ∧
      t.cur.pos = s.cur.pos ∧ t.cur.step = s.cur.step ∧ t.cur.periodCur = s.cur.periodCur ∧
      t.cur.periodTgt = s.cur.periodTgt ∧ t.cur.volMix = s.cur.volMix ∧
      t.cur.lastNote = s.cur.lastNote ∧ t.cur.notePlayed = s.cur.notePlayed ∧
      t.cur.tportaMem = s.cur.tportaMem ∧ t.cur.vibMem = s.cur.vibMem ∧
      t.cur.active = s.cur.active ∧ t.cur.rowCtr = s.cur.rowCtr

/-- R245, R246, R244: an event of any command but `TONE_PORTA` that binds a sample without waveform data cuts the channel
whatever its note byte: no note of it needs a period. The reference frequency and the volumes are bound all the
same. -/
def Obligations.EmptySampleForcesTheCut : Prop :=
  ∀ (s t : State) (eff : Effect) (e : EventArgs), s.seq = .row → eff ≠ .tonePorta → e.smp ≠ 0 →
    (s.song.desc e.smp).length = 0 → exec (Instr.ofEvent eff e) s = .next t →
    Channel.TakesVolumes eff e (s.song.desc e.smp) s.cur t.cur ∧
    t.cur.c2spd = (s.song.desc e.smp).c2spd ∧ t.cur.sampleBound = true ∧
    t.cur.evNote = 254 ∧ t.cur.waveSlot = e.smp ∧ t.cur.pos = 0 ∧ t.cur.loopEn = false ∧
    t.cur.loopStart = 0 ∧ t.cur.loopEnd = 0 ∧ t.cur.periodCur = s.cur.periodCur ∧
    t.cur.periodTgt = s.cur.periodTgt ∧ t.cur.lastNote = s.cur.lastNote

/-- R240 to R249 with R336 c, d, e: in a row event every command's event whose fields are legal runs to a next
state, changing only the channel being served and, for `SET_SPEED`, `POS_JUMP` and `PAT_BREAK`, the context; a
`SET_SPEED` with a nonzero parameter needs a positive divisor (R147). -/
def Obligations.LegalEventsTrigger : Prop :=
  ∀ (s : State) (eff : Effect) (e : EventArgs), s.seq = .row →
    TriggerLegal s.cfg s.song (decide (eff = .tonePorta)) (s.cur.latch (s.cfg.coding.codeOf eff) e) →
    (eff = .setSpeed → e.param ≠ 0 → 0 < tempoDivisor s.cfg e.param) →
    ∃ t, exec (Instr.ofEvent eff e) s = .next t ∧
      t = { s with ctx := t.ctx, chans := s.chans.set s.chan t.cur } ∧
      (eff ≠ .setSpeed → eff ≠ .posJump → eff ≠ .patBreak → t.ctx = s.ctx) ∧
      t.cur.evNote.toNat = (if (decide (eff = .tonePorta)) = false ∧ e.smp ≠ 0 ∧
        (s.song.desc e.smp).length = 0 then 254 else e.note.toNat) ∧
      t.cur.evSmp = e.smp ∧ t.cur.evVol = e.vol ∧ t.cur.evParam = e.param ∧
      t.cur.evCmd = s.cfg.coding.codeOf eff

/-- R190, R192, R147: a `SET_SPEED` event whose fields trigger, whatever they hold. A nonzero parameter with a positive
divisor sets the tempo, the ticks for each row and the frames for each tick; a zero one changes nothing of the context.
Beside it the served channel alone changes, in an otherwise empty event only by the latch and the continuation
reset. -/
def Obligations.SetSpeedSetsTheTempo : Prop :=
  ∀ (s : State) (e : EventArgs) (m : Nat), s.seq = .row →
    TriggerLegal s.cfg s.song false (s.cur.latch (s.cfg.coding.codeOf .setSpeed) e) →
    (e.param ≠ 0 → s.cfg.tempoTable[(e.param >>> 4).toNat]? = some (BitVec.ofNat 16 m) ∧ m < 65536 ∧
      m * (e.param.toNat % 16) / 16 < 50) →
    ∃ t, exec (.setSpeed e) s = .next t ∧
      t = { s with ctx := t.ctx, chans := s.chans.set s.chan t.cur } ∧
      (e.param = 0 → t.ctx = s.ctx) ∧
      (e.param ≠ 0 →
        t.ctx =
          { s.ctx with
            tempo := e.param
            ticksPerRow := t.ctx.ticksPerRow, framesPerTick := t.ctx.framesPerTick } ∧
        t.ctx.ticksPerRow.toNat = e.param.toNat / 16 ∧
        t.ctx.framesPerTick.toNat = s.ctx.rate.toNat / (50 - m * (e.param.toNat % 16) / 16)) ∧
      (e.note = 255 → e.smp = 0 → e.vol = 65 →
        t.cur = Channel.continuationReset .setSpeed (s.cur.latch (s.cfg.coding.codeOf .setSpeed) e))

/-- R190, R193, R194: a `POS_JUMP` event whose fields trigger, whatever they hold, sets the order position and nothing
else of the context, a `PAT_BREAK` event the pattern-change flag and nothing else of it. Beside it the served channel
alone changes, in an otherwise empty event only by the latch and the continuation reset. -/
def Obligations.JumpAndBreakWriteOneRegister : Prop :=
  ∀ (s : State) (e : EventArgs), s.seq = .row →
    (TriggerLegal s.cfg s.song false (s.cur.latch (s.cfg.coding.codeOf .posJump) e) →
      ∃ t, exec (.posJump e) s = .next t ∧
        t = { s with
          ctx := { s.ctx with orderPos := e.param }, chans := s.chans.set s.chan t.cur } ∧
        (e.note = 255 → e.smp = 0 → e.vol = 65 →
          t.cur = Channel.continuationReset .posJump (s.cur.latch (s.cfg.coding.codeOf .posJump) e))) ∧
    (TriggerLegal s.cfg s.song false (s.cur.latch (s.cfg.coding.codeOf .patBreak) e) →
      ∃ t, exec (.patBreak e) s = .next t ∧
        t = { s with ctx := { s.ctx with chgPat := true }, chans := s.chans.set s.chan t.cur } ∧
        (e.note = 255 → e.smp = 0 → e.vol = 65 →
          t.cur = Channel.continuationReset .patBreak (s.cur.latch (s.cfg.coding.codeOf .patBreak) e)))

/-- R191, R195, R198: an otherwise empty event of `NONE`, `RSV13`, `RSV14` or `RSV15` latches itself and runs the
continuation reset, and nothing else. -/
def Obligations.NoneAndReservedOnlyReset : Prop :=
  ∀ (s : State) (e : EventArgs), s.seq = .row → e.note = 255 → e.smp = 0 → e.vol = 65 →
    (∀ eff ∈ [Effect.noEffect, .rsv13, .rsv14, .rsv15],
      exec (Instr.ofEvent eff e) s =
        .next (s.setCur
          { s.cur with
            evNote := 255, evSmp := 0, evVol := 65, evCmd := s.cfg.coding.codeOf eff, evParam := e.param
            tremorCtr := 0, tremorState := false, vibPhase := 0 }))

/-- R197, R251: in a row event no event writes a parameter memory, the mix volume, the row counter or the active bit of
its channel, nor any register of another channel. R198: its continuation reset leaves tremor idle under every command
but `TREMOR`, and the vibrato phase 0 under every command but `VIBRATO` and `VOLSLIDE_VIB`, which keep it. -/
def Obligations.RowEventsKeepEffectMemory : Prop :=
  ∀ (s t : State) (eff : Effect) (e : EventArgs), s.seq = .row →
    exec (Instr.ofEvent eff e) s = .next t →
    t.cur.tportaMem = s.cur.tportaMem ∧ t.cur.vibMem = s.cur.vibMem ∧ t.cur.volMix = s.cur.volMix ∧
    t.cur.rowCtr = s.cur.rowCtr ∧ t.cur.active = s.cur.active ∧
    (∀ d, d ≠ s.chan → t.channel d = s.channel d) ∧ t.chan = s.chan ∧ t.seq = s.seq ∧
    t.ctx.gvol = s.ctx.gvol ∧ t.ctx.rate = s.ctx.rate ∧ t.ctx.tickCtr = s.ctx.tickCtr ∧
    t.ctx.frameCtr = s.ctx.frameCtr ∧ t.ctx.pattern = s.ctx.pattern ∧
    (eff ≠ .tremor → t.cur.tremorCtr = 0 ∧ t.cur.tremorState = false) ∧
    t.cur.vibPhase = (if eff = .vibrato ∨ eff = .volslideVib then s.cur.vibPhase else 0)

/-- R242, R243, R250: a `TONE_PORTA` event. A concrete note, played under the reference frequency bound before it, moves
the target period, and a note cut is not performed. Without a sample field, or where `cfg.TPORTA_REBINDS_SAMPLE` is
false, only that, the explicit volume and the latched event with its continuation state are written. Where it is true a
sample field is bound after the target, with its base volume if the event has no explicit one, an empty sample forcing
no cut. Position, step, period and last note are written in no case. -/
def Obligations.TonePortaEventOnlyRetargets : Prop :=
  ∀ (s : State) (e : EventArgs) (tgt : BitVec 16), s.seq = .row → e.vol.toNat ≤ 65 →
    (e.note.toNat < 254 → s.cur.sampleBound = true ∧ periodOf s.cfg e.note.toNat s.cur.c2spd = .ok tgt) →
    (254 ≤ e.note.toNat → tgt = s.cur.periodTgt) →
    (e.smp = 0 ∨ s.cfg.tportaRebindsSample = false →
      exec (.tonePorta e) s =
        .next (s.setCur
          { Channel.continuationReset .tonePorta (s.cur.latch (s.cfg.coding.codeOf .tonePorta) e) with
            periodTgt := tgt
            volCur := if e.vol = 65 then s.cur.volCur else e.vol
            volInit := if e.vol = 65 then s.cur.volInit else e.vol })) ∧
    (e.smp ≠ 0 → s.cfg.tportaRebindsSample = true → (s.song.desc e.smp).volume.toNat ≤ 64 →
      ∃ t, exec (.tonePorta e) s = .next t ∧ t = s.setCur t.cur ∧
        t.cur.BoundTo e.smp (s.song.desc e.smp) ∧ t.cur.periodTgt = tgt ∧
        t.cur.volInit = (if e.vol = 65 then (s.song.desc e.smp).volume else e.vol) ∧
        t.cur.volCur = t.cur.volInit ∧ t.cur.evNote = e.note ∧
        t.cur.pos = s.cur.pos ∧ t.cur.step = s.cur.step ∧ t.cur.periodCur = s.cur.periodCur ∧
        t.cur.lastNote = s.cur.lastNote ∧ t.cur.notePlayed = s.cur.notePlayed)

/-! ### Events in a per-tick event -/

/-- R220, R221: `VOL_SLIDE` on a tick slides the current volume down by a nonzero low nibble, else up by the high
nibble, within 0..64, and changes nothing else but the continuation state. -/
def Obligations.VolSlideSlidesTheVolume : Prop :=
  ∀ (s : State) (e : EventArgs), s.seq = .tick →
    ∃ v : BitVec 7,
      exec (.volSlide e) s =
        .next (s.setCur { Channel.continuationReset .volSlide s.cur with volCur := v }) ∧
      v.toNat =
        (if s.cur.evParam.toNat % 16 ≠ 0 then s.cur.volCur.toNat - s.cur.evParam.toNat % 16
         else min (s.cur.volCur.toNat + s.cur.evParam.toNat / 16) 64) ∧
      (s.cur.volCur.toNat ≤ 64 → v.toNat ≤ 64)

/-- R218, R219: portamento up and down on a tick move the current period by the multiplier times the parameter,
modulo 65536, recompute the step, and change nothing else but the continuation state. -/
def Obligations.PortamentoWrapsThePeriod : Prop :=
  ∀ (s : State) (e : EventArgs), s.seq = .tick →
    (∃ p : BitVec 16,
      exec (.portaUp e) s =
        .next (s.setCur
          { Channel.continuationReset .portaUp s.cur with
            periodCur := p, step := frequencyStep s.cfg s.ctx.rate p }) ∧
      (p.toNat : Int) =
        ((s.cur.periodCur.toNat : Int) - (s.cfg.portaMult * s.cur.evParam.toNat : Nat)) % 65536) ∧
    (∃ p : BitVec 16,
      exec (.portaDown e) s =
        .next (s.setCur
          { Channel.continuationReset .portaDown s.cur with
            periodCur := p, step := frequencyStep s.cfg s.ctx.rate p }) ∧
      p.toNat = (s.cur.periodCur.toNat + s.cfg.portaMult * s.cur.evParam.toNat) % 65536)

/-- R214, R215: tone portamento on a tick moves the current period toward the target by the multiplier times the
parameter (or the remembered one), never past the target. -/
def Obligations.TonePortaSlidesToTheTarget : Prop :=
  ∀ (s : State) (e : EventArgs), s.seq = .tick →
    ∃ (q : BitVec 8) (p : BitVec 16),
      exec (.tonePorta e) s =
        .next (s.setCur
          { Channel.continuationReset .tonePorta s.cur with
            tportaMem := q, periodCur := p, step := frequencyStep s.cfg s.ctx.rate p }) ∧
      q = (if s.cur.evParam ≠ 0 then s.cur.evParam else s.cur.tportaMem) ∧
      (s.cur.periodCur.toNat < s.cur.periodTgt.toNat →
        p.toNat = min (s.cur.periodCur.toNat + s.cfg.tportaMult * q.toNat) s.cur.periodTgt.toNat) ∧
      (s.cur.periodTgt.toNat < s.cur.periodCur.toNat →
        (p.toNat : Int) =
          max ((s.cur.periodCur.toNat : Int) - (s.cfg.tportaMult * q.toNat : Nat))
            s.cur.periodTgt.toNat) ∧
      (s.cur.periodCur = s.cur.periodTgt → p = s.cur.periodCur)

/-- R216, R217: vibrato on a tick sets the current period to the target plus `cfg.VIB_SCALE` of the table entry at half
the phase and the low nibble, modulo 65536, then advances the phase by twice the high nibble, masked with 0x7E. Index,
order and scaling are the spec's choices (D10; log entry 21). -/
def Obligations.VibratoSwingsAroundTheTarget : Prop :=
  ∀ (s : State) (e : EventArgs), s.seq = .tick →
    ∃ (q : BitVec 8) (p : BitVec 16) (ph : BitVec 7) (l off : Int),
      exec (.vibrato e) s =
        .next (s.setCur
          { Channel.continuationReset .vibrato s.cur with
            vibMem := q, vibPhase := ph, periodCur := p, step := frequencyStep s.cfg s.ctx.rate p }) ∧
      q = (if s.cur.evParam ≠ 0 then s.cur.evParam else s.cur.vibMem) ∧
      s.cfg.lfo[s.cur.vibPhase.toNat / 2]? = some l ∧ VibScales s.cfg l (q.toNat % 16) off ∧
      (p.toNat : Int) = ((s.cur.periodTgt.toNat : Int) + off) % 65536 ∧
      ph.toNat = (s.cur.vibPhase.toNat + 2 * (q.toNat / 16)) &&& 0x7E

/-- R212, R213: tremor on a tick. At counter 0 the audible phase ends in silence with the off-count of the low nibble,
and the silent (or idle) phase ends in the initial volume with the on-count of the high nibble; otherwise the
counter is decremented. Beside the nibbles these moves are the spec's choice (D14; log entry 21). -/
def Obligations.TremorTogglesOnItsCounter : Prop :=
  ∀ (s : State) (e : EventArgs), s.seq = .tick →
    ∃ n : BitVec 4,
      (s.cur.tremorCtr ≠ 0 →
        exec (.tremor e) s =
          .next (s.setCur { s.cur with tremorCtr := n, vibPhase := 0 }) ∧
        n.toNat + 1 = s.cur.tremorCtr.toNat) ∧
      (s.cur.tremorCtr = 0 → s.cur.tremorState = true →
        exec (.tremor e) s =
          .next (s.setCur { s.cur with tremorCtr := n, tremorState := false, volCur := 0, vibPhase := 0 }) ∧
        n.toNat = s.cur.evParam.toNat % 16) ∧
      (s.cur.tremorCtr = 0 → s.cur.tremorState = false →
        exec (.tremor e) s =
          .next (s.setCur
            { s.cur with tremorCtr := n, tremorState := true, volCur := s.cur.volInit, vibPhase := 0 }) ∧
        n.toNat = s.cur.evParam.toNat / 16)

/-- R190, R196, R213: a `TREMOR` event whose fields trigger, whatever they hold, runs `do_tremor` at once in its row
event, with the event's own parameter: a running counter is decremented, at 0 the audible phase ends in silence, and the
silent or idle phase in the initial volume the event leaves. Only the served channel changes, in an otherwise empty
event only by the latch and this move. Beside the nibbles these moves are the spec's choice (D14; log entry 21). -/
def Obligations.TremorRunsOnTheTriggeringTick : Prop :=
  ∀ (s : State) (e : EventArgs), s.seq = .row →
    TriggerLegal s.cfg s.song false (s.cur.latch (s.cfg.coding.codeOf .tremor) e) →
    ∃ t, exec (.tremor e) s = .next t ∧ t = { s with chans := s.chans.set s.chan t.cur } ∧
      t.cur.vibPhase = 0 ∧
      (s.cur.tremorCtr ≠ 0 →
        t.cur.tremorCtr.toNat + 1 = s.cur.tremorCtr.toNat ∧ t.cur.tremorState = s.cur.tremorState) ∧
      (s.cur.tremorCtr = 0 → s.cur.tremorState = true →
        t.cur.tremorCtr.toNat = e.param.toNat % 16 ∧ t.cur.tremorState = false ∧ t.cur.volCur = 0) ∧
      (s.cur.tremorCtr = 0 → s.cur.tremorState = false →
        t.cur.tremorCtr.toNat = e.param.toNat / 16 ∧ t.cur.tremorState = true ∧
        t.cur.volCur = t.cur.volInit) ∧
      (e.note = 255 → e.smp = 0 → e.vol = 65 →
        t.cur =
          { s.cur.latch (s.cfg.coding.codeOf .tremor) e with
            tremorCtr := t.cur.tremorCtr, tremorState := t.cur.tremorState, vibPhase := 0
            volCur := t.cur.volCur } ∧
        (s.cur.tremorCtr ≠ 0 → t.cur.volCur = s.cur.volCur))

/-- R211: arpeggio on a tick, with a note played, a sample bound, a semitone sum below 24 and a period for the note it
resolves to: the offset is none, the high or the low nibble as the tick counter modulo 3 is 2, 1 or 0, and one carry
goes into the octave; only the current period and the step change. -/
def Obligations.ArpeggioResolvesTheNote : Prop :=
  ∀ (s : State) (e : EventArgs) (k o n : Nat) (p : BitVec 16), s.seq = .tick →
    k = (if s.ctx.tickCtr.toNat % 3 = 2 then 0
         else if s.ctx.tickCtr.toNat % 3 = 1 then s.cur.evParam.toNat / 16
         else s.cur.evParam.toNat % 16) →
    n < 12 →
    (s.cur.lastNote.toNat % 16 + k < 12 →
      n = s.cur.lastNote.toNat % 16 + k ∧ o = s.cur.lastNote.toNat / 16) →
    (12 ≤ s.cur.lastNote.toNat % 16 + k →
      n + 12 = s.cur.lastNote.toNat % 16 + k ∧ o = s.cur.lastNote.toNat / 16 + 1) →
    s.cur.notePlayed = true → s.cur.sampleBound = true →
    periodOf s.cfg (16 * o + n) s.cur.c2spd = .ok p →
    exec (.arpeggio e) s =
      .next (s.setCur
        { Channel.continuationReset .arpeggio s.cur with
          periodCur := p, step := frequencyStep s.cfg s.ctx.rate p })

/-- R211, R144, R314: arpeggio on a tick is refused where no note was ever played, at a semitone sum of 24 or more, where
the note it resolves to lies in an octave at or beyond `cfg.N_OCTAVES` (a carried octave included), and where no sample
was ever bound or `cfg.NOTE_PERIOD` is undefined for that note at the reference frequency. -/
def Obligations.ArpeggioRefusals : Prop :=
  ∀ (s : State) (e : EventArgs), s.seq = .tick →
    (s.cur.notePlayed = false → exec (.arpeggio e) s = .refused .noLastNote) ∧
    (∀ k o : Nat, s.cur.notePlayed = true →
      k = (if s.ctx.tickCtr.toNat % 3 = 2 then 0
           else if s.ctx.tickCtr.toNat % 3 = 1 then s.cur.evParam.toNat / 16
           else s.cur.evParam.toNat % 16) →
      o = s.cur.lastNote.toNat / 16 + (s.cur.lastNote.toNat % 16 + k) / 12 →
      (24 ≤ s.cur.lastNote.toNat % 16 + k → exec (.arpeggio e) s = .refused .arpeggioRange) ∧
      (s.cur.lastNote.toNat % 16 + k < 24 → s.cfg.nOctaves ≤ o →
        exec (.arpeggio e) s = .refused .invalidNote) ∧
      (s.cur.lastNote.toNat % 16 + k < 24 → o < s.cfg.nOctaves →
        s.cur.sampleBound = false ∨
          notePeriodAt s.cfg (ptab s.cfg o ((s.cur.lastNote.toNat % 16 + k) % 12)) s.cur.c2spd = none →
        exec (.arpeggio e) s = .refused .unboundSample))

/-- R222, R223: the combined commands on a tick slide the volume by the event's parameter and go on with tone
portamento or vibrato from that effect's own memory, which they keep. -/
def Obligations.CombinedSlidesKeepTheirMemory : Prop :=
  ∀ (s : State) (e : EventArgs), s.seq = .tick →
    ∃ v : BitVec 7,
      v.toNat =
        (if s.cur.evParam.toNat % 16 ≠ 0 then s.cur.volCur.toNat - s.cur.evParam.toNat % 16
         else min (s.cur.volCur.toNat + s.cur.evParam.toNat / 16) 64) ∧
      (∃ p : BitVec 16,
        exec (.volslideTporta e) s =
          .next (s.setCur
            { Channel.continuationReset .volslideTporta s.cur with
              volCur := v, periodCur := p, step := frequencyStep s.cfg s.ctx.rate p }) ∧
        (s.cur.periodCur.toNat < s.cur.periodTgt.toNat →
          p.toNat = min (s.cur.periodCur.toNat + s.cfg.tportaMult * s.cur.tportaMem.toNat)
            s.cur.periodTgt.toNat) ∧
        (s.cur.periodTgt.toNat ≤ s.cur.periodCur.toNat →
          (p.toNat : Int) =
            max ((s.cur.periodCur.toNat : Int) - (s.cfg.tportaMult * s.cur.tportaMem.toNat : Nat))
              s.cur.periodTgt.toNat)) ∧
      (∃ (p : BitVec 16) (ph : BitVec 7) (l off : Int),
        exec (.volslideVib e) s =
          .next (s.setCur
            { Channel.continuationReset .volslideVib s.cur with
              volCur := v, vibPhase := ph, periodCur := p
              step := frequencyStep s.cfg s.ctx.rate p }) ∧
        s.cfg.lfo[s.cur.vibPhase.toNat / 2]? = some l ∧ VibScales s.cfg l (s.cur.vibMem.toNat % 16) off ∧
        (p.toNat : Int) = ((s.cur.periodTgt.toNat : Int) + off) % 65536 ∧
        ph.toNat = (s.cur.vibPhase.toNat + 2 * (s.cur.vibMem.toNat / 16)) &&& 0x7E)

/-- R224: on a tick `NONE`, `SET_SPEED`, `POS_JUMP`, `PAT_BREAK` and the reserved commands run the continuation
reset and nothing else. -/
def Obligations.RowCommandsDoNothingOnTicks : Prop :=
  ∀ (s : State) (e : EventArgs), s.seq = .tick →
    ∀ eff ∈ [Effect.noEffect, .setSpeed, .posJump, .patBreak, .rsv13, .rsv14, .rsv15],
      exec (Instr.ofEvent eff e) s =
        .next (s.setCur { s.cur with tremorCtr := 0, tremorState := false, vibPhase := 0 })

/-- R225, R226: whatever command is latched, a per-tick event that runs leaves the channel's step the step of its
period if it was so before, leaves the target period, the position, the sample binding and the latched event, and
touches no other channel and no context register. R198: its continuation reset leaves tremor idle under every command
but `TREMOR`, and the vibrato phase 0 under every command but `VIBRATO` and `VOLSLIDE_VIB`. -/
def Obligations.TickEventsFrame : Prop :=
  ∀ (s t : State) (eff : Effect) (e : EventArgs), s.seq = .tick →
    exec (Instr.ofEvent eff e) s = .next t →
    t = { s with chans := t.chans } ∧
    (∀ d, d ≠ s.chan → t.channel d = s.channel d) ∧
    (s.cur.step = frequencyStep s.cfg s.ctx.rate s.cur.periodCur →
      t.cur.step = frequencyStep s.cfg s.ctx.rate t.cur.periodCur) ∧
    t.cur.periodTgt = s.cur.periodTgt ∧ t.cur.pos = s.cur.pos ∧ t.cur.volInit = s.cur.volInit ∧
    t.cur.volMix = s.cur.volMix ∧ t.cur.waveSlot = s.cur.waveSlot ∧ t.cur.c2spd = s.cur.c2spd ∧
    t.cur.loopStart = s.cur.loopStart ∧ t.cur.loopEnd = s.cur.loopEnd ∧
    t.cur.loopEn = s.cur.loopEn ∧ t.cur.lastNote = s.cur.lastNote ∧ t.cur.rowCtr = s.cur.rowCtr ∧
    t.cur.latchedArgs = s.cur.latchedArgs ∧ t.cur.evCmd = s.cur.evCmd ∧
    (eff ≠ .tremor → t.cur.tremorCtr = 0 ∧ t.cur.tremorState = false) ∧
    (eff ≠ .vibrato → eff ≠ .volslideVib → t.cur.vibPhase = 0)

/-! ### Refusals -/

/-- R71, R72, R75, R147, R244, R250, R314: the inputs and states the loader must reject are refused by name: a tempo
with a divisor that is not positive (SET_SPEED, START), a base volume above 64 (under TONE_PORTA where it rebinds), an
order position at or beyond the order list, a pattern the song does not have, and a waveform index at or beyond the
waveform's length, on whichever channel. -/
def Obligations.RejectedInputsAreRefusedByName : Prop :=
  (∀ (s : State) (e : EventArgs), s.seq = .row →
    TriggerLegal s.cfg s.song false (s.cur.latch (s.cfg.coding.codeOf .setSpeed) e) → e.param ≠ 0 →
    tempoDivisor s.cfg e.param ≤ 0 → exec (.setSpeed e) s = .refused .invalidTempo) ∧
  (∀ (s : State) (r : BitVec 16), s.seq = .host → s.session = .created ∨ s.session = .started →
    tempoDivisor s.cfg s.cfg.initTempo ≤ 0 → exec (.start r) s = .refused .invalidTempo) ∧
  (∀ (s : State) (eff : Effect) (e : EventArgs), s.seq = .row → e.vol.toNat ≤ 65 →
    e.smp ≠ 0 → 64 < (s.song.desc e.smp).volume.toNat →
    (eff = .tonePorta → s.cfg.tportaRebindsSample = true ∧
      (254 ≤ e.note.toNat ∨ s.cur.sampleBound = true ∧
        ∃ p, periodOf s.cfg e.note.toNat s.cur.c2spd = .ok p)) →
    exec (Instr.ofEvent eff e) s = .refused .invalidSampleVolume) ∧
  (∀ s : State, s.seq = .order ∨ s.seq = .orderAgain → s.song.orderLen ≤ s.ctx.orderPos.toNat →
    step s = .refused .orderOutOfRange) ∧
  (∀ s : State, s.seq = .row → s.cur.active = true → s.song.nPatterns ≤ s.ctx.pattern.toNat →
    step s = .refused .patternOutOfRange) ∧
  (∀ (s : State) (c : Fin 4), s.seq = .host → s.session = .started → (s.channel c).ReadsBeyond s.song →
    exec .render s = .refused .waveOutOfRange)
end

