-- ==== Sys2Proof/Laws/Decode.lean ====
section
/-! SUPPORT. The small lemmas of the decoders and encoders. -/

namespace Sys2Proof

theorem Effect.mem_all (e : Effect) : e ∈ Effect.all := by cases e <;> decide

/-- Under a legal coding every effect has a place in the command map. -/
theorem Coding.mem_map {cd : Coding} (h : cd.wf = true) (e : Effect) : e ∈ cd.cmdMap.toList := by
  simp only [Coding.wf, Bool.and_eq_true, List.all_eq_true] at h
  simpa using h.1.1.1 e (Effect.mem_all e)

/-- Under a legal coding the number of an effect names that effect (R109: a bijection). -/
theorem Coding.effectOf_codeOf {cd : Coding} (h : cd.wf = true) (e : Effect) :
    cd.effectOf (cd.codeOf e) = e := by
  have hm := Coding.mem_map h e
  have hl : cd.cmdMap.toList.idxOf e < 16 := by
    have := List.idxOf_lt_length_of_mem hm
    simpa using this
  have hn : (cd.codeOf e).toNat = cd.cmdMap.toList.idxOf e := by
    simp [Coding.codeOf, Nat.mod_eq_of_lt hl]
  have hlt : cd.cmdMap.toList.idxOf e < cd.cmdMap.toList.length := List.idxOf_lt_length_of_mem hm
  unfold Coding.effectOf
  rw [hn, List.getElem?_eq_getElem hlt, Option.getD_some, List.getElem_idxOf hlt]

/-- Under a legal coding the effect a number names has that number. -/
theorem Coding.codeOf_effectOf {cd : Coding} (h : cd.wf = true) (n : BitVec 4) :
    cd.codeOf (cd.effectOf n) = n := by
  have hnd : cd.cmdMap.toList.Nodup := by
    simp only [Coding.wf, Bool.and_eq_true, decide_eq_true_eq] at h
    exact h.1.1.2
  have hl : n.toNat < cd.cmdMap.toList.length := by have := n.isLt; simpa using this
  unfold Coding.codeOf Coding.effectOf
  rw [List.getElem?_eq_getElem hl, Option.getD_some, hnd.idxOf_getElem]
  simp

/-- Number 0 is `NONE` under every legal coding (R109). -/
theorem Coding.effectOf_zero {cd : Coding} (h : cd.wf = true) : cd.effectOf 0 = .noEffect := by
  simp only [Coding.wf, Bool.and_eq_true, decide_eq_true_eq] at h
  have := h.1.2
  simpa [Coding.effectOf] using this

/-- The sentinels of a legal coding are 98 and 99, in some order. -/
theorem Coding.sentinels {cd : Coding} (h : cd.wf = true) :
    (cd.sentinelMark = 98 ∧ cd.sentinelZero = 99) ∨ (cd.sentinelMark = 99 ∧ cd.sentinelZero = 98) := by
  simp only [Coding.wf, Bool.and_eq_true, Bool.or_eq_true, decide_eq_true_eq] at h
  exact h.2

/-- The two parts of an assembled volume, put together again (R108). -/
theorem vol_parts (v : BitVec 7) : (v.extractLsb' 3 4 ++ v.extractLsb' 0 3 : BitVec 7) = v := by
  apply BitVec.eq_of_getLsbD_eq
  intro i hi
  rw [BitVec.getLsbD_append]
  by_cases h : i < 3
  · simp [h]
  · simp only [h, if_false, BitVec.getLsbD_extractLsb']
    rw [show 3 + (i - 3) = i by omega]
    simp only [decide_eq_true (show i - 3 < 4 by omega), Bool.true_and]

@[simp] theorem eventArgs_eventWord (cmd : BitVec 4) (e : EventArgs) :
    eventArgs (eventWord cmd e) = e := by
  obtain ⟨n, s, v, p⟩ := e
  simp only [eventArgs, eventWord, EventArgs.mk.injEq]
  refine ⟨?_, ?_, ?_, ?_⟩
  · ext i hi; simp; grind
  · ext i hi; simp; grind
  · conv_rhs => rw [← vol_parts v]
    congr 1 <;> ext i hi <;> simp <;> grind
  · ext i hi; simp; grind

@[simp] theorem eventCmd_eventWord (cmd : BitVec 4) (e : EventArgs) :
    eventCmd (eventWord cmd e) = cmd := by
  ext i hi
  simp [eventCmd, eventWord]
  grind

/-- An event word from its own fields (R104). -/
@[simp] theorem eventWord_fields (w : BitVec 32) : eventWord (eventCmd w) (eventArgs w) = w := by
  ext i hi
  simp [eventCmd, eventArgs, eventWord]
  grind

/-- The four bytes of a word put together again. -/
@[simp] theorem wordBytes_append (w : BitVec 32) :
    w.extractLsb' 24 8 ++ w.extractLsb' 16 8 ++ w.extractLsb' 8 8 ++ w.extractLsb' 0 8 = w := by
  ext i hi
  simp
  grind

theorem wordBytes_of_bytes (b0 b1 b2 b3 : BitVec 8) :
    wordBytes (b3 ++ b2 ++ b1 ++ b0) = [b0, b1, b2, b3] := by
  simp only [wordBytes, List.cons.injEq, and_true]
  refine ⟨?_, ?_, ?_, ?_⟩ <;> ext i hi <;> simp <;> grind

/-- The encoding of an event, for all commands at once. -/
theorem encode_ofEvent (cd : Coding) (eff : Effect) (e : EventArgs) :
    encode cd (Instr.ofEvent eff e) = wordBytes (eventWord (cd.codeOf eff) e) := by
  cases eff <;> rfl

@[simp] theorem noteForm_cut : noteForm 254 = .cut := rfl
@[simp] theorem noteForm_none : noteForm 255 = .none := rfl

theorem noteForm_concrete {b : BitVec 8} (h : b.toNat < 254) : noteForm b = .concrete b := by
  have h1 : b ≠ 254 := fun e => by rw [e] at h; exact absurd h (by decide)
  have h2 : b ≠ 255 := fun e => by rw [e] at h; exact absurd h (by decide)
  rw [noteForm, if_neg h1, if_neg h2]

end Sys2Proof
end

