-- ==== Sys2Proof/Laws/State.lean ====
section
/-! SUPPORT. Reading a field after an update: one lemma for each field and update of the state, true by unfolding, so that
no later proof unfolds a record update. -/

namespace Sys2Proof.Machine

/-! ### One channel written -/

theorem State.channel_setChannel (s : State) (c d : Fin 4) (ch : Channel) :
    (s.setChannel c ch).channel d = if d = c then ch else s.channel d := by
  simp only [State.channel, State.setChannel]
  by_cases h : d = c
  · subst h; simp
  · have : (c : Nat) ≠ d := fun e => h (Fin.ext e.symm)
    simp [h, Vector.getElem_set_ne, this]

@[simp] theorem State.channel_setChannel_same (s : State) (c : Fin 4) (ch : Channel) :
    (s.setChannel c ch).channel c = ch := by simp [State.channel_setChannel]

theorem State.channel_setChannel_ne {s : State} {c d : Fin 4} {ch : Channel} (h : d ≠ c) :
    (s.setChannel c ch).channel d = s.channel d := by simp [State.channel_setChannel, h]

@[simp] theorem State.setChannel_ctx (s : State) (c ch) : (s.setChannel c ch).ctx = s.ctx := rfl
@[simp] theorem State.setChannel_song (s : State) (c ch) : (s.setChannel c ch).song = s.song := rfl
@[simp] theorem State.setChannel_cfg (s : State) (c ch) : (s.setChannel c ch).cfg = s.cfg := rfl
@[simp] theorem State.setChannel_given (s : State) (c ch) : (s.setChannel c ch).given = s.given := rfl
@[simp] theorem State.setChannel_session (s : State) (c ch) :
    (s.setChannel c ch).session = s.session := rfl
@[simp] theorem State.setChannel_result (s : State) (c ch) :
    (s.setChannel c ch).result = s.result := rfl
@[simp] theorem State.setChannel_ops (s : State) (c ch) : (s.setChannel c ch).ops = s.ops := rfl
@[simp] theorem State.setChannel_seq (s : State) (c ch) : (s.setChannel c ch).seq = s.seq := rfl
@[simp] theorem State.setChannel_chan (s : State) (c ch) : (s.setChannel c ch).chan = s.chan := rfl
@[simp] theorem State.setChannel_priming (s : State) (c ch) :
    (s.setChannel c ch).priming = s.priming := rfl
@[simp] theorem State.setChannel_fresh (s : State) (c ch) :
    (s.setChannel c ch).fresh = s.fresh := rfl

@[simp] theorem State.setCur_ctx (s : State) (ch) : (s.setCur ch).ctx = s.ctx := rfl
@[simp] theorem State.setCur_song (s : State) (ch) : (s.setCur ch).song = s.song := rfl
@[simp] theorem State.setCur_cfg (s : State) (ch) : (s.setCur ch).cfg = s.cfg := rfl
@[simp] theorem State.setCur_given (s : State) (ch) : (s.setCur ch).given = s.given := rfl
@[simp] theorem State.setCur_session (s : State) (ch) : (s.setCur ch).session = s.session := rfl
@[simp] theorem State.setCur_result (s : State) (ch) : (s.setCur ch).result = s.result := rfl
@[simp] theorem State.setCur_ops (s : State) (ch) : (s.setCur ch).ops = s.ops := rfl
@[simp] theorem State.setCur_seq (s : State) (ch) : (s.setCur ch).seq = s.seq := rfl
@[simp] theorem State.setCur_chan (s : State) (ch) : (s.setCur ch).chan = s.chan := rfl
@[simp] theorem State.setCur_priming (s : State) (ch) : (s.setCur ch).priming = s.priming := rfl
@[simp] theorem State.setCur_fresh (s : State) (ch) : (s.setCur ch).fresh = s.fresh := rfl
@[simp] theorem State.setCur_chans (s : State) (ch) :
    (s.setCur ch).chans = s.chans.set s.chan ch := rfl

@[simp] theorem State.setCur_cur (s : State) (ch) : (s.setCur ch).cur = ch := by
  simp [State.cur, State.setCur]

theorem State.setCur_channel (s : State) (d : Fin 4) (ch : Channel) :
    (s.setCur ch).channel d = if d = s.chan then ch else s.channel d :=
  State.channel_setChannel s s.chan d ch

@[simp] theorem State.setCur_setCur (s : State) (ch ch') :
    (s.setCur ch).setCur ch' = s.setCur ch' := by
  simp [State.setCur, State.setChannel]

@[simp] theorem State.setCur_self (s : State) : s.setCur s.cur = s := by
  simp [State.setCur, State.setChannel, State.cur, State.channel]

@[simp] theorem State.modCur_eq (s : State) (f) : s.modCur f = s.setCur (f s.cur) := rfl

/-- The channels are known from what `State.channel` reads. -/
theorem State.chans_ext {s t : State} (h : ∀ c, s.channel c = t.channel c) : s.chans = t.chans := by
  ext i hi
  simpa [State.channel] using h ⟨i, hi⟩

/-- What a channel is after an update of all four. -/
@[simp] theorem onAll_getElem (f : Channel → Channel) (chans : Vector Channel 4) (i : Nat) (h : i < 4) :
    (onAll f chans)[i] = f chans[i] := by
  simp [onAll]

/-! ### The end of a tick event -/

@[simp] theorem State.recomputeMix_channel (s : State) (c : Fin 4) :
    s.recomputeMix.channel c =
      { s.channel c with volMix := mixVolume (s.channel c).volCur s.ctx.gvol } := by
  simp [State.channel, State.recomputeMix]

@[simp] theorem State.recomputeMix_ctx (s : State) : s.recomputeMix.ctx = s.ctx := rfl
@[simp] theorem State.recomputeMix_song (s : State) : s.recomputeMix.song = s.song := rfl
@[simp] theorem State.recomputeMix_cfg (s : State) : s.recomputeMix.cfg = s.cfg := rfl
@[simp] theorem State.recomputeMix_given (s : State) : s.recomputeMix.given = s.given := rfl
@[simp] theorem State.recomputeMix_session (s : State) : s.recomputeMix.session = s.session := rfl
@[simp] theorem State.recomputeMix_result (s : State) : s.recomputeMix.result = s.result := rfl
@[simp] theorem State.recomputeMix_ops (s : State) : s.recomputeMix.ops = s.ops := rfl
@[simp] theorem State.recomputeMix_fresh (s : State) : s.recomputeMix.fresh = s.fresh := rfl
@[simp] theorem State.recomputeMix_priming (s : State) : s.recomputeMix.priming = s.priming := rfl

@[simp] theorem State.primeFrame_chans (s : State) : s.primeFrame.chans = s.chans := by
  unfold State.primeFrame; split <;> rfl
@[simp] theorem State.primeFrame_song (s : State) : s.primeFrame.song = s.song := by
  unfold State.primeFrame; split <;> rfl
@[simp] theorem State.primeFrame_cfg (s : State) : s.primeFrame.cfg = s.cfg := by
  unfold State.primeFrame; split <;> rfl
@[simp] theorem State.primeFrame_given (s : State) : s.primeFrame.given = s.given := by
  unfold State.primeFrame; split <;> rfl
@[simp] theorem State.primeFrame_session (s : State) : s.primeFrame.session = s.session := by
  unfold State.primeFrame; split <;> rfl
@[simp] theorem State.primeFrame_result (s : State) : s.primeFrame.result = s.result := by
  unfold State.primeFrame; split <;> rfl
@[simp] theorem State.primeFrame_ops (s : State) : s.primeFrame.ops = s.ops := by
  unfold State.primeFrame; split <;> rfl
@[simp] theorem State.primeFrame_fresh (s : State) : s.primeFrame.fresh = s.fresh := by
  unfold State.primeFrame; split <;> rfl

/-- The context after the frame counter of START: at most the frame counter has changed. -/
theorem State.primeFrame_ctx (s : State) :
    s.primeFrame.ctx =
      { s.ctx with frameCtr := if s.priming then s.ctx.framesPerTick else s.ctx.frameCtr } := by
  unfold State.primeFrame; split <;> simp_all

@[simp] theorem State.finishTick_seq (s : State) : s.finishTick.seq = .host := rfl
@[simp] theorem State.finishTick_chan (s : State) : s.finishTick.chan = 0 := rfl
@[simp] theorem State.finishTick_priming (s : State) : s.finishTick.priming = false := rfl
@[simp] theorem State.finishTick_song (s : State) : s.finishTick.song = s.song := by
  simp [State.finishTick]
@[simp] theorem State.finishTick_cfg (s : State) : s.finishTick.cfg = s.cfg := by
  simp [State.finishTick]
@[simp] theorem State.finishTick_given (s : State) : s.finishTick.given = s.given := by
  simp [State.finishTick]
@[simp] theorem State.finishTick_session (s : State) : s.finishTick.session = s.session := by
  simp [State.finishTick]
@[simp] theorem State.finishTick_result (s : State) : s.finishTick.result = s.result := by
  simp [State.finishTick]
@[simp] theorem State.finishTick_ops (s : State) : s.finishTick.ops = s.ops := by
  simp [State.finishTick]
@[simp] theorem State.finishTick_fresh (s : State) : s.finishTick.fresh = s.fresh := by
  simp [State.finishTick]

theorem State.finishTick_ctx (s : State) :
    s.finishTick.ctx =
      { s.ctx with frameCtr := if s.priming then s.ctx.framesPerTick else s.ctx.frameCtr } :=
  State.primeFrame_ctx s.recomputeMix

@[simp] theorem State.finishTick_channel (s : State) (c : Fin 4) :
    s.finishTick.channel c =
      { s.channel c with volMix := mixVolume (s.channel c).volCur s.ctx.gvol } := by
  have : s.finishTick.channel c = s.recomputeMix.primeFrame.channel c := rfl
  rw [this, ← State.recomputeMix_channel]
  simp [State.channel]

/-! ### The flow between instructions -/

@[simp] theorem State.finishRow_seq (s : State) : s.finishRow.seq = .host := rfl
@[simp] theorem State.finishRow_chan (s : State) : s.finishRow.chan = 0 := rfl
@[simp] theorem State.finishRow_priming (s : State) : s.finishRow.priming = false := rfl
@[simp] theorem State.finishRow_song (s : State) : s.finishRow.song = s.song := by
  simp [State.finishRow]
@[simp] theorem State.finishRow_cfg (s : State) : s.finishRow.cfg = s.cfg := by
  simp [State.finishRow]
@[simp] theorem State.finishRow_given (s : State) : s.finishRow.given = s.given := by
  simp [State.finishRow]
@[simp] theorem State.finishRow_session (s : State) : s.finishRow.session = s.session := by
  simp [State.finishRow]
@[simp] theorem State.finishRow_result (s : State) : s.finishRow.result = s.result := by
  simp [State.finishRow]
@[simp] theorem State.finishRow_ops (s : State) : s.finishRow.ops = s.ops := by
  simp [State.finishRow]
@[simp] theorem State.finishRow_fresh (s : State) : s.finishRow.fresh = s.fresh := by
  simp [State.finishRow]

@[simp] theorem State.finishRow_channel (s : State) (c : Fin 4) :
    s.finishRow.channel c =
      { s.channel c with volMix := mixVolume (s.channel c).volCur s.ctx.gvol } :=
  State.finishTick_channel _ c

theorem State.finishRow_ctx (s : State) :
    s.finishRow.ctx =
      { s.ctx with
        tickCtr := if s.ctx.ticksPerRow = 0 then 0 else s.ctx.ticksPerRow.setWidth 8 - 1
        frameCtr := if s.priming then s.ctx.framesPerTick else s.ctx.frameCtr } :=
  State.finishTick_ctx _

@[simp] theorem State.countRow_song (s : State) : s.countRow.song = s.song := rfl
@[simp] theorem State.countRow_cfg (s : State) : s.countRow.cfg = s.cfg := rfl
@[simp] theorem State.countRow_given (s : State) : s.countRow.given = s.given := rfl
@[simp] theorem State.countRow_session (s : State) : s.countRow.session = s.session := rfl
@[simp] theorem State.countRow_result (s : State) : s.countRow.result = s.result := rfl
@[simp] theorem State.countRow_ops (s : State) : s.countRow.ops = s.ops := rfl
@[simp] theorem State.countRow_seq (s : State) : s.countRow.seq = s.seq := rfl
@[simp] theorem State.countRow_chan (s : State) : s.countRow.chan = s.chan := rfl
@[simp] theorem State.countRow_priming (s : State) : s.countRow.priming = s.priming := rfl
@[simp] theorem State.countRow_fresh (s : State) : s.countRow.fresh = s.fresh := rfl

theorem State.countRow_channel (s : State) (d : Fin 4) :
    s.countRow.channel d =
      if d = s.chan then { s.cur with rowCtr := s.cur.rowCtr + 1 } else s.channel d :=
  State.setCur_channel s d _

/-- The row counter's only effect on the context: reaching 64 requests a pattern change (R164). -/
theorem State.countRow_ctx (s : State) :
    s.countRow.ctx = { s.ctx with chgPat := decide (s.cur.rowCtr + 1 = 64) || s.ctx.chgPat } := by
  show (if s.cur.rowCtr + 1 = 64 then s.ctx.requestPattern else s.ctx) = _
  by_cases h : s.cur.rowCtr + 1 = 64
  · rw [if_pos h, decide_eq_true h]; rfl
  · rw [if_neg h, decide_eq_false h]; rfl

/-- Entering a tick event: the three ways of R160 and R161. -/
theorem State.enterTick_cases (s : State) :
    (s.ctx.tickCtr ≠ 0 ∧
      s.enterTick =
        { s with ctx := { s.ctx with tickCtr := s.ctx.tickCtr - 1 }, seq := .tick, chan := 0 }) ∨
    (s.ctx.tickCtr = 0 ∧ s.ctx.singleRow = true ∧ s.enterTick = s.finishTick) ∨
    (s.ctx.tickCtr = 0 ∧ s.ctx.singleRow = false ∧
      s.enterTick = { s with seq := if s.ctx.chgPat then .order else .row, chan := 0 }) := by
  unfold State.enterTick
  by_cases h : s.ctx.tickCtr = 0
  · rw [if_neg (fun hn => hn h)]
    cases hs : s.ctx.singleRow
    · exact .inr (.inr ⟨h, rfl, rfl⟩)
    · exact .inr (.inl ⟨h, rfl, rfl⟩)
  · rw [if_pos h]; exact .inl ⟨h, rfl⟩

@[simp] theorem State.enterTick_song (s : State) : s.enterTick.song = s.song := by
  rcases s.enterTick_cases with h | h | h <;> simp [h]
@[simp] theorem State.enterTick_cfg (s : State) : s.enterTick.cfg = s.cfg := by
  rcases s.enterTick_cases with h | h | h <;> simp [h]
@[simp] theorem State.enterTick_given (s : State) : s.enterTick.given = s.given := by
  rcases s.enterTick_cases with h | h | h <;> simp [h]
@[simp] theorem State.enterTick_session (s : State) : s.enterTick.session = s.session := by
  rcases s.enterTick_cases with h | h | h <;> simp [h]
@[simp] theorem State.enterTick_result (s : State) : s.enterTick.result = s.result := by
  rcases s.enterTick_cases with h | h | h <;> simp [h]
@[simp] theorem State.enterTick_ops (s : State) : s.enterTick.ops = s.ops := by
  rcases s.enterTick_cases with h | h | h <;> simp [h]
@[simp] theorem State.enterTick_fresh (s : State) : s.enterTick.fresh = s.fresh := by
  rcases s.enterTick_cases with h | h | h <;> simp [h]

/-- A channel after entering a tick event: at most the mix volume has changed. -/
theorem State.enterTick_channel (s : State) (c : Fin 4) :
    s.enterTick.channel c = { s.channel c with volMix := (s.enterTick.channel c).volMix } := by
  rcases s.enterTick_cases with h | h | h <;> simp [h, State.channel]
  have := State.finishTick_channel s c
  simp_all [State.channel]

/-- After a channel's share of a row event (R162, R169). -/
theorem State.advanceRow_cases (s : State) :
    (s.chan = 3 ∧ s.advanceRow = s.countRow.finishRow) ∨
    (s.chan ≠ 3 ∧ s.advanceRow = { s.countRow with chan := s.chan + 1 }) := by
  unfold State.advanceRow; split <;> simp_all

/-- After a channel's share of a per-tick event (R160, R169). -/
theorem State.advanceTick_cases (s : State) :
    (s.chan = 3 ∧ s.advanceTick = s.finishTick) ∨
    (s.chan ≠ 3 ∧ s.advanceTick = { s with chan := s.chan + 1 }) := by
  unfold State.advanceTick; split <;> simp_all

@[simp] theorem State.advanceRow_song (s : State) : s.advanceRow.song = s.song := by
  rcases s.advanceRow_cases with h | h <;> simp [h]
@[simp] theorem State.advanceRow_cfg (s : State) : s.advanceRow.cfg = s.cfg := by
  rcases s.advanceRow_cases with h | h <;> simp [h]
@[simp] theorem State.advanceRow_given (s : State) : s.advanceRow.given = s.given := by
  rcases s.advanceRow_cases with h | h <;> simp [h]
@[simp] theorem State.advanceRow_session (s : State) : s.advanceRow.session = s.session := by
  rcases s.advanceRow_cases with h | h <;> simp [h]
@[simp] theorem State.advanceTick_song (s : State) : s.advanceTick.song = s.song := by
  rcases s.advanceTick_cases with h | h <;> simp [h]
@[simp] theorem State.advanceTick_cfg (s : State) : s.advanceTick.cfg = s.cfg := by
  rcases s.advanceTick_cases with h | h <;> simp [h]
@[simp] theorem State.advanceTick_given (s : State) : s.advanceTick.given = s.given := by
  rcases s.advanceTick_cases with h | h <;> simp [h]
@[simp] theorem State.advanceTick_session (s : State) : s.advanceTick.session = s.session := by
  rcases s.advanceTick_cases with h | h <;> simp [h]
@[simp] theorem State.advanceRow_result (s : State) : s.advanceRow.result = s.result := by
  rcases s.advanceRow_cases with h | h <;> simp [h]
@[simp] theorem State.advanceRow_ops (s : State) : s.advanceRow.ops = s.ops := by
  rcases s.advanceRow_cases with h | h <;> simp [h]
@[simp] theorem State.advanceRow_fresh (s : State) : s.advanceRow.fresh = s.fresh := by
  rcases s.advanceRow_cases with h | h <;> simp [h]
@[simp] theorem State.advanceTick_result (s : State) : s.advanceTick.result = s.result := by
  rcases s.advanceTick_cases with h | h <;> simp [h]
@[simp] theorem State.advanceTick_ops (s : State) : s.advanceTick.ops = s.ops := by
  rcases s.advanceTick_cases with h | h <;> simp [h]
@[simp] theorem State.advanceTick_fresh (s : State) : s.advanceTick.fresh = s.fresh := by
  rcases s.advanceTick_cases with h | h <;> simp [h]

end Sys2Proof.Machine
end

