-- ==== Sys2Proof/Laws/Ops.lean ====
section
/-! SUPPORT. What each shared operation can do, said once: later proofs cite these and do not unfold the operations. -/

namespace Sys2Proof.Machine

/-! ### Going on -/

@[simp] theorem withValue_ok {α : Type} (a : α) (f : α → Out) : withValue (.ok a) f = f a := rfl
@[simp] theorem withValue_error {α : Type} (r : Refusal) (f : α → Out) :
    withValue (.error r : Except Refusal α) f = .refused r := rfl
@[simp] theorem andThen_next (s : State) (f : State → Out) : andThen (.next s) f = f s := rfl
@[simp] theorem andThen_refused (r : Refusal) (f : State → Out) :
    andThen (.refused r) f = .refused r := rfl
@[simp] theorem andThen_fault (x : Fault) (f : State → Out) : andThen (.fault x) f = .fault x := rfl

theorem withValue_next {α : Type} {x : Except Refusal α} {f : α → Out} {t : State} :
    withValue x f = .next t ↔ ∃ a, x = .ok a ∧ f a = .next t := by
  cases x <;> simp

theorem andThen_eq_next {o : Out} {f : State → Out} {t : State} :
    andThen o f = .next t ↔ ∃ s, o = .next s ∧ f s = .next t := by
  cases o <;> simp

theorem andThen_assoc (o : Out) (f g : State → Out) :
    andThen (andThen o f) g = andThen o fun s => andThen (f s) g := by
  cases o <;> rfl

theorem andThen_withValue {α : Type} (x : Except Refusal α) (f : α → Out) (g : State → Out) :
    andThen (withValue x f) g = withValue x fun a => andThen (f a) g := by
  cases x <;> rfl

@[simp] theorem andThen_next_right (o : Out) : andThen o (fun s => .next s) = o := by
  cases o <;> rfl

/-- Every outcome is a next state or a refusal: no fault exists (R310). -/
theorem out_cases (o : Out) : (∃ s, o = .next s) ∨ ∃ r, o = .refused r := by
  cases o with
  | next s => exact .inl ⟨s, rfl⟩
  | fault x => cases x
  | refused r => exact .inr ⟨r, rfl⟩

/-! ### Operands -/

@[simp] theorem hiNibble_toNat (b : BitVec 8) : (hiNibble b).toNat = b.toNat / 16 := by
  have := b.isLt
  simp only [hiNibble, BitVec.extractLsb'_toNat, Nat.shiftRight_eq_div_pow]
  omega

@[simp] theorem loNibble_toNat (b : BitVec 8) : (loNibble b).toNat = b.toNat % 16 := by
  simp [loNibble, BitVec.extractLsb'_toNat]

theorem loNibble_eq_zero {b : BitVec 8} : loNibble b = 0 ↔ b.toNat % 16 = 0 := by
  rw [← loNibble_toNat]
  exact ⟨fun h => by rw [h]; rfl, fun h => BitVec.eq_of_toNat_eq h⟩

@[simp] theorem remembered_zero (m : BitVec 8) : remembered m 0 = m := rfl

theorem remembered_ne {m p : BitVec 8} (h : p ≠ 0) : remembered m p = p := if_neg h

/-! ### Tables -/

/-- `period_of` has a value exactly for a valid note at a reference frequency where `cfg.NOTE_PERIOD` has one (R144). -/
theorem periodOf_ok {cfg : Cfg} {note : Nat} {c2 p : BitVec 16} :
    periodOf cfg note c2 = .ok p ↔
      note % 16 ≤ 11 ∧ note / 16 < cfg.nOctaves ∧
        notePeriodAt cfg (ptab cfg (note / 16) (note % 16)) c2 = some p := by
  unfold periodOf
  split
  · rename_i h
    simp only [reduceCtorEq, false_iff]
    omega
  · rename_i h
    constructor
    · intro hp
      refine ⟨by omega, by omega, ?_⟩
      split at hp <;> simp_all
    · rintro ⟨_, _, hp⟩
      simp [hp]

/-- A channel's note has a period exactly where a sample was bound and `period_of` has one (R144, R336 e). -/
theorem Channel.notePeriod_ok {cfg : Cfg} {note : Nat} {ch : Channel} {p : BitVec 16} :
    ch.notePeriod cfg note = .ok p ↔ ch.sampleBound = true ∧ periodOf cfg note ch.c2spd = .ok p := by
  unfold Channel.notePeriod
  cases periodOf cfg note ch.c2spd <;> cases ch.sampleBound <;> simp

/-- The mix volume of volumes in range (R168). -/
theorem mixVolume_toNat {v g : BitVec 7} (hv : v.toNat ≤ 64) (hg : g.toNat ≤ 64) :
    (mixVolume v g).toNat = v.toNat * g.toNat / 64 ∧ (mixVolume v g).toNat ≤ 64 := by
  have h : v.toNat * g.toNat ≤ 64 * 64 := Nat.mul_le_mul hv hg
  have : (mixVolume v g).toNat = v.toNat * g.toNat / 64 := by
    simp only [mixVolume, BitVec.toNat_ofNat]
    omega
  omega

/-! ### Registers of one channel -/

/-- Writing the period writes the period and its step, and nothing else (R225). -/
theorem Channel.setPeriod_eq (cfg : Cfg) (rate p : BitVec 16) (ch : Channel) :
    ch.setPeriod cfg rate p = { ch with periodCur := p, step := frequencyStep cfg rate p } := rfl

/-- The explicit volume, when it is in range (R241). -/
theorem Channel.explicitVolume_ok {ch ch' : Channel} :
    ch.explicitVolume = .ok ch' ↔
      ch.evVol.toNat ≤ 65 ∧
        ch' = if ch.evVol = 65 then ch else { ch with volCur := ch.evVol, volInit := ch.evVol } := by
  unfold Channel.explicitVolume
  by_cases h : 65 < ch.evVol.toNat
  · rw [if_pos h]; simp; omega
  · rw [if_neg h]
    split <;> simp [Nat.le_of_not_lt h, eq_comm]

/-- Binding a sample, when its base volume is in range (R244). -/
theorem Channel.rebind_ok {slot : BitVec 5} {d : SampleDesc} {ch ch' : Channel} :
    ch.rebind slot d = .ok ch' ↔
      d.volume.toNat ≤ 64 ∧
        ch' =
          { ch with
            waveSlot := slot, c2spd := d.c2spd, sampleBound := true
            loopStart := if d.loopEnd = 0xFFFF then 0 else d.loopStart
            loopEnd := if d.loopEnd = 0xFFFF then d.length else d.loopEnd
            loopEn := decide (d.loopEnd ≠ 0xFFFF)
            volCur := if ch.evVol = 65 then d.volume else ch.volCur
            volInit := if ch.evVol = 65 then d.volume else ch.volInit } := by
  unfold Channel.rebind
  by_cases h : 64 < d.volume.toNat
  · rw [if_pos h]; simp; omega
  · rw [if_neg h]
    simp [Nat.le_of_not_lt h, eq_comm]

/-- A concrete note outside tone portamento (R247). -/
theorem Channel.playNote_ok {cfg : Cfg} {rate : BitVec 16} {b : BitVec 8} {ch ch' : Channel} :
    ch.playNote cfg rate b = .ok ch' ↔
      ∃ p, ch.notePeriod cfg b.toNat = .ok p ∧
        ch' =
          { ch with
            lastNote := b, notePlayed := true, periodTgt := p, pos := 0, periodCur := p
            step := frequencyStep cfg rate p } := by
  unfold Channel.playNote
  split <;> rename_i h
  · simp [h]
  · simp [h, Channel.setPeriod, Channel.updateFrequency, eq_comm]

/-- A concrete note under tone portamento (R243). -/
theorem Channel.aimNote_ok {cfg : Cfg} {b : BitVec 8} {ch ch' : Channel} :
    ch.aimNote cfg b = .ok ch' ↔
      ∃ p, ch.notePeriod cfg b.toNat = .ok p ∧ ch' = { ch with periodTgt := p } := by
  unfold Channel.aimNote
  split <;> rename_i h <;> simp [h, eq_comm]

/-- The note step: the form of the note byte and whether it is tone portamento decide (R240, R242). -/
theorem Channel.noteStep_cases {cfg : Cfg} {rate : BitVec 16} {porta : Bool} {ch ch' : Channel}
    (h : ch.noteStep cfg rate porta = .ok ch') :
    (∃ b, noteForm ch.evNote = .concrete b ∧ porta = true ∧ ch.aimNote cfg b = .ok ch') ∨
    (∃ b, noteForm ch.evNote = .concrete b ∧ porta = false ∧ ch.playNote cfg rate b = .ok ch') ∨
    (noteForm ch.evNote = .cut ∧ porta = false ∧ ch' = ch.cutNote) ∨
    (noteForm ch.evNote ≠ .cut ∨ porta = true) ∧ ch' = ch := by
  unfold Channel.noteStep Channel.concreteNote Channel.noteCut at h
  cases hf : noteForm ch.evNote <;> cases porta <;> simp_all

theorem Channel.noteStep_cut {ch : Channel} (h : ch.evNote = 254) (cfg : Cfg) (rate : BitVec 16)
    (porta : Bool) : ch.noteStep cfg rate porta = .ok (ch.noteCut porta) := by
  unfold Channel.noteStep; rw [h]; rfl

theorem Channel.noteStep_none {ch : Channel} (h : ch.evNote = 255) (cfg : Cfg) (rate : BitVec 16)
    (porta : Bool) : ch.noteStep cfg rate porta = .ok ch := by
  unfold Channel.noteStep; rw [h]; rfl

theorem Channel.noteStep_concrete {ch : Channel} (h : ch.evNote.toNat < 254) (cfg : Cfg)
    (rate : BitVec 16) (porta : Bool) :
    ch.noteStep cfg rate porta = ch.concreteNote cfg rate porta ch.evNote := by
  unfold Channel.noteStep; rw [noteForm_concrete h]

/-- The sample field outside tone portamento (R244, R245). -/
theorem Channel.sampleStep_cases {g : Song} {ch ch' : Channel} (h : ch.sampleStep g = .ok ch') :
    (ch.evSmp = 0 ∧ ch' = ch) ∨
    (ch.evSmp ≠ 0 ∧ ∃ c, ch.rebind ch.evSmp (g.desc ch.evSmp) = .ok c ∧
      ch' = if (g.desc ch.evSmp).length = 0 then { c with evNote := 254 } else c) := by
  unfold Channel.sampleStep at h
  split at h
  · rename_i h0; exact .inl ⟨h0, by simpa [eq_comm] using h⟩
  · rename_i h0
    split at h
    · cases h
    · rename_i c hc
      exact .inr ⟨h0, c, hc, by simpa [eq_comm] using h⟩

/-- The sample field under tone portamento (R250). -/
theorem Channel.portaSampleStep_cases {cfg : Cfg} {g : Song} {ch ch' : Channel}
    (h : ch.portaSampleStep cfg g = .ok ch') :
    ch' = ch ∨
    (cfg.tportaRebindsSample = true ∧ ch.evSmp ≠ 0 ∧ ch.rebind ch.evSmp (g.desc ch.evSmp) = .ok ch') := by
  unfold Channel.portaSampleStep at h
  split at h
  · rename_i hc; exact .inr ⟨hc.1, hc.2, h⟩
  · exact .inl (by simpa [eq_comm] using h)

/-- The trigger in its order: volume; under tone portamento note, then sample; else sample, then note
(R240). -/
theorem Channel.trigger_cases {cfg : Cfg} {g : Song} {rate : BitVec 16} {porta : Bool}
    {ch ch' : Channel} (h : ch.trigger cfg g rate porta = .ok ch') :
    ∃ c₁ c₂, ch.explicitVolume = .ok c₁ ∧
      ((porta = true ∧ c₁.noteStep cfg rate true = .ok c₂ ∧ c₂.portaSampleStep cfg g = .ok ch') ∨
       (porta = false ∧ c₁.sampleStep g = .ok c₂ ∧ c₂.noteStep cfg rate false = .ok ch')) := by
  unfold Channel.trigger at h
  split at h
  · cases h
  · rename_i c₁ h₁
    cases porta with
    | true =>
      simp only [if_true] at h
      split at h
      · cases h
      · rename_i c₂ h₂
        exact ⟨c₁, c₂, h₁, .inl ⟨rfl, h₂, h⟩⟩
    | false =>
      simp only [Bool.false_eq_true, if_false] at h
      split at h
      · cases h
      · rename_i c₂ h₂
        exact ⟨c₁, c₂, h₁, .inr ⟨rfl, h₂, h⟩⟩

/-- What a trigger leaves alone: the event but for a forced cut, the memories, the continuation state, the
row counter, the mix volume (R251). -/
structure Channel.TriggerFrame (ch ch' : Channel) : Prop where
  evSmp : ch'.evSmp = ch.evSmp
  evVol : ch'.evVol = ch.evVol
  evCmd : ch'.evCmd = ch.evCmd
  evParam : ch'.evParam = ch.evParam
  active : ch'.active = ch.active
  rowCtr : ch'.rowCtr = ch.rowCtr
  tportaMem : ch'.tportaMem = ch.tportaMem
  vibMem : ch'.vibMem = ch.vibMem
  vibPhase : ch'.vibPhase = ch.vibPhase
  tremorCtr : ch'.tremorCtr = ch.tremorCtr
  tremorState : ch'.tremorState = ch.tremorState
  volMix : ch'.volMix = ch.volMix

theorem Channel.TriggerFrame.refl (ch : Channel) : ch.TriggerFrame ch := by constructor <;> rfl

theorem Channel.TriggerFrame.comp {a b c : Channel} (h : a.TriggerFrame b) (k : b.TriggerFrame c) :
    a.TriggerFrame c := by
  constructor
  · exact k.evSmp.trans h.evSmp
  · exact k.evVol.trans h.evVol
  · exact k.evCmd.trans h.evCmd
  · exact k.evParam.trans h.evParam
  · exact k.active.trans h.active
  · exact k.rowCtr.trans h.rowCtr
  · exact k.tportaMem.trans h.tportaMem
  · exact k.vibMem.trans h.vibMem
  · exact k.vibPhase.trans h.vibPhase
  · exact k.tremorCtr.trans h.tremorCtr
  · exact k.tremorState.trans h.tremorState
  · exact k.volMix.trans h.volMix

theorem Channel.explicitVolume_frame {ch ch' : Channel} (h : ch.explicitVolume = .ok ch') :
    ch.TriggerFrame ch' := by
  rw [(Channel.explicitVolume_ok.1 h).2]
  split <;> constructor <;> rfl

theorem Channel.rebind_frame {slot : BitVec 5} {d : SampleDesc} {ch ch' : Channel}
    (h : ch.rebind slot d = .ok ch') : ch.TriggerFrame ch' := by
  rw [(Channel.rebind_ok.1 h).2]
  constructor <;> rfl

theorem Channel.noteStep_frame {cfg : Cfg} {rate : BitVec 16} {porta : Bool} {ch ch' : Channel}
    (h : ch.noteStep cfg rate porta = .ok ch') : ch.TriggerFrame ch' := by
  rcases Channel.noteStep_cases h with ⟨b, _, _, h⟩ | ⟨b, _, _, h⟩ | ⟨_, _, rfl⟩ | ⟨_, rfl⟩
  · obtain ⟨p, _, rfl⟩ := Channel.aimNote_ok.1 h; constructor <;> rfl
  · obtain ⟨p, _, rfl⟩ := Channel.playNote_ok.1 h; constructor <;> rfl
  · constructor <;> rfl
  · exact .refl _

theorem Channel.sampleStep_frame {g : Song} {ch ch' : Channel} (h : ch.sampleStep g = .ok ch') :
    ch.TriggerFrame ch' := by
  rcases Channel.sampleStep_cases h with ⟨_, rfl⟩ | ⟨_, c, hc, rfl⟩
  · exact .refl _
  · refine (Channel.rebind_frame hc).comp ?_
    split <;> constructor <;> rfl

theorem Channel.trigger_frame {cfg : Cfg} {g : Song} {rate : BitVec 16} {porta : Bool}
    {ch ch' : Channel} (h : ch.trigger cfg g rate porta = .ok ch') : ch.TriggerFrame ch' := by
  obtain ⟨c₁, c₂, h₁, ⟨_, h₂, h₃⟩ | ⟨_, h₂, h₃⟩⟩ := Channel.trigger_cases h
  · refine ((Channel.explicitVolume_frame h₁).comp (Channel.noteStep_frame h₂)).comp ?_
    rcases Channel.portaSampleStep_cases h₃ with rfl | ⟨_, _, h⟩
    · exact .refl _
    · exact Channel.rebind_frame h
  · exact ((Channel.explicitVolume_frame h₁).comp (Channel.sampleStep_frame h₂)).comp
      (Channel.noteStep_frame h₃)

/-- The volume slide writes the current volume (R221). -/
theorem Channel.volumeSlide_volCur (p : BitVec 8) (ch : Channel) :
    (ch.volumeSlide p).volCur.toNat =
      if p.toNat % 16 ≠ 0 then ch.volCur.toNat - p.toNat % 16
      else min (ch.volCur.toNat + p.toNat / 16) 64 := by
  have := ch.volCur.isLt
  unfold Channel.volumeSlide
  by_cases h : loNibble p = 0
  · have h' := loNibble_eq_zero.1 h
    simp only [h, h', ne_eq, not_true_eq_false, if_false, hiNibble_toNat, BitVec.toNat_ofNat]
    omega
  · have h' : p.toNat % 16 ≠ 0 := fun e => h (loNibble_eq_zero.2 e)
    rw [if_pos h']
    simp only [h, ne_eq, not_false_eq_true, if_true, loNibble_toNat, BitVec.toNat_ofNat]
    omega

/-- The volume slide writes nothing else. -/
theorem Channel.volumeSlide_eq (p : BitVec 8) (ch : Channel) :
    ch.volumeSlide p = { ch with volCur := (ch.volumeSlide p).volCur } := rfl

/-- Tremor's three moves (R213). -/
theorem Channel.doTremor_cases (ch : Channel) :
    (ch.tremorCtr ≠ 0 ∧ ch.doTremor = { ch with tremorCtr := ch.tremorCtr - 1 }) ∨
    (ch.tremorCtr = 0 ∧ ch.tremorState = true ∧
      ch.doTremor = { ch with tremorState := false, volCur := 0, tremorCtr := loNibble ch.evParam }) ∨
    (ch.tremorCtr = 0 ∧ ch.tremorState = false ∧
      ch.doTremor =
        { ch with tremorState := true, volCur := ch.volInit, tremorCtr := hiNibble ch.evParam }) := by
  unfold Channel.doTremor
  by_cases h : ch.tremorCtr = 0
  · rw [if_pos h]
    cases hs : ch.tremorState
    · exact .inr (.inr ⟨h, rfl, rfl⟩)
    · exact .inr (.inl ⟨h, rfl, rfl⟩)
  · rw [if_neg h]; exact .inl ⟨h, rfl⟩

theorem slideToward_up {cur tgt d : Nat} (h : cur < tgt) :
    slideToward cur tgt d = min (cur + d) tgt := if_pos h

theorem slideToward_down {cur tgt d : Nat} (h : tgt ≤ cur) :
    slideToward cur tgt d = max (cur - d) tgt := if_neg (Nat.not_lt.2 h)

/-- Tone portamento writes its memory, the period and the step (R215). -/
theorem Channel.tonePortamento_eq (cfg : Cfg) (rate : BitVec 16) (p : BitVec 8) (ch : Channel) :
    ch.tonePortamento cfg rate p =
      { ch with
        tportaMem := remembered ch.tportaMem p
        periodCur := (ch.tonePortamento cfg rate p).periodCur
        step := frequencyStep cfg rate (ch.tonePortamento cfg rate p).periodCur } := rfl

/-- The period after tone portamento (R215). -/
theorem Channel.tonePortamento_period (cfg : Cfg) (rate : BitVec 16) (p : BitVec 8) (ch : Channel) :
    (ch.tonePortamento cfg rate p).periodCur.toNat =
      slideToward ch.periodCur.toNat ch.periodTgt.toNat
        (cfg.tportaMult * (remembered ch.tportaMem p).toNat) := by
  have h1 := ch.periodCur.isLt
  have h2 := ch.periodTgt.isLt
  show (BitVec.ofNat 16 (slideToward _ _ _)).toNat = _
  rw [BitVec.toNat_ofNat, Nat.mod_eq_of_lt]
  unfold slideToward
  split <;> omega

/-- Vibrato writes its memory, the phase, the period and the step (R217). -/
theorem Channel.doVibrato_eq (cfg : Cfg) (rate : BitVec 16) (p : BitVec 8) (ch : Channel) :
    ch.doVibrato cfg rate p =
      { ch with
        vibMem := remembered ch.vibMem p
        vibPhase := (ch.doVibrato cfg rate p).vibPhase
        periodCur := (ch.doVibrato cfg rate p).periodCur
        step := frequencyStep cfg rate (ch.doVibrato cfg rate p).periodCur } := rfl

/-- The period after vibrato (R217). -/
theorem Channel.doVibrato_period (cfg : Cfg) (rate : BitVec 16) (p : BitVec 8) (ch : Channel) :
    ((ch.doVibrato cfg rate p).periodCur.toNat : Int) =
      ((ch.periodTgt.toNat : Int) +
        vibOffset cfg (lfoAt cfg ch.vibPhase) (loNibble (remembered ch.vibMem p))) % 65536 := by
  show ((BitVec.ofInt 16 _).toNat : Int) = _
  rw [BitVec.toNat_ofInt]
  omega

/-- The phase after vibrato (R217). -/
theorem Channel.doVibrato_phase (cfg : Cfg) (rate : BitVec 16) (p : BitVec 8) (ch : Channel) :
    (ch.doVibrato cfg rate p).vibPhase.toNat =
      (ch.vibPhase.toNat + 2 * ((remembered ch.vibMem p).toNat / 16)) &&& 0x7E := by
  show (BitVec.ofNat 7 (ch.vibPhase.toNat + 2 * (hiNibble (remembered ch.vibMem p)).toNat) &&& 0x7E).toNat = _
  rw [BitVec.toNat_and, BitVec.toNat_ofNat, hiNibble_toNat]
  apply Nat.eq_of_testBit_eq
  intro i
  by_cases h : i < 7
  · rw [Nat.testBit_and, Nat.testBit_and, Nat.testBit_mod_two_pow, decide_eq_true h, Bool.true_and]; rfl
  · have : (126 : Nat).testBit i = false := by
      apply Nat.testBit_lt_two_pow
      calc 126 < 2 ^ 7 := by decide
        _ ≤ 2 ^ i := Nat.pow_le_pow_right (by decide) (by omega)
    simp [Nat.testBit_and, this]

/-- Portamento up and down write the period and the step (R218, R219). -/
theorem Channel.slideUp_eq (cfg : Cfg) (rate : BitVec 16) (p : BitVec 8) (ch : Channel) :
    ch.slideUp cfg rate p =
      { ch with
        periodCur := (ch.slideUp cfg rate p).periodCur
        step := frequencyStep cfg rate (ch.slideUp cfg rate p).periodCur } := rfl

theorem Channel.slideUp_period (cfg : Cfg) (rate : BitVec 16) (p : BitVec 8) (ch : Channel) :
    ((ch.slideUp cfg rate p).periodCur.toNat : Int) =
      ((ch.periodCur.toNat : Int) - (cfg.portaMult * p.toNat : Nat)) % 65536 := by
  show ((BitVec.ofInt 16 _).toNat : Int) = _
  rw [BitVec.toNat_ofInt]
  omega

theorem Channel.slideDown_eq (cfg : Cfg) (rate : BitVec 16) (p : BitVec 8) (ch : Channel) :
    ch.slideDown cfg rate p =
      { ch with
        periodCur := (ch.slideDown cfg rate p).periodCur
        step := frequencyStep cfg rate (ch.slideDown cfg rate p).periodCur } := rfl

theorem Channel.slideDown_period (cfg : Cfg) (rate : BitVec 16) (p : BitVec 8) (ch : Channel) :
    (ch.slideDown cfg rate p).periodCur.toNat =
      (ch.periodCur.toNat + cfg.portaMult * p.toNat) % 65536 := by
  show (BitVec.ofNat 16 _).toNat = _
  rw [BitVec.toNat_ofNat]

/-- Arpeggio, when it runs, writes the period and the step (R211). -/
theorem Channel.arpeggio_ok {cfg : Cfg} {rate : BitVec 16} {tickCtr p : BitVec 8} {ch ch' : Channel} :
    ch.arpeggio cfg rate tickCtr p = .ok ch' ↔
      ch.notePlayed = true ∧ ∃ n q, arpeggioNote ch.lastNote (arpeggioOffset tickCtr p) = .ok n ∧
        ch.notePeriod cfg n = .ok q ∧
        ch' = { ch with periodCur := q, step := frequencyStep cfg rate q } := by
  unfold Channel.arpeggio
  by_cases hl : ch.notePlayed = true
  · rw [if_pos hl]
    cases h : arpeggioNote ch.lastNote (arpeggioOffset tickCtr p) with
    | error r => simp
    | ok n =>
      cases h' : ch.notePeriod cfg n with
      | error r => simp [h']
      | ok q =>
        dsimp only
        rw [h']
        constructor
        · intro e; cases e; exact ⟨hl, n, q, rfl, h', rfl⟩
        · rintro ⟨_, n', q', hn, hq, rfl⟩
          cases hn
          rw [h'] at hq
          cases hq; rfl
  · rw [if_neg hl]; simp [hl]

/-! ### The tempo -/

/-- `set_tempo`, when its divisor is positive (R147). -/
theorem Context.setTempo_ok {cfg : Cfg} {t : BitVec 8} {x x' : Context} :
    x.setTempo cfg t = .ok x' ↔
      0 < tempoDivisor cfg t ∧
        x' =
          { x with
            tempo := t, ticksPerRow := hiNibble t
            framesPerTick := BitVec.ofNat 16 (x.rate.toNat / (tempoDivisor cfg t).toNat) } := by
  unfold Context.setTempo
  by_cases h : tempoDivisor cfg t ≤ 0
  · rw [if_pos h]; simp; omega
  · rw [if_neg h]; simp [Int.lt_of_not_ge h, eq_comm]

/-! ### The mixer -/

/-- One channel through steps 1 to 3 of `render()` (R260 to R263). -/
theorem Channel.mix_cases {g : Song} {ch : Channel} {r : Channel × BitVec 8} (h : ch.mix g = .ok r) :
    (ch.exhausted = true ∧ r = (ch, 0)) ∨
    (ch.exhausted = false ∧ ∃ v, ch.wrapLoop.contribution g = .ok v ∧ r = (ch.wrapLoop.advance, v)) := by
  unfold Channel.mix at h
  cases hx : ch.exhausted with
  | true => simp [hx] at h; exact .inl ⟨rfl, h.symm⟩
  | false =>
    simp only [hx, Bool.false_eq_true, if_false] at h
    split at h
    · cases h
    · rename_i v hv
      exact .inr ⟨rfl, v, hv, by simpa [eq_comm] using h⟩

/-- The mixer writes the position only (R262). -/
theorem Channel.mix_frame {g : Song} {ch ch' : Channel} {v : BitVec 8} (h : ch.mix g = .ok (ch', v)) :
    ch' = { ch with pos := ch'.pos } := by
  rcases Channel.mix_cases h with ⟨_, h⟩ | ⟨_, v', _, h⟩
  · cases h; rfl
  · cases h
    unfold Channel.advance Channel.wrapLoop
    split <;> rfl

/-- One turn of the mixer (R264). -/
theorem Mix.turn_ok {g : Song} {c : Fin 4} {m m' : Mix} :
    m.turn g c = .ok m' ↔
      ∃ r, m.chans[c].mix g = .ok r ∧ m' = ⟨m.chans.set c r.1, m.acc + r.2⟩ := by
  unfold Mix.turn
  generalize m.chans[c].mix g = x
  cases x with
  | error r => simp
  | ok r => simp [eq_comm]

/-- The four turns in ascending order, when every channel's turn succeeds (R264, R275). -/
theorem mixAll_of {g : Song} {chans : Vector Channel 4} {f : Fin 4 → Channel} {v : Fin 4 → BitVec 8}
    (h : ∀ c : Fin 4, chans[c].mix g = .ok (f c, v c)) :
    mixAll g chans = .ok ⟨Vector.ofFn f, 0 + v 0 + v 1 + v 2 + v 3⟩ := by
  have turn {c : Fin 4} {m : Mix} (hm : m.chans[c].mix g = .ok (f c, v c)) :
      m.turn g c = .ok ⟨m.chans.set c (f c), m.acc + v c⟩ := Mix.turn_ok.2 ⟨_, hm, rfl⟩
  have t0 := turn (m := ⟨chans, 0⟩) (h 0)
  have t1 := turn (c := 1) (m := ⟨chans.set (0 : Fin 4) (f 0), 0 + v 0⟩)
    (by rw [← h 1]; simp [Vector.getElem_set_ne])
  have t2 := turn (c := 2)
    (m := ⟨(chans.set (0 : Fin 4) (f 0)).set (1 : Fin 4) (f 1), 0 + v 0 + v 1⟩)
    (by rw [← h 2]; simp [Vector.getElem_set_ne])
  have t3 := turn (c := 3)
    (m := ⟨((chans.set (0 : Fin 4) (f 0)).set (1 : Fin 4) (f 1)).set (2 : Fin 4) (f 2),
      0 + v 0 + v 1 + v 2⟩)
    (by rw [← h 3]; simp [Vector.getElem_set_ne])
  simp only [mixAll, Mix.turns]
  rw [t0]; dsimp only
  rw [t1]; dsimp only
  rw [t2]; dsimp only
  rw [t3]; dsimp only
  congr 2
  ext i hi
  have : i = 0 ∨ i = 1 ∨ i = 2 ∨ i = 3 := by omega
  rcases this with rfl | rfl | rfl | rfl <;> simp [Vector.getElem_set_ne]

end Sys2Proof.Machine
end

