-- ==== Sys2Proof/Laws/Exec.lean ====
section
/-! SUPPORT. The sixteen event meanings as one: what a command adds on the row path and on the per-tick path, and how `exec`
unfolds to it. -/

namespace Sys2Proof.Machine

/-- What a command adds at the row event (R190). -/
def rowAction : Effect → State → Out
  | .setSpeed => setSpeedOnce
  | .posJump => posJumpOnce
  | .patBreak => patBreakOnce
  | .tremor => tremorAction
  | .noEffect => noAction
  | .volSlide => noAction
  | .portaDown => noAction
  | .portaUp => noAction
  | .tonePorta => noAction
  | .vibrato => noAction
  | .arpeggio => noAction
  | .volslideVib => noAction
  | .volslideTporta => noAction
  | .rsv13 => noAction
  | .rsv14 => noAction
  | .rsv15 => noAction

/-- What a command adds on a per-tick event (R210). -/
def tickAction : Effect → State → Out
  | .noEffect => noAction
  | .setSpeed => noAction
  | .posJump => noAction
  | .patBreak => noAction
  | .rsv13 => noAction
  | .rsv14 => noAction
  | .rsv15 => noAction
  | .volSlide => volSlideTick
  | .portaDown => portaDownTick
  | .portaUp => portaUpTick
  | .tonePorta => tonePortaTick
  | .vibrato => vibratoTick
  | .tremor => tremorAction
  | .arpeggio => arpeggioTick
  | .volslideVib => volslideVibTick
  | .volslideTporta => volslideTportaTick

theorem exec_ofEvent (eff : Effect) (e : EventArgs) (s : State) :
    exec (Instr.ofEvent eff e) s = onEvent eff (rowAction eff) (tickAction eff) e s := by
  cases eff <;> rfl

/-- An event in a per-tick event: the continuation reset, then the command's per-tick action (R210). -/
theorem exec_tick {s : State} (h : s.seq = .tick) (eff : Effect) (e : EventArgs) :
    exec (Instr.ofEvent eff e) s = tickAction eff (s.setCur (s.cur.continuationReset eff)) := by
  rw [exec_ofEvent, onEvent, if_pos h]; rfl

/-- An event in a row event: latch, trigger, continuation reset, row action (R163, R190, R240). -/
theorem exec_row {s : State} (h : s.seq = .row) (eff : Effect) (e : EventArgs) :
    exec (Instr.ofEvent eff e) s =
      withValue
        ((s.cur.latch (s.cfg.coding.codeOf eff) e).trigger s.cfg s.song s.ctx.rate
          (decide (eff = .tonePorta)))
        fun ch => rowAction eff (s.setCur (ch.continuationReset eff)) := by
  have : s.seq ≠ .tick := by rw [h]; decide
  rw [exec_ofEvent, onEvent, if_neg this]

/-- The continuation reset of the commands outside tremor and vibrato (R198). -/
theorem Channel.continuationReset_plain {eff : Effect} (h1 : eff ≠ .tremor) (h2 : eff ≠ .vibrato)
    (h3 : eff ≠ .volslideVib) (ch : Channel) :
    ch.continuationReset eff = { ch with tremorCtr := 0, tremorState := false, vibPhase := 0 } := by
  simp [Channel.continuationReset, h1, h2, h3]

/-- A trigger with no note, no sample and no explicit volume does nothing (R241, R248). -/
theorem Channel.trigger_empty {cfg : Cfg} {g : Song} {rate : BitVec 16} {porta : Bool} {ch : Channel}
    (hn : ch.evNote = 255) (hs : ch.evSmp = 0) (hv : ch.evVol = 65) :
    ch.trigger cfg g rate porta = .ok ch := by
  have h1 : ch.explicitVolume = .ok ch :=
    Channel.explicitVolume_ok.2 ⟨by rw [hv]; decide, (if_pos hv).symm⟩
  have h2 : ∀ p, ch.noteStep cfg rate p = .ok ch := by
    intro p; unfold Channel.noteStep; rw [hn]; rfl
  have h3 : ch.sampleStep g = .ok ch := if_pos hs
  have h4 : ch.portaSampleStep cfg g = .ok ch := if_neg fun h => h.2 hs
  cases porta <;> simp [Channel.trigger, h1, h2, h3, h4]

/-- An otherwise empty event in a row event (R190). -/
theorem exec_row_empty {s : State} (h : s.seq = .row) (eff : Effect) {e : EventArgs}
    (hn : e.note = 255) (hs : e.smp = 0) (hv : e.vol = 65) :
    exec (Instr.ofEvent eff e) s =
      rowAction eff
        (s.setCur (Channel.continuationReset eff (s.cur.latch (s.cfg.coding.codeOf eff) e))) := by
  rw [exec_row h,
    Channel.trigger_empty (ch := s.cur.latch (s.cfg.coding.codeOf eff) e) hn hs hv]
  rfl

/-- What a row action can do: to the context, to the served channel (tremor only). -/
theorem rowAction_next {eff : Effect} {s t : State} (h : rowAction eff s = .next t) :
    (eff = .setSpeed ∧ (t = s ∨ ∃ x, s.ctx.setTempo s.cfg s.cur.evParam = .ok x ∧ t = { s with ctx := x })) ∨
    (eff = .posJump ∧ t = { s with ctx := { s.ctx with orderPos := s.cur.evParam } }) ∨
    (eff = .patBreak ∧ t = { s with ctx := s.ctx.requestPattern }) ∨
    (eff = .tremor ∧ t = s.setCur s.cur.doTremor) ∨
    (eff ≠ .setSpeed ∧ eff ≠ .posJump ∧ eff ≠ .patBreak ∧ eff ≠ .tremor ∧ t = s) := by
  cases eff
  case setSpeed =>
    left
    refine ⟨rfl, ?_⟩
    change setSpeedOnce s = .next t at h
    unfold setSpeedOnce at h
    split at h
    · cases h; exact .inl rfl
    · obtain ⟨x, hx, h⟩ := withValue_next.1 h
      cases h; exact .inr ⟨x, hx, rfl⟩
  all_goals cases h; simp [State.modCur]

/-- A row event whose trigger succeeds runs, a `SET_SPEED` if its parameter is 0 or its tempo has a positive
divisor: it writes the served channel and, for three commands, the context (R190, R240). -/
theorem exec_row_runs {s : State} {eff : Effect} {e : EventArgs} {ch : Channel} (h : s.seq = .row)
    (hc : (s.cur.latch (s.cfg.coding.codeOf eff) e).trigger s.cfg s.song s.ctx.rate
      (decide (eff = .tonePorta)) = .ok ch)
    (ht : eff = .setSpeed → e.param ≠ 0 → 0 < tempoDivisor s.cfg e.param) :
    ∃ t, exec (Instr.ofEvent eff e) s = .next t ∧
      t = { s with ctx := t.ctx, chans := s.chans.set s.chan t.cur } ∧
      t.cur = (if eff = .tremor then (ch.continuationReset eff).doTremor else ch.continuationReset eff) ∧
      (eff ≠ .setSpeed → eff ≠ .posJump → eff ≠ .patBreak → t.ctx = s.ctx) := by
  suffices key : ∃ x, rowAction eff (s.setCur (ch.continuationReset eff)) =
      .next { s.setCur (if eff = .tremor then (ch.continuationReset eff).doTremor
        else ch.continuationReset eff) with ctx := x } ∧
      (eff ≠ .setSpeed → eff ≠ .posJump → eff ≠ .patBreak → x = s.ctx) by
    obtain ⟨x, hx, hctx⟩ := key
    rw [exec_row h, hc, withValue_ok, hx]
    have served : ∀ c, State.cur { s.setCur c with ctx := x } = c := fun c => State.setCur_cur s c
    exact ⟨_, rfl, by rw [served]; rfl, served _, hctx⟩
  cases eff
  case setSpeed =>
    have hp : (ch.continuationReset .setSpeed).evParam = e.param := (Channel.trigger_frame hc).evParam
    simp only [rowAction, setSpeedOnce, State.setCur_cur, State.setCur_cfg, State.setCur_ctx, hp]
    split
    · exact ⟨_, rfl, fun h => absurd rfl h⟩
    · rename_i hne
      rw [show Context.setTempo s.cfg e.param s.ctx = _ from
        Context.setTempo_ok.2 ⟨ht rfl hne, rfl⟩]
      exact ⟨_, rfl, fun h => absurd rfl h⟩
  case posJump => exact ⟨_, rfl, fun _ h => absurd rfl h⟩
  case patBreak => exact ⟨_, rfl, fun _ _ h => absurd rfl h⟩
  case tremor => exact ⟨s.ctx, by simp [rowAction, tremorAction, channelAction]; rfl, fun _ _ _ => rfl⟩
  all_goals exact ⟨s.ctx, rfl, fun _ _ _ => rfl⟩

/-- What a per-tick action can do: it writes the served channel. -/
theorem tickAction_next {eff : Effect} {s t : State} (h : tickAction eff s = .next t) :
    ∃ ch, t = s.setCur ch ∧
      ((eff = .volSlide ∧ ch = s.cur.volumeSlide s.cur.evParam) ∨
       (eff = .portaDown ∧ ch = s.cur.slideDown s.cfg s.ctx.rate s.cur.evParam) ∨
       (eff = .portaUp ∧ ch = s.cur.slideUp s.cfg s.ctx.rate s.cur.evParam) ∨
       (eff = .tonePorta ∧ ch = s.cur.tonePortamento s.cfg s.ctx.rate s.cur.evParam) ∨
       (eff = .vibrato ∧ ch = s.cur.doVibrato s.cfg s.ctx.rate s.cur.evParam) ∨
       (eff = .tremor ∧ ch = s.cur.doTremor) ∨
       (eff = .arpeggio ∧ s.cur.arpeggio s.cfg s.ctx.rate s.ctx.tickCtr s.cur.evParam = .ok ch) ∨
       (eff = .volslideVib ∧
         ch = (s.cur.volumeSlide s.cur.evParam).doVibrato s.cfg s.ctx.rate 0) ∨
       (eff = .volslideTporta ∧
         ch = (s.cur.volumeSlide s.cur.evParam).tonePortamento s.cfg s.ctx.rate 0) ∨
       (eff ≠ .tremor ∧ eff ≠ .vibrato ∧ eff ≠ .volslideVib ∧ ch = s.cur)) := by
  cases eff
  case arpeggio =>
    obtain ⟨ch, hch, h⟩ := withValue_next.1 h
    exact ⟨ch, by simpa [eq_comm] using h, by simp [hch]⟩
  case noEffect => cases h; exact ⟨s.cur, by simp, by simp⟩
  case setSpeed => cases h; exact ⟨s.cur, by simp, by simp⟩
  case posJump => cases h; exact ⟨s.cur, by simp, by simp⟩
  case patBreak => cases h; exact ⟨s.cur, by simp, by simp⟩
  case rsv13 => cases h; exact ⟨s.cur, by simp, by simp⟩
  case rsv14 => cases h; exact ⟨s.cur, by simp, by simp⟩
  case rsv15 => cases h; exact ⟨s.cur, by simp, by simp⟩
  all_goals cases h; exact ⟨_, rfl, by simp⟩

/-- The latched event as an instruction (R210). -/
theorem fetchLatched_eq (s : State) :
    fetchLatched s = Instr.ofEvent (s.cfg.coding.effectOf s.cur.evCmd) s.cur.latchedArgs := rfl

/-- What is read from the order list is an order entry (R121). -/
theorem fetchOrder_format {s : State} {i : Instr} (h : fetchOrder s = .ok i) : i.format = .order := by
  have key : ∀ (cd : Coding) (b : BitVec 8) (j : Instr), decodeOrder cd b = .ok j → j.format = .order := by
    intro cd b j hj
    unfold decodeOrder at hj
    repeat' split at hj
    all_goals first | (cases hj; rfl) | cases hj
  unfold fetchOrder at h
  split at h
  · cases h
  · split at h
    · rename_i hd; cases h; exact key _ _ _ hd
    · cases h

/-- What is read from a request is an operation (R121). -/
theorem fetchOp_format {code : BitVec 3} {arg : BitVec 16} {i : Instr} (h : fetchOp code arg = .ok i) :
    i.format = .hostop := by
  have key : ∀ (c : BitVec 8) (j : Instr), decodeHostOp c arg = .ok j → j.format = .hostop := by
    intro c j hj
    unfold decodeHostOp at hj
    repeat' split at hj
    all_goals first | (cases hj; rfl) | cases hj
  unfold fetchOp at h
  split at h
  · rename_i hd; cases h; exact key _ _ hd
  · cases h

/-- What is read from a pattern is an event (R121). -/
theorem fetchEvent_ofEvent {s : State} {i : Instr} (h : fetchEvent s = .ok i) :
    ∃ eff e, i = Instr.ofEvent eff e := by
  unfold fetchEvent at h
  split at h
  · cases h
  · cases h; exact ⟨_, _, rfl⟩

/-- Counting a frame (R266): the boundary enters the tick event with the counter reloaded. -/
theorem State.countFrame_cases (s : State) :
    (s.ctx.frameCtr = 1 ∧
      s.countFrame =
        State.enterTick
          { s with ctx := { s.ctx with frameCtr := s.ctx.framesPerTick }, priming := false }) ∨
    (s.ctx.frameCtr ≠ 1 ∧
      s.countFrame = { s with ctx := { s.ctx with frameCtr := s.ctx.frameCtr - 1 } }) := by
  unfold State.countFrame; split <;> simp_all

/-- The meanings of the operations, once the request is legal (R298). -/
theorem onHost_legal {s : State} {legal : Bool} {act : State → Out} (h : s.seq = .host)
    (hl : legal = true) : onHost legal act s = act s := by
  simp [onHost, h, hl]

theorem onHost_illegal {s : State} {legal : Bool} {act : State → Out} (h : s.seq = .host)
    (hl : legal = false) : onHost legal act s = .refused .notStarted := by
  simp [onHost, h, hl]

theorem onHost_next {s t : State} {legal : Bool} {act : State → Out}
    (h : onHost legal act s = .next t) : s.seq = .host ∧ legal = true ∧ act s = .next t := by
  unfold onHost at h
  split at h
  · cases h
  · rename_i hs
    split at h
    · rename_i hl; exact ⟨not_not.1 hs, hl, h⟩
    · cases h

/-- The sessions in which START and DESTROY are legal (R298). -/
theorem Session.live_iff {x : Session} : x.live = true ↔ x = .created ∨ x = .started := by
  cases x <;> decide

/-- RENDER in a started session (R296). -/
theorem exec_render {s : State} (h : s.seq = .host) (hs : s.session = .started) :
    exec .render s =
      withValue (mixAll s.song s.chans) fun m =>
        finishOperation (State.countFrame { s with chans := m.chans, result := .sample (m.acc + 128) }) := by
  show execRender s = _
  unfold execRender
  rw [onHost_legal h (by simpa using hs)]

/-- START in a session (R292). -/
theorem exec_start {s : State} (h : s.seq = .host) (hs : s.session.live = true) (r : BitVec 16) :
    exec (.start r) s =
      withValue ((startContext s.cfg s.fresh r).setTempo s.cfg s.cfg.initTempo) fun x =>
        finishOperation
          (State.enterTick
            { s with
              chans := Vector.ofFn (startChannel s.fresh), ctx := { x with frameCtr := x.framesPerTick }
              fresh := s.fresh + 1, session := .started, result := .none, priming := true }) := by
  show execStart r s = _
  unfold execStart
  rw [onHost_legal h hs]

/-! ### What each operation did, if it answered a next state -/

theorem exec_create_next {s t : State} (h : exec .create s = .next t) :
    s.seq = .host ∧ s.session = .none ∧
      t = { s with
        song := s.given.song, cfg := s.given.cfg
        chans := Vector.ofFn (Config.freeChannel s.fresh), ctx := Config.freeContext s.fresh
        fresh := s.fresh + 1, session := .created, result := .none } := by
  change execCreate s = .next t at h
  unfold execCreate at h
  obtain ⟨h1, h2, h⟩ := onHost_next h
  cases h; exact ⟨h1, by simpa using h2, rfl⟩

theorem exec_start_next {s t : State} {r : BitVec 16} (h : exec (.start r) s = .next t) :
    s.seq = .host ∧ s.session.live = true ∧
      ∃ x, (startContext s.cfg s.fresh r).setTempo s.cfg s.cfg.initTempo = .ok x ∧
        finishOperation
          (State.enterTick
            { s with
              chans := Vector.ofFn (startChannel s.fresh), ctx := { x with frameCtr := x.framesPerTick }
              fresh := s.fresh + 1, session := .started, result := .none, priming := true }) = .next t := by
  change execStart r s = .next t at h
  unfold execStart at h
  obtain ⟨h1, h2, h⟩ := onHost_next h
  obtain ⟨x, hx, h⟩ := withValue_next.1 h
  exact ⟨h1, h2, x, hx, h⟩

theorem exec_setPosition_next {s t : State} {o : BitVec 8} (h : exec (.setPosition o) s = .next t) :
    s.seq = .host ∧ s.session = .started ∧
      t = { s with ctx := { s.ctx with orderPos := o, orderMark := o, chgPat := true }, result := .none } := by
  change execSetPosition o s = .next t at h
  unfold execSetPosition at h
  obtain ⟨h1, h2, h⟩ := onHost_next h
  cases h; exact ⟨h1, by simpa using h2, rfl⟩

theorem exec_queryPosition_next {s t : State} (h : exec .queryPosition s = .next t) :
    s.seq = .host ∧ s.session = .started ∧
      t = { s with result := .position (s.ctx.loopCtr ++ s.ctx.orderPos) } := by
  change execQueryPosition s = .next t at h
  unfold execQueryPosition at h
  obtain ⟨h1, h2, h⟩ := onHost_next h
  cases h; exact ⟨h1, by simpa using h2, rfl⟩

theorem exec_render_next {s t : State} (h : exec .render s = .next t) :
    s.seq = .host ∧ s.session = .started ∧
      ∃ m, mixAll s.song s.chans = .ok m ∧
        finishOperation (State.countFrame { s with chans := m.chans, result := .sample (m.acc + 128) }) =
          .next t := by
  change execRender s = .next t at h
  unfold execRender at h
  obtain ⟨h1, h2, h⟩ := onHost_next h
  obtain ⟨m, hm, h⟩ := withValue_next.1 h
  exact ⟨h1, by simpa using h2, m, hm, h⟩

theorem exec_destroy_next {s t : State} (h : exec .destroy s = .next t) :
    s.seq = .host ∧ s.session.live = true ∧ t = { s with session := .ended, result := .none } := by
  change execDestroy s = .next t at h
  unfold execDestroy at h
  obtain ⟨h1, h2, h⟩ := onHost_next h
  cases h; exact ⟨h1, h2, rfl⟩

theorem exec_pattern_next {s t : State} {n : BitVec 8} (h : exec (.pattern n) s = .next t) :
    n.toNat ≤ 97 ∧ n.toNat < s.song.nPatterns ∧
      t = { s with
        ctx := { s.ctx with pattern := n.setWidth 7, orderPos := s.ctx.orderPos + 1, chgPat := false }
        chans := onAll Channel.rewind s.chans, seq := .row, chan := 0 } := by
  change execPattern n s = .next t at h
  unfold execPattern at h
  split at h
  · cases h
  · cases h; refine ⟨by omega, by omega, rfl⟩

theorem wrapOrder_next {s t : State} {o : BitVec 8} (h : wrapOrder o s = .next t) :
    s.seq ≠ .orderAgain ∧
      t = { s with ctx := { s.ctx with orderPos := o, loopCtr := s.ctx.loopCtr + 1 }, seq := .orderAgain } := by
  unfold wrapOrder at h
  split at h
  · cases h
  · rename_i hs; cases h; exact ⟨hs, rfl⟩

end Sys2Proof.Machine
end

