-- ==== Sys2Proof/Laws/Memory.lean ====
section
/-! SUPPORT. The laws of the byte spaces: what a read gives after a write, and that every operation keeps the canonical
form. -/

namespace Sys2Proof.Machine

@[simp] theorem Memory.read_nil (sp : Space) (a : Nat) : Memory.read sp [] a = blankByte sp a := rfl

/-- A read after a write: the byte written at its address, the old byte anywhere else. -/
theorem Memory.read_write (sp : Space) (m : Memory) (a x : Nat) (b : BitVec 8)
    (h : m.Pairwise (fun p q => p.1 < q.1)) :
    Memory.read sp (Memory.write sp m a b) x = if x = a then b else Memory.read sp m x := by
  induction m with
  | nil =>
    simp only [Memory.write]
    split <;> rename_i hb <;> by_cases hx : x = a <;> simp [Memory.read, hx, hb]
  | cons c m ih =>
    obtain ⟨k, y⟩ := c
    rw [List.pairwise_cons] at h
    have blank : ∀ z, z ≤ k → Memory.read sp m z = blankByte sp z := by
      intro z hz
      have : ∀ p ∈ m, z ≠ p.1 := fun p hp => by have := h.1 p hp; simp at this; omega
      clear ih h
      induction m with
      | nil => rfl
      | cons p m ihm =>
        simp only [Memory.read]
        rw [if_neg (this p (by simp)), ihm (fun q hq => this q (by simp [hq]))]
    simp only [Memory.write]
    by_cases h1 : a < k
    · simp only [h1, if_true]
      by_cases hb : b = blankByte sp a
      · simp only [hb, if_true]
        by_cases hx : x = a
        · subst hx
          simp [Memory.read, Nat.ne_of_lt h1, blank x (by omega)]
        · simp [hx]
      · simp only [hb, if_false]
        by_cases hx : x = a
        · simp [Memory.read, hx]
        · simp [Memory.read, hx]
    · simp only [h1, if_false]
      by_cases h2 : a = k
      · subst h2
        simp only [if_true]
        by_cases hb : b = blankByte sp a
        · simp only [hb, if_true]
          by_cases hx : x = a
          · subst hx; simp [blank x (Nat.le_refl _)]
          · simp [Memory.read, hx]
        · simp only [hb, if_false]
          by_cases hx : x = a <;> simp [Memory.read, hx]
      · simp only [h2, if_false, Memory.read, ih h.2]
        by_cases hx : x = k
        · simp [hx, Ne.symm h2]
        · simp [hx]

/-- The entries of a written memory: old ones, or the one written, which is not blank. -/
theorem Memory.mem_write {sp : Space} {m : Memory} {a : Nat} {b : BitVec 8} {p : Host.Cell}
    (h : p ∈ Memory.write sp m a b) : p ∈ m ∨ (p = (a, b) ∧ b ≠ blankByte sp a) := by
  induction m with
  | nil =>
    simp only [Memory.write] at h
    split at h <;> simp_all
  | cons c m ih =>
    obtain ⟨k, y⟩ := c
    simp only [Memory.write] at h
    split at h
    · split at h <;> (simp_all; try tauto)
    · split at h
      · split at h
        · simp_all
        · simp_all; tauto
      · rcases List.mem_cons.1 h with h | h
        · simp [h]
        · rcases ih h with h | h <;> simp [h]

/-- Writing a byte keeps the canonical form. -/
theorem Memory.write_wf {sp : Space} {m : Memory} {a : Nat} {b : BitVec 8} (h : Memory.wf sp m) :
    Memory.wf sp (Memory.write sp m a b) := by
  refine ⟨?_, fun p hp => ?_⟩
  · have hs := h.1
    clear h
    induction m with
    | nil => simp only [Memory.write]; split <;> simp
    | cons c m ih =>
      obtain ⟨k, y⟩ := c
      rw [List.pairwise_cons] at hs
      simp only [Memory.write]
      split
      · rename_i hlt
        split
        · exact List.pairwise_cons.2 hs
        · refine List.pairwise_cons.2 ⟨fun p hp => ?_, List.pairwise_cons.2 hs⟩
          rcases List.mem_cons.1 hp with hp | hp
          · simpa [hp] using hlt
          · exact Nat.lt_trans hlt (hs.1 p hp)
      · split
        · rename_i heq
          split
          · exact hs.2
          · exact List.pairwise_cons.2 ⟨hs.1, hs.2⟩
        · refine List.pairwise_cons.2 ⟨fun p hp => ?_, ih hs.2⟩
          rcases Memory.mem_write hp with hp | ⟨hp, _⟩
          · exact hs.1 p hp
          · simp only [hp]; omega
  · rcases Memory.mem_write hp with hp | ⟨hp, hb⟩
    · exact h.2 p hp
    · simpa [hp] using hb

/-- Writing bytes in a row keeps the canonical form. -/
theorem Memory.writeBytes_wf {sp : Space} (bs : List (BitVec 8)) :
    ∀ {m : Memory} {a : Nat}, Memory.wf sp m → Memory.wf sp (Memory.writeBytes sp m a bs) := by
  induction bs with
  | nil => intro m a h; exact h
  | cons b bs ih => intro m a h; exact ih (Memory.write_wf h)

/-- The blank Song is in canonical form. -/
theorem Song.blank_wf : Song.wf .blank := by
  simp [Song.wf, Memory.wf, Song.blank]

end Sys2Proof.Machine
end

