-- ==== Sys2Proof/Laws/PerInstr.lean ====
section
/-! SUPPORT. Statements for all instructions, made one instruction at a time: the encoder gives every instruction exactly as
many bytes as its format has (R117: no variable-length form). -/

namespace Sys2Proof.Laws.EncodingSize

/-- The bytes of a format: four for an event (R117), one for a note or an order entry (R111), code and argument
for an operation (log entry 10). -/
def sizeOf : Format → Nat
  | .event => 4
  | .note => 1
  | .order => 1
  | .hostop => 3

/-- Whatever the command map and the sentinels, the encoding has its format's size. -/
def Statement (i : Instr) : Prop := ∀ cd : Coding, (encode cd i).length = sizeOf i.format

theorem noneCmd (e : EventArgs) : Statement (.noneCmd e) := fun _ => rfl
theorem setSpeed (e : EventArgs) : Statement (.setSpeed e) := fun _ => rfl
theorem posJump (e : EventArgs) : Statement (.posJump e) := fun _ => rfl
theorem patBreak (e : EventArgs) : Statement (.patBreak e) := fun _ => rfl
theorem volSlide (e : EventArgs) : Statement (.volSlide e) := fun _ => rfl
theorem portaDown (e : EventArgs) : Statement (.portaDown e) := fun _ => rfl
theorem portaUp (e : EventArgs) : Statement (.portaUp e) := fun _ => rfl
theorem tonePorta (e : EventArgs) : Statement (.tonePorta e) := fun _ => rfl
theorem vibrato (e : EventArgs) : Statement (.vibrato e) := fun _ => rfl
theorem tremor (e : EventArgs) : Statement (.tremor e) := fun _ => rfl
theorem arpeggio (e : EventArgs) : Statement (.arpeggio e) := fun _ => rfl
theorem volslideVib (e : EventArgs) : Statement (.volslideVib e) := fun _ => rfl
theorem volslideTporta (e : EventArgs) : Statement (.volslideTporta e) := fun _ => rfl
theorem rsv13 (e : EventArgs) : Statement (.rsv13 e) := fun _ => rfl
theorem rsv14 (e : EventArgs) : Statement (.rsv14 e) := fun _ => rfl
theorem rsv15 (e : EventArgs) : Statement (.rsv15 e) := fun _ => rfl
theorem noteCut : Statement .noteCut := fun _ => rfl
theorem noNote : Statement .noNote := fun _ => rfl
theorem note (b : BitVec 8) : Statement (.note b) := fun _ => rfl
theorem endMark : Statement .endMark := fun _ => rfl
theorem endZero : Statement .endZero := fun _ => rfl
theorem pattern (n : BitVec 8) : Statement (.pattern n) := fun _ => rfl
theorem create : Statement .create := fun _ => rfl
theorem start (rateArg : BitVec 16) : Statement (.start rateArg) := fun _ => rfl
theorem setPosition (order : BitVec 8) : Statement (.setPosition order) := fun _ => rfl
theorem queryPosition : Statement .queryPosition := fun _ => rfl
theorem render : Statement .render := fun _ => rfl
theorem destroy : Statement .destroy := fun _ => rfl

end Sys2Proof.Laws.EncodingSize
end

