-- ==== Sys2Proof/Laws/Run.lean ====
section
/-! SUPPORT. Running an operation through: what one instruction of a tick event can be, the steps of `runOn`, an induction over
it packaged once, and what a step of the machine can be. -/

namespace Sys2Proof.Machine

/-- Inside a tick event an instruction is run as `exec` runs it: an operation there is refused by both. -/
theorem runInside_eq_exec {s : State} (h : s.seq ≠ .host) (i : Instr) : runInside i s = exec i s := by
  cases i
  case create => exact (if_pos h).symm
  case start r => exact (if_pos h).symm
  case setPosition o => exact (if_pos h).symm
  case queryPosition => exact (if_pos h).symm
  case render => exact (if_pos h).symm
  case destroy => exact (if_pos h).symm
  all_goals rfl

/-- What one instruction of a tick event can be (R58): the sequencer's position decides. -/
theorem turn_cases (s : State) :
    (s.seq = .host ∧ turn s = .next s) ∨
    ((s.seq = .order ∨ s.seq = .orderAgain) ∧ turn s = withValue (fetchOrder s) fun i => exec i s) ∨
    (s.seq = .row ∧ s.cur.active = true ∧
      turn s = withValue (fetchEvent s) fun i => andThen (exec i s) fun t => .next t.advanceRow) ∨
    (s.seq = .row ∧ s.cur.active = false ∧ turn s = .next s.advanceRow) ∨
    (s.seq = .tick ∧ turn s = andThen (exec (fetchLatched s) s) fun t => .next t.advanceTick) := by
  by_cases h : s.seq = .host
  · exact .inl ⟨h, by simp [turn, h]⟩
  · simp only [turn, runInside_eq_exec h]
    cases hs : s.seq
    · exact absurd hs h
    · simp
    · simp
    · cases ha : s.cur.active <;> simp
    · simp

@[simp] theorem runOn_zero (s : State) : runOn 0 s = .next s := rfl

theorem runOn_succ {s : State} (h : s.seq ≠ .host) (k : Nat) :
    runOn (k + 1) s = andThen (turn s) (runOn k) := if_neg h

/-- A complete operation is not run on. -/
theorem runOn_done {s : State} (h : s.seq = .host) (k : Nat) : runOn k s = .next s := by
  cases k with
  | zero => rfl
  | succ k => exact if_pos h

theorem finishOperation_done {s : State} (h : s.seq = .host) : finishOperation s = .next s :=
  runOn_done h 6

theorem finishOperation_turn {s : State} (h : s.seq ≠ .host) :
    finishOperation s = andThen (turn s) (runOn 5) := runOn_succ h 5

/-- What every instruction of a tick event keeps, the rest of the operation keeps. -/
theorem runOn_keeps {P : State → Prop} (hturn : ∀ s t, P s → turn s = .next t → P t) {k : Nat}
    {s t : State} (hs : P s) (h : runOn k s = .next t) : P t := by
  induction k generalizing s with
  | zero => cases h; exact hs
  | succ k ih =>
    by_cases hq : s.seq = .host
    · rw [runOn_done hq] at h; cases h; exact hs
    · rw [runOn_succ hq] at h
      obtain ⟨u, hu, h⟩ := andThen_eq_next.1 h
      exact ih (hturn s u hs hu) h

theorem finishOperation_keeps {P : State → Prop} (hturn : ∀ s t, P s → turn s = .next t → P t)
    {s t : State} (hs : P s) (h : finishOperation s = .next t) : P t := runOn_keeps hturn hs h

/-- What a step can be (R290): a request served, nothing to do, or the rest of an operation. -/
theorem step_cases (s : State) :
    (s.seq = .host ∧ s.ops = [] ∧ step s = .next s) ∨
    (s.seq = .host ∧ ∃ r rest, s.ops = r :: rest ∧ step s = serve r { s with ops := rest }) ∨
    (s.seq ≠ .host ∧ step s = finishOperation s) := by
  unfold step
  by_cases h : s.seq = .host
  · rw [if_pos h]
    unfold serveNext
    cases ho : s.ops <;> simp [h]
  · rw [if_neg h]; exact .inr (.inr ⟨h, rfl⟩)

theorem step_inside {s : State} (h : s.seq ≠ .host) : step s = finishOperation s := if_neg h

theorem step_request {s : State} {r : Request} {rest : List Request} (h : s.seq = .host)
    (ho : s.ops = r :: rest) : step s = serve r { s with ops := rest } := by
  simp [step, serveNext, h, ho]

end Sys2Proof.Machine
end

