-- ==== Sys2Proof/Tests/Slice0.lean ====
section
/-! SUPPORT. Tests. Expected results come from spec 95_test_vectors.md (the group is named at each test) or are worked by hand
from the rule named. The last part shows for every statement with hypotheses a concrete state and operands that meet them. -/

open Sys2Proof
open Sys2Proof.Machine

namespace Sys2Proof.Tests

/-! ### Small states -/

/-- The next state of an outcome. -/
def next? (o : Out) : Option State :=
  match o with
  | .next s => some s
  | .fault _ => none
  | .refused _ => none

/-- The refusal of an outcome. -/
def stop? (o : Out) : Option Refusal :=
  match o with
  | .next _ => none
  | .fault _ => none
  | .refused r => some r

/-- The channel of V8: sounding sample 1 at note 0x20. -/
def sounding : Channel :=
  { Channel.start with
    waveSlot := 1, c2spd := 8448, sampleBound := true, loopStart := 0, loopEnd := 64, loopEn := true
    periodCur := 4270, periodTgt := 4270, step := 0x00010000, pos := 0x00123456
    volCur := 64, volInit := 64, lastNote := 0x20, notePlayed := true }

/-- The samples 1, 2 and 5 of V8. -/
def samples : Vector SampleDesc 31 :=
  Vector.ofFn fun i =>
    if i = 0 then ⟨64, 0, 64, 64, 8448⟩ else if i = 1 then ⟨6, 2, 5, 32, 16896⟩
    else if i = 4 then ⟨0, 0, 0xFFFF, 0, 8448⟩ else .absent

/-- The Song of V8, with the order list `[0, 1, 98]` and one waveform byte 0x28 in slot 1, frame 0x12. -/
def song : Song :=
  { Song.blank with
    smp := samples, ord := [(1, 1), (2, 98)], orderLen := 3, wave := [(65536 + 0x12, 0x28)] }

/-- A started session at rate 8447 with every channel `ch`, standing at `sq`, channel 0. -/
def standing (sq : Seq) (ch : Channel) : State :=
  { State.reset with
    chans := Vector.replicate 4 ch, song := song, seq := sq, priming := false
    ctx := { State.reset.ctx with rate := 8447, chgPat := false } }

/-- A channel with its latched event blanked, so that the registers an event changed can be compared. -/
def quiet (ch : Channel) : Channel := ch.latch 0 ⟨255, 0, 65, 0⟩

/-- The channel after an event word ran in a row event on `ch`. -/
def row (w : BitVec 32) (ch : Channel) : Option Channel :=
  (next? (exec (decodeEvent .standard w) (standing .row ch))).map fun t => quiet t.cur

/-- The same channel with a command and parameter latched. -/
def latched (cmd : BitVec 4) (p : BitVec 8) (ch : Channel) : Channel := ch.latch cmd ⟨255, 0, 65, p⟩

/-- A per-tick event about to serve a channel on which a command is latched. -/
def ticking (cmd : BitVec 4) (p : BitVec 8) (ch : Channel) : State := standing .tick (latched cmd p ch)

/-- The channel after a latched command ran in a per-tick event. -/
def tick (cmd : BitVec 4) (p : BitVec 8) (ch : Channel) : Option Channel :=
  (next? (exec (fetchLatched (ticking cmd p ch)) (ticking cmd p ch))).map fun t => quiet t.cur

/-- A session between operations, with requests to come. -/
def hosted (ops : List Request) : State := { standing .host sounding with ops := ops }

/-! ### Well-formedness: an ill-formed term for each check -/

theorem test_wf_note_semitone : legalNote 5 0x2C = false := by decide
theorem test_wf_note_octave : legalNote 5 0x50 = false := by decide
theorem test_wf_note_cut : legalNote 5 254 = true := by decide
theorem test_wf_event_note : (Instr.noneCmd ⟨0x0C, 0, 65, 0⟩).wf 5 = false := by decide
theorem test_wf_event_volume : (Instr.portaUp ⟨0x20, 0, 66, 0⟩).wf 5 = false := by decide
theorem test_wf_note_row : (Instr.note 0x2F).wf 5 = false := by decide
theorem test_wf_note_encodable : (Instr.note 254).encodable = false := by decide
theorem test_wf_pattern_encodable : (Instr.pattern 98).encodable = false := by decide
theorem test_wf_coding_standard : Coding.standard.wf = true := by decide
theorem test_wf_coding_missing_effect :
    Coding.wf { Coding.standard with cmdMap := Coding.standard.cmdMap.set 1 .noEffect } = false := by
  decide
theorem test_wf_coding_zero_is_none :
    Coding.wf
      { Coding.standard with
        cmdMap := (Coding.standard.cmdMap.set 0 .setSpeed).set 1 .noEffect } = false := by decide
theorem test_wf_coding_sentinels : Coding.wf { Coding.standard with sentinelZero := 98 } = false := by decide
theorem test_wf_cfg_octaves : Cfg.wf { Cfg.test with nOctaves := 1 } = false := by decide
theorem test_wf_cfg_tempo : Cfg.wf { Cfg.test with tempoTable := Cfg.test.tempoTable.set 6 7 } = false := by
  decide
theorem test_wf_cfg_lfo_end : Cfg.wf { Cfg.test with lfo := Cfg.test.lfo.set 64 1 } = false := by decide
theorem test_wf_cfg_lfo_symmetry : Cfg.wf { Cfg.test with lfo := Cfg.test.lfo.set 3 75 } = false := by decide
theorem test_wf_cfg_rate : Cfg.wf { Cfg.test with defaultRate := 0 } = false := by decide
theorem test_wf_cfg_gvol : Cfg.wf { Cfg.test with initGvol := 65 } = false := by decide
theorem test_wf_cfg_coding :
    Cfg.wf { Cfg.test with coding := { Coding.standard with sentinelMark := 99 } } = false := by decide

/-! ### Decoding: a word written out from the encoding for every constructor (V1, R109, R111, R120) -/

theorem test_decode_none : decodeTableWord 32 0x00800920 = some (.noneCmd ⟨0x20, 1, 65, 0⟩) := by decide
theorem test_decode_setSpeed : decodeTableWord 32 0x308101FF = some (.setSpeed ⟨0xFF, 0, 65, 0x30⟩) := by decide
theorem test_decode_posJump : decodeTableWord 32 0x028201FF = some (.posJump ⟨0xFF, 0, 65, 2⟩) := by decide
theorem test_decode_patBreak : decodeTableWord 32 0x008301FF = some (.patBreak ⟨0xFF, 0, 65, 0⟩) := by decide
theorem test_decode_volSlide : decodeTableWord 32 0x03541020 = some (.volSlide ⟨0x20, 2, 40, 3⟩) := by decide
theorem test_decode_portaDown : decodeTableWord 32 0x058501FF = some (.portaDown ⟨0xFF, 0, 65, 5⟩) := by decide
theorem test_decode_portaUp : decodeTableWord 32 0x78563412 = some (.portaUp ⟨0x12, 6, 44, 0x78⟩) := by decide
theorem test_decode_tonePorta : decodeTableWord 32 0x08870124 = some (.tonePorta ⟨0x24, 0, 65, 8⟩) := by decide
theorem test_decode_vibrato : decodeTableWord 32 0x428801FF = some (.vibrato ⟨0xFF, 0, 65, 0x42⟩) := by decide
theorem test_decode_tremor : decodeTableWord 32 0x10891920 = some (.tremor ⟨0x20, 3, 65, 0x10⟩) := by decide
theorem test_decode_arpeggio : decodeTableWord 32 0x478A01FF = some (.arpeggio ⟨0xFF, 0, 65, 0x47⟩) := by decide
theorem test_decode_volslideVib :
    decodeTableWord 32 0x028B01FF = some (.volslideVib ⟨0xFF, 0, 65, 2⟩) := by decide
theorem test_decode_volslideTporta :
    decodeTableWord 32 0x048C01FF = some (.volslideTporta ⟨0xFF, 0, 65, 4⟩) := by decide
theorem test_decode_rsv13 : decodeTableWord 32 0x558D01FF = some (.rsv13 ⟨0xFF, 0, 65, 0x55⟩) := by decide
theorem test_decode_rsv14 : decodeTableWord 32 0x000E00FF = some (.rsv14 ⟨0xFF, 0, 0, 0⟩) := by decide
theorem test_decode_rsv15 : decodeTableWord 32 0xFF8FF8FF = some (.rsv15 ⟨0xFF, 31, 64, 0xFF⟩) := by decide
theorem test_decode_noteCut : decodeTableWord 8 0xFE = some .noteCut := by decide
theorem test_decode_noNote : decodeTableWord 8 0xFF = some .noNote := by decide
theorem test_decode_note : decode .standard .note [0x1B] = .ok (.note 0x1B) := by decide
theorem test_decode_endMark : decodeTableWord 8 98 = some .endMark := by decide
theorem test_decode_endZero : decodeTableWord 8 99 = some .endZero := by decide
theorem test_decode_pattern : decode .standard .order [97] = .ok (.pattern 97) := by decide
theorem test_decode_create : decodeTableWord 8 0 = some .create := by decide
theorem test_decode_start : decode .standard .hostop [1, 0x44, 0xAC] = .ok (.start 44100) := by decide
theorem test_decode_setPosition : decode .standard .hostop [2, 5, 0] = .ok (.setPosition 5) := by decide
theorem test_decode_queryPosition : decodeTableWord 8 3 = some .queryPosition := by decide
theorem test_decode_render : decodeTableWord 8 4 = some .render := by decide
theorem test_decode_destroy : decodeTableWord 8 5 = some .destroy := by decide

theorem test_decode_reserved_order : decode .standard .order [100] = .error (.reservedOrder 100) := by decide
theorem test_decode_reserved_code : decode .standard .hostop [6, 0, 0] = .error (.reservedOperation 6) := by
  decide
theorem test_decode_length : decode .standard .event [0xFF, 1, 0x80] = .error .wrongLength := by decide

/-! ### Tables (V2, V3, V4, V9; S13) -/

theorem test_table_volume : volLut 1 0xFF = 0xFF ∧ volLut 64 0x80 = 0xE0 ∧ volLut 17 0xC0 = 0xFB := by decide
theorem test_table_period :
    periodOf .test 0x4B 8448 = .ok 569 ∧ periodOf .test 0x20 16896 = .ok 2135 ∧
    periodOf .test 0x50 8448 = .error .invalidNote := by decide
theorem test_table_tempo :
    tempoDivisor .test 0x6F = 45 ∧ tempoDivisor .test 0x1F = 4 ∧ tempoDivisor .test 0x0F = -81 := by decide
theorem test_table_step :
    frequencyStep .test 44100 551 = 0x00017C09 ∧ frequencyStep .test 1 551 = 0xFFBB0000 ∧
    frequencyStep .test 8000 550 = 0 := by decide
theorem test_table_mix : mixVolume 48 40 = 30 ∧ mixVolume 1 63 = 0 ∧ mixVolume 33 33 = 17 := by decide

/-! ### Row events (V6, V8) -/

theorem test_row_empty : row 0x008001FF sounding = some sounding := by decide
theorem test_row_explicit_volume :
    row 0x002004FF sounding = some { sounding with volCur := 20, volInit := 20 } := by decide
theorem test_row_rebind_and_note :
    row 0x00801120 sounding = some
      { sounding with
        waveSlot := 2, c2spd := 16896, loopStart := 2, loopEnd := 5, volCur := 32, volInit := 32
        periodCur := 2135, periodTgt := 2135, pos := 0, step := 0x00020007 } := by decide
theorem test_row_empty_sample_cuts :
    row 0x00802920 sounding = some
      { sounding with
        waveSlot := 5, loopEnd := 0, loopEn := false, volCur := 0, volInit := 0, pos := 0 } := by decide
theorem test_row_tonePorta_keeps_pitch :
    row 0x08871124 sounding = some
      { sounding with
        periodTgt := 3416, waveSlot := 2, c2spd := 16896, loopStart := 2, loopEnd := 5
        volCur := 32, volInit := 32 } := by decide
theorem test_row_cut_under_tonePorta : row 0x008701FE sounding = some sounding := by decide
theorem test_row_cut :
    row 0x008001FE sounding = some
      { sounding with pos := 0, loopEn := false, loopStart := 0, loopEnd := 0 } := by decide
theorem test_row_invalid_volume :
    stop? (exec (decodeEvent .standard 0x00800220) (standing .row sounding)) = some .invalidVolume := by
  decide
theorem test_row_invalid_note :
    stop? (exec (decodeEvent .standard 0x0080012C) (standing .row sounding)) = some .invalidNote := by
  decide
theorem test_row_none_resets :
    row 0x008001FF { sounding with tremorState := true, tremorCtr := 3, vibPhase := 0x10 } =
      some sounding := by decide
theorem test_row_rsv14_resets : row 0x008E01FF { sounding with vibPhase := 0x10 } = some sounding := by decide
theorem test_row_rsv15_resets : row 0x558F01FF { sounding with vibPhase := 0x10 } = some sounding := by decide
theorem test_row_rsv13_resets : row 0x558D01FF { sounding with vibPhase := 0x10 } = some sounding := by decide
theorem test_row_volslideVib_keeps_phase :
    row 0x028B01FF { sounding with vibPhase := 0x10 } = some { sounding with vibPhase := 0x10 } := by decide
theorem test_row_volslideTporta_resets_phase :
    row 0x028C01FF { sounding with vibPhase := 0x10 } = some sounding := by decide
theorem test_row_setSpeed :
    (next? (exec (decodeEvent .standard 0x408101FF) (standing .row sounding))).map
      (fun t => (t.ctx.tempo, t.ctx.ticksPerRow, t.ctx.framesPerTick)) = some (0x40, 4, 168) := by decide
theorem test_row_posJump :
    (next? (exec (decodeEvent .standard 0x058201FF) (standing .row sounding))).map
      (fun t => (t.ctx.orderPos, t.ctx.chgPat)) = some (5, false) := by decide
theorem test_row_patBreak :
    (next? (exec (decodeEvent .standard 0x7F8301FF) (standing .row sounding))).map
      (fun t => t.ctx.chgPat) = some true := by decide
theorem test_row_tremor_from_idle :
    row 0x218901FF { sounding with volInit := 40 } =
      some { sounding with volInit := 40, volCur := 40, tremorState := true, tremorCtr := 2 } := by decide

/-! ### Notes (V8) -/

theorem test_note_plays :
    (next? (exec (.note 0x24) (standing .row sounding))).map (·.cur) = some
      { sounding with
        lastNote := 0x24, periodCur := 3416, periodTgt := 3416, pos := 0, step := 0x00014001 } := by decide
theorem test_note_before_any_sample :
    stop? (exec (.note 0x24) (standing .row .start)) = some .unboundSample := by decide
theorem test_noteCut_cuts :
    (next? (exec .noteCut (standing .row sounding))).map (·.cur) = some
      { sounding with pos := 0, loopEn := false, loopStart := 0, loopEnd := 0 } := by decide
theorem test_noNote_keeps :
    next? (exec .noNote (standing .row sounding)) = some (standing .row sounding) := by decide

/-! ### Per-tick events (V7) -/

theorem test_tick_volSlide_down : tick 4 0x52 { sounding with volCur := 30 } =
    some { sounding with volCur := 28 } := by decide
theorem test_tick_volSlide_up : tick 4 0x30 { sounding with volCur := 63 } = some sounding := by decide
theorem test_tick_tremor_off : tick 9 0x21 { sounding with tremorState := true } =
    some { sounding with volCur := 0, tremorCtr := 1 } := by decide
theorem test_tick_tonePorta : tick 7 0x10 { sounding with periodTgt := 4030 } =
    some { sounding with
      periodTgt := 4030, periodCur := 4110, tportaMem := 0x10, step := 0x000109F8 } := by decide
theorem test_tick_tonePorta_clamps :
    (tick 7 0 { sounding with periodCur := 4190, periodTgt := 4300, tportaMem := 0x10 }).map
      (fun c => (c.periodCur, c.tportaMem)) = some (4300, 0x10) := by decide
theorem test_tick_vibrato : tick 8 0x42 { sounding with periodTgt := 3416, vibPhase := 0x08 } =
    some { sounding with
      periodTgt := 3416, periodCur := 3419, vibMem := 0x42, vibPhase := 0x10, step := 0x00013FBC } := by
  decide
theorem test_tick_vibrato_negative :
    (tick 8 0x14 { sounding with periodTgt := 3416, vibPhase := 0x60 }).map (·.periodCur) = some 3400 := by
  decide
theorem test_tick_portaUp_wraps :
    (tick 6 0xFF { sounding with periodCur := 100 }).map (·.periodCur) = some 63086 := by decide
theorem test_tick_portaDown_wraps :
    (tick 5 4 { sounding with periodCur := 65500 }).map (fun c => (c.periodCur, c.step)) = some (4, 0) := by
  decide
theorem test_tick_arpeggio_before_any_note :
    stop? (exec (.arpeggio ⟨255, 0, 65, 0x04⟩) (ticking 10 0x04 .start)) = some .noLastNote := by decide
theorem test_tick_arpeggio_carry :
    (tick 10 0x03 { sounding with lastNote := 0x1B }).map (·.periodCur) = some 3796 := by decide
theorem test_tick_arpeggio_range :
    stop? (exec (fetchLatched (ticking 10 0x0F { sounding with lastNote := 0x1B }))
      (ticking 10 0x0F { sounding with lastNote := 0x1B })) = some .arpeggioRange := by decide
theorem test_tick_volslideTporta : tick 12 0x04 { sounding with periodTgt := 4030, tportaMem := 0x10 } =
    some { sounding with
      volCur := 60, periodTgt := 4030, periodCur := 4110, tportaMem := 0x10, step := 0x000109F8 } := by
  decide
theorem test_tick_volslideVib :
    (tick 11 0x20 { sounding with volCur := 10, vibMem := 0x24, vibPhase := 0x08, periodTgt := 3416 }).map
      (fun c => (c.volCur, c.periodCur, c.vibPhase, c.vibMem)) = some (12, 3422, 0x0C, 0x24) := by decide
theorem test_tick_setSpeed_does_nothing : tick 1 0x30 sounding = some sounding := by decide

/-! ### The order list and the host (V5, V11) -/

theorem test_order_pattern :
    (next? (exec (.pattern 1) { standing .order sounding with ctx := { State.reset.ctx with orderPos := 1 } })).map
      (fun t => (t.ctx.pattern, t.ctx.orderPos, t.ctx.chgPat, t.seq)) = some (1, 2, false, .row) := by decide
/-- The sentinel at position 2 leads to position 1, whose pattern 1 is played to the row's end (R165). -/
theorem test_order_endMark :
    (next? (step { standing .order sounding with
      ctx := { State.reset.ctx with orderPos := 2, orderMark := 1, loopCtr := 255 } })).map
      (fun t => (t.ctx.orderPos, t.ctx.pattern, t.ctx.loopCtr, t.seq)) = some (2, 1, 0, .host) := by decide
theorem test_order_endZero_twice : stop? (exec .endZero (standing .orderAgain sounding)) =
    some .invalidOrderEntry := by decide
theorem test_order_out_of_range :
    stop? (step { standing .order sounding with ctx := { State.reset.ctx with orderPos := 3 } }) =
      some .orderOutOfRange := by decide
/-- CREATE binds the Song and `cfg` the loader presented before it (R291). -/
theorem test_host_create :
    ((next? (step { hosted [.load song Cfg.test, .op 0 0] with session := .none, song := .blank })).bind
      fun t => next? (step t)).map (fun t => (t.session, t.song, t.seq)) =
      some (.created, song, .host) := by decide
theorem test_host_start :
    (next? (step (hosted [.op 1 0]))).map
      (fun t => (t.ctx.rate, t.ctx.framesPerTick, t.ctx.orderPos, t.ctx.tickCtr, t.seq)) =
      some (8000, 160, 1, 5, .host) := by decide
theorem test_host_setPosition :
    (next? (step (hosted [.op 2 2]))).map
      (fun t => (t.ctx.orderPos, t.ctx.orderMark, t.ctx.chgPat)) = some (2, 2, true) := by decide
theorem test_host_query :
    (next? (exec .queryPosition { hosted [] with ctx := { State.reset.ctx with loopCtr := 1, orderPos := 2 } })).map
      (·.result) = some (.position 0x0102) := by decide
/-- One channel at mix volume 64 on byte 0x28 gives 138 (V10, step 0 line); the others are silent. -/
theorem test_host_render :
    (next? (exec .render
      { hosted [] with
        chans := (Vector.replicate 4 Channel.start).set 0 { sounding with volMix := 64 } })).map
      (fun t => (t.result, (t.channel 0).pos)) = some (.sample 138, 0x00133456) := by decide
theorem test_host_destroy : (next? (exec .destroy (hosted []))).map (·.session) = some .ended := by decide
/-- DESTROY ends the run: CREATE is refused too (R297, R314). -/
theorem test_host_create_after_destroy :
    ((next? (step (hosted [.op 5 0, .op 0 0]))).bind fun t => stop? (step t)) = some .notStarted := by decide
/-- A RENDER at the frame boundary runs its row event in the same step (R290, R296). -/
theorem test_host_render_boundary :
    (next? (exec .render { hosted [] with ctx := { (hosted []).ctx with frameCtr := 1 } })).map
      (fun t => (t.ctx.frameCtr, t.ctx.tickCtr, (t.channel 3).rowCtr, t.seq)) =
      some (160, 5, 1, .host) := by decide
theorem test_host_overlap : stop? (exec .render (standing .tick sounding)) = some .overlap := by decide
theorem test_host_render_before_start :
    stop? (exec .render { hosted [] with session := .created }) = some .notStarted := by decide

/-! ### A word placed where the machine fetches runs as the first instruction after reset -/

theorem test_first_event : (next? (step (State.reset.withFetchWord 32 0x058201FF))).map
    (fun t => (t.ctx.orderPos, t.seq)) = some (5, .host) := by decide
theorem test_first_note : (next? (step (State.reset.withFetchWord 8 0x24))).isSome = true := by decide
theorem test_first_order : (next? (step (State.reset.withFetchWord 8 99))).map
    (fun t => (t.ctx.loopCtr, t.seq)) = some (1, .host) := by decide
theorem test_first_mark : (next? (step (State.reset.withFetchWord 8 98))).map
    (fun t => (t.ctx.loopCtr, t.seq)) = some (1, .host) := by decide
theorem test_first_operation : (next? (step (State.reset.withFetchWord 8 4))).map (·.result) =
    some (.sample 128) := by decide
theorem test_first_create : (next? (step (State.reset.withFetchWord 8 0))).map (·.session) =
    some .created := by decide

/-! ### Witnesses: states and operands that meet the hypotheses of the statements -/

/-- The other assignment of the sentinels, legal as well (R111). -/
def swapped : Coding := { Coding.standard with sentinelMark := 99, sentinelZero := 98 }

/-- An event with no note, no sample and no explicit volume. -/
def plain (p : BitVec 8) : EventArgs := ⟨255, 0, 65, p⟩

theorem witness_EventEncodingIsABijection : Coding.standard.wf = true ∧ swapped.wf = true := by decide

theorem witness_EveryInstructionDecodesFromItsEncoding :
    swapped.wf = true ∧ (Instr.note 253).encodable = true ∧ (Instr.pattern 97).encodable = true ∧
    (Instr.start 0xFFFF).encodable = true := by decide

theorem witness_OrderBytesDecodeByRange :
    swapped.wf = true ∧ (97#8).toNat ≤ 97 ∧ 99 = swapped.sentinelMark ∧ 98 = swapped.sentinelZero ∧
    100 ≤ (100#8).toNat := by decide

theorem witness_VolumeTableIsTheFloor : (64#7).toNat ≤ 64 ∧ (0#7).toNat ≤ 64 := by decide

theorem witness_PeriodsComeFromTheConfiguration :
    11 < 12 ∧ Cfg.test.notePeriod = .rescale 8448 ∧ (16896#16) ≠ 0 ∧
    0x4B % 16 ≤ 11 ∧ 0x4B / 16 < Cfg.test.nOctaves ∧
    notePeriodAt .test (ptab .test (0x4B / 16) (0x4B % 16)) 8448 = some 569 := by decide

/-- `cfg.NOTE_PERIOD` as two points, of which the second repeats the argument of the first. -/
def tabled : List PeriodRow := [⟨4270, 8448, 4270⟩, ⟨4270, 8448, 1⟩]

theorem witness_PeriodsComeFromTheConfiguration_table :
    { Cfg.test with notePeriod := .table tabled }.notePeriod = .table tabled ∧
    tabled = [] ++ ⟨4270, 8448, 4270⟩ :: [⟨4270, 8448, 1⟩] ∧
    ∀ r ∈ tabled, ¬ (r.tv = 4270 ∧ r.c2spd = 16896) := by decide

theorem witness_FrequencyStepIsTwoStage :
    (1#16) ≠ 0 ∧ 551 ≤ (551#16).toNat ∧ (550#16).toNat < 551 := by decide

theorem witness_StepRunsTheDecodedInstruction_host :
    (hosted [.op 4 0]).seq = .host ∧ (hosted [.op 4 0]).ops = [.op 4 0] ∧
    decodeHostOp ((4#3).setWidth 8) 0 = .ok .render := by decide

theorem witness_StepRunsTheDecodedInstruction_order :
    (standing .order sounding).seq = .order ∧ (standing .orderAgain sounding).seq = .orderAgain ∧
    (standing .order sounding).ctx.orderPos.toNat < (standing .order sounding).song.orderLen ∧
    decodeOrder (standing .order sounding).cfg.coding
      (Memory.read .ord (standing .order sounding).song.ord (standing .order sounding).ctx.orderPos.toNat) =
      .ok (.pattern 0) := by decide

theorem witness_StepRunsTheDecodedInstruction_row :
    (standing .row sounding).seq = .row ∧ (standing .row sounding).cur.active = true ∧
    (standing .row sounding).ctx.pattern.toNat < (standing .row sounding).song.nPatterns ∧
    (standing .row sounding).cur.rowCtr.toNat < 64 ∧
    0 = 1024 * (standing .row sounding).ctx.pattern.toNat + 16 * (standing .row sounding).cur.rowCtr.toNat +
      4 * (standing .row sounding).chan.val ∧
    decodeEvent (standing .row sounding).cfg.coding
      (Memory.read .pat (standing .row sounding).song.pat 3 ++
        Memory.read .pat (standing .row sounding).song.pat 2 ++
        Memory.read .pat (standing .row sounding).song.pat 1 ++
        Memory.read .pat (standing .row sounding).song.pat 0) = .noneCmd ⟨255, 0, 65, 0⟩ ∧
    (standing .row { sounding with active := false }).cur.active = false := by decide

theorem witness_StepRunsTheDecodedInstruction_tick :
    (ticking 8 0x42 sounding).seq = .tick ∧
    Instr.ofEvent ((ticking 8 0x42 sounding).cfg.coding.effectOf (ticking 8 0x42 sounding).cur.evCmd)
      ⟨(ticking 8 0x42 sounding).cur.evNote, (ticking 8 0x42 sounding).cur.evSmp,
        (ticking 8 0x42 sounding).cur.evVol, (ticking 8 0x42 sounding).cur.evParam⟩ =
      .vibrato (plain 0x42) := by decide

theorem witness_StepsNeverChangeTheSong : (next? (step State.reset)).isSome = true := by decide

theorem witness_NoInstructionStores :
    (next? (exec (.posJump (plain 2)) (standing .row sounding))).isSome = true := by decide

theorem witness_OperationsNeverOverlap :
    (standing .row sounding).seq ≠ .host ∧ (next? (step (standing .row sounding))).isSome = true := by decide

theorem witness_EveryStepCompletesItsOperation :
    (next? (step State.reset)).map (·.seq) = some .host ∧
    (next? (step (hosted [.op 1 0]))).map (·.seq) = some .host := by decide

/-- At the frame boundary, so that a tick event follows. -/
def boundary (ops : List Request) : State :=
  { hosted ops with ctx := { (hosted ops).ctx with frameCtr := 1 } }

theorem witness_RenderIsTheAtomicProcedure :
    (boundary []).cfg.coding.wf = true ∧ (boundary []).seq = .host ∧ (boundary []).session = .started := by
  decide

theorem witness_StartIsTheAtomicProcedure :
    (hosted []).cfg.coding.wf = true ∧ (hosted []).seq = .host ∧ (hosted []).session = .started := by decide

/-- The state after reset, standing at a channel of a tick event, or between operations with requests. -/
def ready (sq : Seq) (c : Fin 4) (ops : List Request) : State :=
  { State.reset with
    seq := sq, chan := c, ops := ops, ctx := { State.reset.ctx with frameCtr := 1 } }

theorem ready_inv (sq : Seq) (c : Fin 4) (ops : List Request)
    (h : ∀ g k, Request.load g k ∉ ops) : Inv (ready sq c ops) := by
  have legal : Binding.Legal ⟨.blank, .test⟩ := ⟨by decide, Song.blank_wf⟩
  have inRange : ∀ d, ChannelInv .test 8000 (State.reset.channel d) := by unfold ChannelInv; decide
  have rows : ∀ d, (State.reset.channel d).rowCtr.toNat < 64 := by decide
  have loud : (64#7).toNat ≤ 64 := by decide
  have rate : (8000#16) ≠ 0 := by decide
  exact ⟨legal, legal, fun g k hm => absurd hm (h g k), fun _ => rfl,
    fun _ => ⟨inRange, loud, rate, fun _ _ => rfl, fun _ d _ => rows d⟩⟩

theorem witness_StepKeepsTheInvariant :
    Inv (ready .row 3 []) ∧ (next? (step (ready .row 3 []))).isSome = true ∧
    Inv (ready .host 0 [.op 4 0]) ∧ (next? (step (ready .host 0 [.op 4 0]))).isSome = true :=
  ⟨ready_inv _ _ _ (by simp), by decide, ready_inv _ _ _ (by simp), by decide⟩

theorem witness_StepKeepsLoopsInsideWaveforms :
    SamplesLegal (standing .row sounding).song ∧ LoopInv (standing .row sounding) ∧
    (next? (step (standing .row sounding))).isSome = true := by
  refine ⟨?_, fun _ => by decide, by decide⟩
  unfold SamplesLegal DescLegal; decide

theorem witness_CreateMakesASession :
    (hosted []).seq = .host ∧ { hosted [] with session := .none }.session = .none ∧
    { hosted [] with session := .ended }.session ≠ .none ∧ (hosted []).session ≠ .none := by decide

theorem witness_StartWritesTheStartValues :
    (hosted []).cfg.coding.wf = true ∧ (hosted []).seq = .host ∧ (hosted []).session = .started ∧
    0 < tempoDivisor (hosted []).cfg (hosted []).cfg.initTempo ∧
    (hosted []).song.orderAt 0 = .ok 0 ∧ (0#8).toNat < (hosted []).song.nPatterns ∧
    (∀ c : Fin 4, (hosted []).song.eventAt ((0#8).setWidth 7) (eventOffset 0 c) = .ok 0x008001FF) ∧
    (next? (exec (.start 0) (hosted []))).isSome = true := by decide

theorem witness_SetPositionSeeks : (hosted []).seq = .host ∧ (hosted []).session = .started := by decide

theorem witness_QueryPacksLoopAndOrder : (hosted []).seq = .host ∧ (hosted []).session = .started := by
  decide

theorem witness_DestroyEndsTheSession :
    (hosted []).seq = .host ∧ { hosted [] with session := .created }.session = .created ∧
    (hosted []).session = .started := by decide

theorem witness_OutOfSequenceIsRefused :
    (hosted []).seq = .host ∧ { hosted [] with session := .created }.session ≠ .started ∧
    { hosted [] with session := .none }.session = .none ∧
    { hosted [] with session := .ended }.session = .ended ∧ (hosted []).session ≠ .none ∧
    (hosted [.op 6 0]).seq = .host ∧ (hosted [.op 6 0]).ops = [.op 6 0] ∧ 6 ≤ (6#3).toNat ∧
    6 ≤ (7#3).toNat := by decide

theorem witness_ControlBitsAreHostWritable :
    (hosted []).seq = .host ∧ (hosted []).session = .started ∧
    (hosted [.setSingleRow true]).ops = [.setSingleRow true] ∧
    (hosted [.setActive 3 false]).ops = [.setActive 3 false] ∧
    (hosted [.writeOther]).ops = [.writeOther] ∧
    (hosted [.load song .test]).ops = [.load song .test] ∧
    { hosted [.load song .test] with session := .created }.session = .created ∧
    { hosted [.load song .test] with session := .none }.session = .none ∧
    { hosted [.load song .test] with session := .ended }.session = .ended := by decide

theorem witness_RenderSumsFourChannels :
    ((hosted []).seq = .host ∧ (hosted []).session = .started ∧ LoopInv (hosted []) ∧
      (hosted []).ctx.frameCtr ≠ 1) ∧
    (boundary []).seq = .host ∧ (boundary []).session = .started ∧ LoopInv (boundary []) ∧
      (boundary []).ctx.frameCtr = 1 ∧ (boundary []).cfg.coding.wf = true ∧
      (next? (exec .render (boundary []))).isSome = true := by
  refine ⟨⟨by decide, by decide, fun _ => by decide, by decide⟩, by decide, by decide,
    fun _ => by decide, by decide, by decide, by decide⟩

/-- Channel 0 one frame before its loop end, channel 1 at it, channel 2 at it without a loop, channel 3 at frame 1. -/
def ending : State :=
  { hosted [] with
    chans := #v[{ sounding with pos := 0x003F8000, volMix := 64 }, { sounding with pos := 0x00408000 },
      { sounding with pos := 0x00408000, loopEn := false }, { sounding with pos := 0x00013456 }] }

theorem witness_RenderSumsFourChannels_positions :
    LoopInv ending ∧
    (ending.channel 0).pos = 0x003F#16 ++ 0x8000#16 ∧ 0x003F#16 < (ending.channel 0).loopEnd ∧
    (ending.channel 1).pos = 0x0040#16 ++ 0x8000#16 ∧ (ending.channel 1).loopEnd ≤ 0x0040#16 ∧
    (ending.channel 1).loopEn = true ∧
    (ending.channel 2).pos = 0x0040#16 ++ 0x8000#16 ∧ (ending.channel 2).loopEnd ≤ 0x0040#16 ∧
    (ending.channel 2).loopEn = false := ⟨fun _ => by decide, by decide⟩

theorem witness_RenderCountsFrames :
    (hosted []).seq = .host ∧ (hosted []).session = .started ∧
    (next? (exec .render (hosted []))).isSome = true ∧ (hosted []).ctx.frameCtr ≠ 1 ∧
    (next? (exec .render (boundary []))).isSome = true ∧ (boundary []).ctx.frameCtr = 1 ∧
    (boundary []).ctx.tickCtr = 0 ∧ (boundary []).ctx.singleRow = false := by decide

/-- At the frame boundary with a tick counter and a single-row bit. -/
def boundaryWith (tickCtr : BitVec 8) (single : Bool) : State :=
  { boundary [] with ctx := { (boundary []).ctx with tickCtr := tickCtr, singleRow := single } }

theorem witness_RenderCountsFrames_tick :
    (boundaryWith 1 false).seq = .host ∧ (boundaryWith 1 false).session = .started ∧
    (boundaryWith 1 false).ctx.frameCtr = 1 ∧ (boundaryWith 1 false).ctx.tickCtr ≠ 0 ∧
    (next? (exec .render (boundaryWith 1 false))).isSome = true := by decide

theorem witness_RenderCountsFrames_single_row :
    (boundaryWith 0 true).seq = .host ∧ (boundaryWith 0 true).session = .started ∧
    (boundaryWith 0 true).ctx.frameCtr = 1 ∧ (boundaryWith 0 true).ctx.tickCtr = 0 ∧
    (boundaryWith 0 true).ctx.singleRow = true ∧
    (next? (exec .render (boundaryWith 0 true))).isSome = true := by decide

theorem witness_LoopWrapKeepsTheFraction :
    (ending.channel 0).pos = 0x003F#16 ++ 0x8000#16 ∧
    0x003F#16 = (if (ending.channel 0).loopEnd ≤ 0x003F#16 then (ending.channel 0).loopStart else 0x003F#16) ∧
    0x003F#16 < (ending.channel 0).loopEnd ∧ (ending.channel 0).waveSlot ≠ 0 ∧
    (song.desc (ending.channel 0).waveSlot).length ≠ 0 ∧ (ending.channel 0).volMix.toNat < 65 ∧
    0x003F#16 < (song.desc (ending.channel 0).waveSlot).length := by decide

/-- At the loop end: with a loop `first` is the loop start, without one the channel is silent. -/
theorem witness_LoopWrapKeepsTheFraction_at_the_end :
    (ending.channel 1).pos = 0x0040#16 ++ 0x8000#16 ∧
    (ending.channel 1).loopStart =
      (if (ending.channel 1).loopEnd ≤ 0x0040#16 then (ending.channel 1).loopStart else 0x0040#16) ∧
    (ending.channel 1).loopEn = true ∧ (ending.channel 1).loopStart < (ending.channel 1).loopEnd ∧
    (ending.channel 2).loopEnd ≤ 0x0040#16 ∧ (ending.channel 2).loopEn = false := by decide

/-- A waveform of one frame is over at frame 1; a mix volume of 65 is silent. -/
theorem witness_LoopWrapKeepsTheFraction_beyond :
    (ending.channel 3).pos = 0x0001#16 ++ 0x3456#16 ∧
    0x0001#16 = (if (ending.channel 3).loopEnd ≤ 0x0001#16 then (ending.channel 3).loopStart else 0x0001#16) ∧
    0x0001#16 < (ending.channel 3).loopEnd ∧
    ({ song with smp := samples.set 0 ⟨1, 0, 64, 64, 8448⟩ }.desc (ending.channel 3).waveSlot).length ≤ 0x0001#16 ∧
    65 ≤ { sounding with volMix := 65 }.volMix.toNat := by decide

theorem witness_PatternEntryStartsThePattern :
    (97#8).toNat ≤ 97 ∧ (97#8).toNat < (standing .order sounding).song.nPatterns := by decide

theorem witness_SentinelsWrapTheOrderList :
    (standing .order sounding).seq ≠ .orderAgain ∧ (standing .orderAgain sounding).seq = .orderAgain ∧
    97 < (98#8).toNat := by decide

/-- The order list starts with the reserved byte 100. -/
def reservedOrder : State :=
  { standing .order sounding with song := { song with ord := [(0, 100), (1, 1), (2, 98)] } }

theorem witness_SentinelsWrapTheOrderList_reserved :
    reservedOrder.seq = .order ∧ reservedOrder.cfg.coding.wf = true ∧
    reservedOrder.song.orderAt reservedOrder.ctx.orderPos = .ok 100 ∧ 100 ≤ (100#8).toNat := by decide

/-- A row event at channel 2, channel 3 inactive at row 63. -/
def lastRow : State :=
  { standing .row sounding with
    chan := 2
    chans := (standing .row sounding).chans.set 3 { sounding with active := false, rowCtr := 63 } }

theorem witness_RowStepCountsTheRow :
    lastRow.seq = .row ∧ (next? (step lastRow)).isSome = true ∧ lastRow.chan ≤ 3 ∧
    (lastRow.channel 3).rowCtr = 63 ∧ (lastRow.channel 3).active = false ∧ (1 : Fin 4) < lastRow.chan := by
  decide

theorem witness_RowEndsWithTheTickReload :
    lastRow.seq = .row ∧ (next? (turn lastRow)).isSome = true ∧ lastRow.chan.val < 3 ∧
    (next? (step lastRow)).isSome = true ∧
    (ready .row 3 []).seq = .row ∧ (next? (turn (ready .row 3 []))).isSome = true ∧
    (ready .row 3 []).chan = 3 ∧ (ready .row 3 []).priming = true := by decide

theorem witness_TickEventsEndWithTheMixRecompute :
    (Inv (ready .tick 3 []) ∧ (next? (step (ready .tick 3 []))).isSome = true ∧
      (ready .tick 3 []).seq ≠ .host) ∧
    (Inv (ready .host 0 [.op 1 0]) ∧ (next? (step (ready .host 0 [.op 1 0]))).isSome = true ∧
      (ready .host 0 [.op 1 0]).ops = [.op 1 0]) ∧
    Inv (ready .host 0 [.op 4 0]) ∧ (next? (step (ready .host 0 [.op 4 0]))).isSome = true ∧
      (ready .host 0 [.op 4 0]).ops = [.op 4 0] ∧ (ready .host 0 [.op 4 0]).ctx.frameCtr = 1 :=
  ⟨⟨ready_inv _ _ _ (by simp), by decide, by decide⟩,
    ⟨ready_inv _ _ _ (by simp), by decide, by decide⟩, ready_inv _ _ _ (by simp), by decide, by decide,
    by decide⟩

/-- An event with a concrete note, a sample and no explicit volume. -/
def noted (b : BitVec 8) (smp : BitVec 5) : EventArgs := ⟨b, smp, 65, 0x30⟩

theorem witness_NoteSetsThePitch_event :
    (standing .row sounding).seq = .row ∧ Effect.setSpeed ≠ .tonePorta ∧
    (noted 0x20 0).note.toNat < 254 ∧ (noted 0x20 0).vol.toNat ≤ 65 ∧
    (standing .row sounding).cur.sampleBound = true ∧
    periodOf (standing .row sounding).cfg (noted 0x20 0).note.toNat (standing .row sounding).cur.c2spd =
      .ok 4270 ∧
    (noted 0x20 0).param ≠ 0 ∧ 0 < tempoDivisor (standing .row sounding).cfg (noted 0x20 0).param := by decide

theorem witness_NoteSetsThePitch_sample :
    (noted 0x20 2).smp ≠ 0 ∧ ((standing .row sounding).song.desc 2).volume.toNat ≤ 64 ∧
    ((standing .row sounding).song.desc 2).length ≠ 0 ∧
    periodOf (standing .row sounding).cfg (noted 0x20 2).note.toNat
      ((standing .row sounding).song.desc 2).c2spd = .ok 2135 := by decide

theorem witness_NoteSetsThePitch :
    (standing .row sounding).cfg.coding.effectOf (standing .row sounding).cur.evCmd ≠ .tonePorta ∧
    (0x4B#8).toNat % 16 ≤ 11 ∧ (0x4B#8).toNat / 16 < (standing .row sounding).cfg.nOctaves ∧
    (standing .row sounding).cur.sampleBound = true ∧
    notePeriodAt (standing .row sounding).cfg
      (ptab (standing .row sounding).cfg ((0x4B#8).toNat / 16) ((0x4B#8).toNat % 16))
      (standing .row sounding).cur.c2spd = some 569 := by decide

theorem witness_NoteSetsThePitch_tonePorta :
    (ticking 7 8 sounding).cfg.coding.effectOf (ticking 7 8 sounding).cur.evCmd = .tonePorta ∧
    (0x24#8).toNat % 16 ≤ 11 ∧ (0x24#8).toNat / 16 < (ticking 7 8 sounding).cfg.nOctaves ∧
    (ticking 7 8 sounding).cur.sampleBound = true ∧
    notePeriodAt (ticking 7 8 sounding).cfg
      (ptab (ticking 7 8 sounding).cfg ((0x24#8).toNat / 16) ((0x24#8).toNat % 16))
      (ticking 7 8 sounding).cur.c2spd = some 3416 := by decide

/-- A channel to which nothing is bound has other contents in its unwritten registers; a note there, and an arpeggio
before any note, breaks the contract; a note with its own sample runs. -/
theorem witness_UnwrittenRegistersAreNotRead :
    (standing .row Channel.start).cur.withUnwritten 16896 0x20 ≠ (standing .row Channel.start).cur ∧
    ¬ (standing .row Channel.start).PlaysBound .noEffect (noted 0x24 0) ∧
    ¬ (ticking 10 0x03 Channel.start).PlaysBound .arpeggio (plain 0x03) ∧
    (next? (exec (Instr.ofEvent .noEffect (noted 0x24 2)) (standing .row .start))).isSome = true ∧
    (standing .row sounding).cur.sampleBound = true ∧ (standing .row sounding).cur.notePlayed = true ∧
    (next? (exec (Instr.ofEvent .noEffect (noted 0x24 2)) (standing .row sounding))).isSome = true := by
  refine ⟨by decide, fun h => absurd (h.1 (by decide) (by decide)) (by decide),
    fun h => absurd (h.2 (by decide) rfl) (by decide), by decide⟩

theorem witness_NoteCutSilencesTheChannel_event :
    (standing .row sounding).seq = .row ∧ Effect.setSpeed ≠ .tonePorta ∧
    (noted 254 2).note = 254 ∧ (noted 255 0).note = 255 ∧ (noted 254 2).vol.toNat ≤ 65 ∧
    (noted 254 2).smp ≠ 0 ∧ (noted 255 0).smp = 0 ∧
    ((standing .row sounding).song.desc 2).volume.toNat ≤ 64 ∧
    ((standing .row sounding).song.desc 2).length ≠ 0 ∧
    0 < tempoDivisor (standing .row sounding).cfg (noted 254 2).param := by decide

theorem witness_NoteCutSilencesTheChannel :
    (standing .row sounding).cfg.coding.effectOf (standing .row sounding).cur.evCmd ≠ .tonePorta ∧
    (ticking 7 8 sounding).cfg.coding.effectOf (ticking 7 8 sounding).cur.evCmd = .tonePorta := by decide

theorem witness_UnplayableNotesAreRefused_event :
    (standing .row .start).seq = .row ∧ (noted 0x0C 2).note.toNat < 254 ∧ (noted 0x0C 2).vol.toNat ≤ 65 ∧
    Effect.vibrato ≠ .tonePorta ∧ (noted 0x0C 2).smp ≠ 0 ∧
    ((standing .row .start).song.desc 2).volume.toNat ≤ 64 ∧
    ((standing .row .start).song.desc 2).length ≠ 0 ∧ 11 < (noted 0x0C 2).note.toNat % 16 ∧
    (noted 0x4B 0).note.toNat % 16 ≤ 11 ∧
    (noted 0x4B 0).note.toNat / 16 < (standing .row .start).cfg.nOctaves ∧
    (noted 0x4B 0).smp = 0 ∧ (standing .row .start).cur.sampleBound = false := by decide

theorem witness_UnplayableNotesAreRefused :
    (0x50#8).toNat < 254 ∧
    11 < (0x0C#8).toNat % 16 ∧ (standing .row sounding).cfg.nOctaves ≤ (0x50#8).toNat / 16 ∧
    (0x4B#8).toNat % 16 ≤ 11 ∧ (0x4B#8).toNat / 16 < (standing .row .start).cfg.nOctaves ∧
    (standing .row .start).cur.sampleBound = false := by decide

/-- A reference frequency 0, bound or brought by sample 1: `cfg.NOTE_PERIOD` is undefined at it. -/
def unpitched : State :=
  { standing .row { sounding with c2spd := 0 } with
    song := { song with smp := samples.set 0 ⟨64, 0, 64, 64, 0⟩ } }

theorem witness_UnplayableNotesAreRefused_undefined :
    unpitched.seq = .row ∧ (noted 0x4B 0).smp = 0 ∧ (noted 0x4B 1).smp ≠ 0 ∧ (noted 0x4B 1).note.toNat < 254 ∧
    (noted 0x4B 1).note.toNat % 16 ≤ 11 ∧ (noted 0x4B 1).note.toNat / 16 < unpitched.cfg.nOctaves ∧
    (unpitched.song.desc 1).volume.toNat ≤ 64 ∧ (unpitched.song.desc 1).length ≠ 0 ∧
    notePeriodAt unpitched.cfg (ptab unpitched.cfg (0x4B / 16) (0x4B % 16)) unpitched.cur.c2spd = none ∧
    notePeriodAt unpitched.cfg (ptab unpitched.cfg (0x4B / 16) (0x4B % 16)) (unpitched.song.desc 1).c2spd =
      none := by decide

theorem witness_VolumeAbove65IsRefused :
    (standing .row sounding).seq = .row ∧ 65 < (⟨0x20, 0, 66, 0⟩ : EventArgs).vol.toNat := by decide

theorem witness_ExplicitVolumeSetsBothVolumes :
    (standing .row sounding).seq = .row ∧ Effect.vibrato ≠ .setSpeed ∧ Effect.vibrato ≠ .posJump ∧
    Effect.vibrato ≠ .patBreak ∧ Effect.vibrato ≠ .tremor ∧
    (⟨255, 0, 64, 0x30⟩ : EventArgs).note = 255 ∧ (⟨255, 0, 64, 0x30⟩ : EventArgs).smp = 0 ∧
    (⟨255, 0, 64, 0x30⟩ : EventArgs).vol.toNat ≤ 64 ∧ (⟨255, 0, 64, 0x30⟩ : EventArgs).param ≠ 0 ∧
    0 < tempoDivisor (standing .row sounding).cfg 0x30 := by decide

/-- Slot 2 has a loop; slot 6 of this Song has a waveform and none. -/
def oneShot : State :=
  { standing .row sounding with song := { song with smp := samples.set 5 ⟨4, 0, 0xFFFF, 64, 8448⟩ } }

theorem witness_SampleFieldBindsTheSample :
    oneShot.seq = .row ∧ Effect.tremor ≠ .tonePorta ∧ (⟨255, 2, 65, 0⟩ : EventArgs).note = 255 ∧
    (⟨255, 2, 65, 0⟩ : EventArgs).vol.toNat ≤ 65 ∧ (⟨255, 2, 0, 0⟩ : EventArgs).vol.toNat ≤ 65 ∧
    (⟨255, 2, 65, 0⟩ : EventArgs).smp ≠ 0 ∧
    (oneShot.song.desc 2).volume.toNat ≤ 64 ∧ (oneShot.song.desc 2).length ≠ 0 ∧
    (oneShot.song.desc 2).loopEnd ≠ 0xFFFF ∧
    (oneShot.song.desc 6).volume.toNat ≤ 64 ∧ (oneShot.song.desc 6).length ≠ 0 ∧
    (oneShot.song.desc 6).loopEnd = 0xFFFF := by decide

theorem witness_EmptySampleForcesTheCut :
    (standing .row sounding).seq = .row ∧ Effect.arpeggio ≠ .tonePorta ∧
    (⟨0x20, 5, 65, 0⟩ : EventArgs).smp ≠ 0 ∧
    ((standing .row sounding).song.desc (⟨0x20, 5, 65, 0⟩ : EventArgs).smp).length = 0 ∧
    (next? (exec (Instr.ofEvent .arpeggio ⟨0x20, 5, 65, 0⟩) (standing .row sounding))).isSome = true := by
  decide

theorem witness_LegalEventsTrigger :
    (standing .row sounding).seq = .row ∧
    TriggerLegal (standing .row sounding).cfg (standing .row sounding).song (decide (Effect.setSpeed = .tonePorta))
      ((standing .row sounding).cur.latch ((standing .row sounding).cfg.coding.codeOf .setSpeed)
        ⟨0x20, 2, 65, 0x30⟩) ∧
    0 < tempoDivisor (standing .row sounding).cfg 0x30 ∧
    TriggerLegal (standing .row sounding).cfg (standing .row sounding).song (decide (Effect.tonePorta = .tonePorta))
      ((standing .row sounding).cur.latch ((standing .row sounding).cfg.coding.codeOf .tonePorta)
        ⟨0x24, 0, 64, 8⟩) := by
  refine ⟨by decide, ⟨by decide, by decide, fun _ _ => ⟨by decide, 2135, by decide⟩⟩, by decide,
    ⟨by decide, by decide, fun _ _ => ⟨by decide, 3416, by decide⟩⟩⟩

/-- An event of `eff` with note 0x20 and sample 2 triggers on the channel of `standing .row sounding`, and so does one
without either. -/
theorem triggers (eff : Effect) (p : BitVec 8) (ch : Channel) :
    TriggerLegal .test song false (ch.latch (Coding.standard.codeOf eff) ⟨0x20, 2, 65, p⟩) ∧
    TriggerLegal .test song false (ch.latch (Coding.standard.codeOf eff) (plain p)) :=
  have loud : (song.desc 2).volume.toNat ≤ 64 := by decide
  have pitched : periodOf .test 0x20 (song.desc 2).c2spd = .ok 2135 := by decide
  have none : ¬ (255#8).toNat < 254 := by decide
  have own : (2#5) ≠ 0 := by decide
  ⟨⟨Nat.le_refl 65, fun _ _ => loud, fun _ _ => ⟨.inl ⟨rfl, own⟩, 2135, pitched⟩⟩,
    ⟨Nat.le_refl 65, fun h => absurd rfl h, fun h => absurd h none⟩⟩

theorem witness_SetSpeedSetsTheTempo :
    (standing .row sounding).seq = .row ∧
    TriggerLegal .test song false
      ((standing .row sounding).cur.latch (Coding.standard.codeOf .setSpeed) ⟨0x20, 2, 65, 0x6F⟩) ∧
    TriggerLegal .test song false
      ((standing .row sounding).cur.latch (Coding.standard.codeOf .setSpeed) (plain 0)) ∧
    (standing .row sounding).cfg.tempoTable[((0x6F#8) >>> 4).toNat]? = some (BitVec.ofNat 16 6) ∧
    6 * ((0x6F#8).toNat % 16) / 16 < 50 ∧ (0x6F#8) ≠ 0 ∧ (plain 0).param = 0 ∧ (plain 0).note = 255 ∧
    (plain 0).smp = 0 ∧ (plain 0).vol = 65 :=
  ⟨by decide, (triggers .setSpeed 0x6F _).1, (triggers .setSpeed 0 _).2, by decide⟩

theorem witness_JumpAndBreakWriteOneRegister :
    (standing .row sounding).seq = .row ∧
    (∀ eff ∈ [Effect.posJump, .patBreak],
      TriggerLegal .test song false
        ((standing .row sounding).cur.latch (Coding.standard.codeOf eff) ⟨0x20, 2, 65, 7⟩) ∧
      TriggerLegal .test song false
        ((standing .row sounding).cur.latch (Coding.standard.codeOf eff) (plain 7))) ∧
    (plain 7).note = 255 ∧ (plain 7).smp = 0 ∧ (plain 7).vol = 65 :=
  ⟨by decide, fun eff _ => triggers eff 7 _, by decide⟩

theorem witness_NoneAndReservedOnlyReset :
    (standing .row sounding).seq = .row ∧ (plain 0).note = 255 ∧ (plain 0).smp = 0 ∧ (plain 0).vol = 65 ∧
    Effect.rsv15 ∈ [Effect.noEffect, .rsv13, .rsv14, .rsv15] := by decide

theorem witness_RowEventsKeepEffectMemory :
    (standing .row sounding).seq = .row ∧
    (next? (exec (Instr.ofEvent .vibrato ⟨0x20, 2, 65, 0x42⟩) (standing .row sounding))).isSome = true := by
  decide

theorem witness_TonePortaEventOnlyRetargets :
    (standing .row sounding).seq = .row ∧ (⟨0x24, 0, 65, 8⟩ : EventArgs).smp = 0 ∧
    (⟨0x24, 0, 65, 8⟩ : EventArgs).vol.toNat ≤ 65 ∧ (0x24#8).toNat < 254 ∧
    (standing .row sounding).cur.sampleBound = true ∧
    periodOf (standing .row sounding).cfg (0x24#8).toNat (standing .row sounding).cur.c2spd = .ok 3416 ∧
    254 ≤ (254#8).toNat := by decide

theorem witness_TonePortaEventOnlyRetargets_sample :
    (⟨254, 2, 20, 8⟩ : EventArgs).vol.toNat ≤ 65 ∧ (⟨254, 2, 20, 8⟩ : EventArgs).smp ≠ 0 ∧
    (standing .row sounding).cfg.tportaRebindsSample = true ∧
    ((standing .row sounding).song.desc 2).volume.toNat ≤ 64 ∧
    { Cfg.test with tportaRebindsSample := false }.tportaRebindsSample = false := by decide

theorem witness_VolSlideSlidesTheVolume :
    (ticking 4 0x52 sounding).seq = .tick ∧ (ticking 4 0x52 sounding).cur.volCur.toNat ≤ 64 := by decide

theorem witness_PortamentoWrapsThePeriod : (ticking 6 0xFF sounding).seq = .tick := by decide

theorem witness_TonePortaSlidesToTheTarget :
    (ticking 7 8 { sounding with periodTgt := 4300 }).seq = .tick ∧
    (ticking 7 8 { sounding with periodTgt := 4300 }).cur.periodCur.toNat <
      (ticking 7 8 { sounding with periodTgt := 4300 }).cur.periodTgt.toNat ∧
    (ticking 7 8 { sounding with periodTgt := 4030 }).cur.periodTgt.toNat <
      (ticking 7 8 { sounding with periodTgt := 4030 }).cur.periodCur.toNat ∧
    (ticking 7 8 sounding).cur.periodCur = (ticking 7 8 sounding).cur.periodTgt := by decide

theorem witness_VibratoSwingsAroundTheTarget : (ticking 8 0x42 sounding).seq = .tick := by decide

theorem witness_TremorTogglesOnItsCounter :
    (ticking 9 0x21 { sounding with tremorCtr := 15 }).seq = .tick ∧
    (ticking 9 0x21 { sounding with tremorCtr := 15 }).cur.tremorCtr ≠ 0 ∧
    (ticking 9 0x21 { sounding with tremorState := true }).cur.tremorCtr = 0 ∧
    (ticking 9 0x21 { sounding with tremorState := true }).cur.tremorState = true ∧
    (ticking 9 0x21 sounding).cur.tremorState = false := by decide

theorem witness_TremorRunsOnTheTriggeringTick :
    (standing .row sounding).seq = .row ∧
    (∀ ch : Channel,
      TriggerLegal .test song false (ch.latch (Coding.standard.codeOf .tremor) ⟨0x20, 2, 65, 0x21⟩) ∧
      TriggerLegal .test song false (ch.latch (Coding.standard.codeOf .tremor) (plain 0x21))) ∧
    (plain 0x21).note = 255 ∧ (plain 0x21).smp = 0 ∧ (plain 0x21).vol = 65 ∧
    (standing .row sounding).cur.tremorCtr = 0 ∧ (standing .row sounding).cur.tremorState = false ∧
    (standing .row { sounding with tremorState := true }).cur.tremorState = true ∧
    (standing .row { sounding with tremorCtr := 1 }).cur.tremorCtr ≠ 0 :=
  ⟨by decide, fun ch => triggers .tremor 0x21 ch, by decide⟩

/-- With the last note at semitone 11 of octave 1 (S9). -/
def atOctaveEnd : State := ticking 10 0x03 { sounding with lastNote := 0x1B }

theorem witness_ArpeggioResolvesTheNote :
    atOctaveEnd.seq = .tick ∧
    3 = (if atOctaveEnd.ctx.tickCtr.toNat % 3 = 2 then 0
      else if atOctaveEnd.ctx.tickCtr.toNat % 3 = 1 then atOctaveEnd.cur.evParam.toNat / 16
      else atOctaveEnd.cur.evParam.toNat % 16) ∧ 2 < 12 ∧
    ¬ atOctaveEnd.cur.lastNote.toNat % 16 + 3 < 12 ∧
    2 + 12 = atOctaveEnd.cur.lastNote.toNat % 16 + 3 ∧ 2 = atOctaveEnd.cur.lastNote.toNat / 16 + 1 ∧
    atOctaveEnd.cur.notePlayed = true ∧ atOctaveEnd.cur.sampleBound = true ∧
    periodOf atOctaveEnd.cfg (16 * 2 + 2) atOctaveEnd.cur.c2spd = .ok 3796 := by decide

theorem witness_ArpeggioResolvesTheNote_without_carry :
    (ticking 10 0x0B sounding).seq = .tick ∧
    (ticking 10 0x0B sounding).ctx.tickCtr.toNat % 3 = 0 ∧
    (ticking 10 0x0B sounding).cur.lastNote.toNat % 16 + 11 < 12 ∧
    11 = (ticking 10 0x0B sounding).cur.lastNote.toNat % 16 + 11 ∧
    2 = (ticking 10 0x0B sounding).cur.lastNote.toNat / 16 ∧
    (ticking 10 0x0B sounding).cur.notePlayed = true ∧ (ticking 10 0x0B sounding).cur.sampleBound = true ∧
    periodOf (ticking 10 0x0B sounding).cfg (16 * 2 + 11) (ticking 10 0x0B sounding).cur.c2spd =
      .ok 2277 := by decide

theorem witness_ArpeggioRefusals :
    (ticking 10 0xDD .start).seq = .tick ∧ (ticking 10 0xDD .start).cur.notePlayed = false ∧
    (ticking 10 0xDD { sounding with lastNote := 0x1B }).cur.notePlayed = true ∧
    (ticking 10 0xDD { sounding with lastNote := 0x1B }).ctx.tickCtr.toNat % 3 = 0 ∧
    24 ≤ (ticking 10 0xDD { sounding with lastNote := 0x1B }).cur.lastNote.toNat % 16 +
      (ticking 10 0xDD { sounding with lastNote := 0x1B }).cur.evParam.toNat % 16 := by decide

/-- A last note of octave 4, semitone 11: an offset of 1 carries it out of the five octaves. -/
theorem witness_ArpeggioRefusals_octave :
    5 = (0x4B#8).toNat / 16 + ((0x4B#8).toNat % 16 + 1) / 12 ∧ (0x4B#8).toNat % 16 + 1 < 24 ∧
    (ticking 10 0x01 { sounding with lastNote := 0x4B }).cfg.nOctaves ≤ 5 := by decide

theorem witness_ArpeggioRefusals_undefined :
    2 = (0x20#8).toNat / 16 + ((0x20#8).toNat % 16 + 0) / 12 ∧ (0x20#8).toNat % 16 + 0 < 24 ∧
    2 < (ticking 10 0 { sounding with c2spd := 0 }).cfg.nOctaves ∧
    (ticking 10 0 { sounding with sampleBound := false }).cur.sampleBound = false ∧
    notePeriodAt .test (ptab .test 2 (((0x20#8).toNat % 16 + 0) % 12)) 0 = none := by decide

theorem witness_CombinedSlidesKeepTheirMemory :
    (ticking 12 0x04 sounding).seq = .tick ∧
    (ticking 12 0x04 { sounding with periodTgt := 4300 }).cur.periodCur.toNat <
      (ticking 12 0x04 { sounding with periodTgt := 4300 }).cur.periodTgt.toNat ∧
    (ticking 12 0x04 sounding).cur.periodTgt.toNat ≤ (ticking 12 0x04 sounding).cur.periodCur.toNat := by
  decide

theorem witness_RowCommandsDoNothingOnTicks :
    (ticking 1 0x30 sounding).seq = .tick ∧
    Effect.setSpeed ∈ [Effect.noEffect, .setSpeed, .posJump, .patBreak, .rsv13, .rsv14, .rsv15] := by decide

theorem witness_TickEventsFrame :
    (ticking 8 0x42 Channel.start).seq = .tick ∧
    (next? (exec (Instr.ofEvent .vibrato (plain 0x42)) (ticking 8 0x42 .start))).isSome = true ∧
    (ticking 8 0x42 .start).cur.step =
      frequencyStep (ticking 8 0x42 .start).cfg (ticking 8 0x42 .start).ctx.rate
        (ticking 8 0x42 .start).cur.periodCur := by decide

/-- A Song whose sample 1 is too loud and one frame long, without patterns. -/
def broken (sq : Seq) : State :=
  { standing sq { sounding with volMix := 64 } with
    song := { song with smp := samples.set 0 ⟨1, 0, 64, 65, 8448⟩, nPatterns := 0, orderLen := 0 }
    cfg := { Cfg.test with initTempo := 0x0F } }

theorem witness_RejectedInputsAreRefusedByName :
    (broken .row).seq = .row ∧ (plain 0x0F).param ≠ 0 ∧ tempoDivisor (broken .row).cfg 0x0F ≤ 0 ∧
    (broken .host).seq = .host ∧ (broken .host).session = .started ∧
    tempoDivisor (broken .host).cfg (broken .host).cfg.initTempo ≤ 0 ∧
    Effect.noEffect ≠ .tonePorta ∧ (65#7).toNat ≤ 65 ∧ (1#5) ≠ 0 ∧
    64 < ((broken .row).song.desc 1).volume.toNat ∧
    (broken .row).cfg.tportaRebindsSample = true ∧
    (broken .row).cur.sampleBound = true ∧
    periodOf (broken .row).cfg (0x24#8).toNat (broken .row).cur.c2spd = .ok 3416 ∧
    (broken .order).seq = .order ∧ (broken .order).song.orderLen ≤ (broken .order).ctx.orderPos.toNat ∧
    (broken .row).cur.active = true ∧ (broken .row).song.nPatterns ≤ (broken .row).ctx.pattern.toNat := by
  decide

theorem witness_RejectedInputsAreRefusedByName_tempo :
    (standing .row sounding).seq = .row ∧
    TriggerLegal .test song false
      ((standing .row sounding).cur.latch (Coding.standard.codeOf .setSpeed) ⟨0x20, 2, 65, 0x0F⟩) ∧
    (0x0F#8) ≠ 0 ∧ tempoDivisor (standing .row sounding).cfg 0x0F ≤ 0 :=
  ⟨by decide, (triggers .setSpeed 0x0F _).1, by decide⟩

theorem witness_RejectedInputsAreRefusedByName_render :
    (broken .host).seq = .host ∧ (broken .host).session = .started ∧
    ((broken .host).channel 3).ReadsBeyond (broken .host).song := by
  refine ⟨by decide, by decide, ?_⟩
  unfold Channel.ReadsBeyond; decide

/-- The other way: at the loop end, with a loop start beyond the waveform of one frame. -/
theorem witness_RejectedInputsAreRefusedByName_wrapped :
    Channel.ReadsBeyond (broken .host).song
      { sounding with volMix := 64, pos := 0x00400000, loopStart := 1 } := by
  unfold Channel.ReadsBeyond; decide

end Sys2Proof.Tests
end

/-! PROOFS. What an event can do to the state, said once for the two paths, and what every instruction of a tick
event leaves alone: the facts the statements about whole operations rest on. -/

namespace Sys2Proof.Machine

/-! ### What an event does, if it answered a next state -/

/-- What an event leaves of the context: it writes the order position and the tempo at most, and can request a
pattern change but not withdraw one (R190, R210). -/
structure Context.EventFrame (x y : Context) : Prop where
  pattern : y.pattern = x.pattern
  tickCtr : y.tickCtr = x.tickCtr
  frameCtr : y.frameCtr = x.frameCtr
  gvol : y.gvol = x.gvol
  loopCtr : y.loopCtr = x.loopCtr
  orderMark : y.orderMark = x.orderMark
  rate : y.rate = x.rate
  singleRow : y.singleRow = x.singleRow
  chgPat : x.chgPat = true → y.chgPat = true

theorem Context.EventFrame.refl (x : Context) : x.EventFrame x := by constructor <;> simp

/-- Writing back the served channel changes no channel. -/
theorem State.chans_set_cur (s : State) : s.chans.set s.chan s.cur = s.chans := by
  simp [State.cur, State.channel]

/-- The row actions write the context within its frame, and the served channel under `TREMOR` only (R190). -/
theorem rowAction_frame {eff : Effect} {s t : State} (h : rowAction eff s = .next t) :
    t = { s with
        ctx := t.ctx, chans := s.chans.set s.chan (if eff = .tremor then s.cur.doTremor else s.cur) } ∧
      s.ctx.EventFrame t.ctx := by
  rcases rowAction_next h with ⟨rfl, rfl | ⟨x, hx, rfl⟩⟩ | ⟨rfl, rfl⟩ | ⟨rfl, rfl⟩ | ⟨rfl, rfl⟩ |
    ⟨_, _, _, hne, rfl⟩
  · exact ⟨by simp [State.chans_set_cur], .refl _⟩
  · obtain ⟨_, rfl⟩ := Context.setTempo_ok.1 hx
    exact ⟨by simp [State.chans_set_cur], by constructor <;> simp⟩
  · exact ⟨by simp [State.chans_set_cur], by constructor <;> simp⟩
  · exact ⟨by simp [State.chans_set_cur], by constructor <;> simp [Context.requestPattern]⟩
  · exact ⟨rfl, .refl _⟩
  · exact ⟨by simp [State.chans_set_cur, hne], .refl _⟩

/-- What an event of `eff` makes of the triggered channel `ch` in a row event (R190, R196, R198). -/
def Channel.afterRow (eff : Effect) (ch : Channel) : Channel :=
  if eff = .tremor then (ch.continuationReset eff).doTremor else ch.continuationReset eff

/-- An event outside a per-tick event: the trigger succeeded, and the served channel and the context, within its
frame, are all that is written. -/
theorem exec_event_next {s t : State} {eff : Effect} {e : EventArgs} (hq : s.seq ≠ .tick)
    (h : exec (Instr.ofEvent eff e) s = .next t) :
    ∃ ch, (s.cur.latch (s.cfg.coding.codeOf eff) e).trigger s.cfg s.song s.ctx.rate
        (decide (eff = .tonePorta)) = .ok ch ∧
      t = { s with ctx := t.ctx, chans := s.chans.set s.chan (ch.afterRow eff) } ∧
      s.ctx.EventFrame t.ctx := by
  rw [exec_ofEvent, onEvent, if_neg hq] at h
  obtain ⟨ch, hch, h⟩ := withValue_next.1 h
  obtain ⟨ht, hctx⟩ := rowAction_frame h
  exact ⟨ch, hch, by simpa [Channel.afterRow] using ht, hctx⟩

/-- Tremor writes its counter, its state and the current volume, and nothing else (R213). -/
theorem Channel.doTremor_eq (ch : Channel) :
    ch.doTremor =
      { ch with
        tremorCtr := ch.doTremor.tremorCtr, tremorState := ch.doTremor.tremorState
        volCur := ch.doTremor.volCur } := by
  rcases ch.doTremor_cases with ⟨_, h⟩ | ⟨_, _, h⟩ | ⟨_, _, h⟩ <;> rw [h]

/-- Neither the continuation reset nor tremor writes the row counter, `active` or the active command. -/
theorem Channel.afterRow_frame (eff : Effect) (ch : Channel) :
    (ch.afterRow eff).rowCtr = ch.rowCtr ∧ (ch.afterRow eff).active = ch.active ∧
      (ch.afterRow eff).evCmd = ch.evCmd := by
  unfold Channel.afterRow
  split
  · rw [Channel.doTremor_eq]; exact ⟨rfl, rfl, rfl⟩
  · exact ⟨rfl, rfl, rfl⟩

/-! ### What the instructions of a tick event leave alone -/

/-- What no instruction of a tick event writes: what is bound and presented, the session, the requests, the result,
the free values, and of the context the rate, the volume, the order mark and `single_row`. -/
structure State.TurnFrame (s t : State) : Prop where
  song : t.song = s.song
  cfg : t.cfg = s.cfg
  given : t.given = s.given
  session : t.session = s.session
  result : t.result = s.result
  ops : t.ops = s.ops
  fresh : t.fresh = s.fresh
  rate : t.ctx.rate = s.ctx.rate
  gvol : t.ctx.gvol = s.ctx.gvol
  orderMark : t.ctx.orderMark = s.ctx.orderMark
  singleRow : t.ctx.singleRow = s.ctx.singleRow

theorem State.TurnFrame.refl (s : State) : s.TurnFrame s := by constructor <;> rfl

theorem State.TurnFrame.comp {s t u : State} (h : s.TurnFrame t) (k : t.TurnFrame u) : s.TurnFrame u where
  song := k.song.trans h.song
  cfg := k.cfg.trans h.cfg
  given := k.given.trans h.given
  session := k.session.trans h.session
  result := k.result.trans h.result
  ops := k.ops.trans h.ops
  fresh := k.fresh.trans h.fresh
  rate := k.rate.trans h.rate
  gvol := k.gvol.trans h.gvol
  orderMark := k.orderMark.trans h.orderMark
  singleRow := k.singleRow.trans h.singleRow

/-- An event writes the served channel and, outside a per-tick event, the context within its frame; so it leaves the
position in the tick event too. -/
theorem exec_event_shape {s t : State} {eff : Effect} {e : EventArgs}
    (h : exec (Instr.ofEvent eff e) s = .next t) :
    t = { s with ctx := t.ctx, chans := s.chans.set s.chan t.cur } ∧ s.ctx.EventFrame t.ctx := by
  by_cases hq : s.seq = .tick
  · rw [exec_tick hq] at h
    obtain ⟨ch, rfl, _⟩ := tickAction_next h
    exact ⟨by rw [State.setCur_setCur, State.setCur_cur]; rfl, .refl _⟩
  · obtain ⟨ch, _, ht, hctx⟩ := exec_event_next hq h
    have hcur : t.cur = ch.afterRow eff := by
      rw [ht]; exact State.setCur_cur s _
    exact ⟨hcur ▸ ht, hctx⟩

theorem exec_event_frame {s t : State} {eff : Effect} {e : EventArgs}
    (h : exec (Instr.ofEvent eff e) s = .next t) : s.TurnFrame t := by
  obtain ⟨ht, hctx⟩ := exec_event_shape h
  exact { hctx with
    song := by rw [ht]
    cfg := by rw [ht]
    given := by rw [ht]
    session := by rw [ht]
    result := by rw [ht]
    ops := by rw [ht]
    fresh := by rw [ht] }

theorem State.countRow_frame (s : State) : s.TurnFrame s.countRow := by
  constructor <;> simp [State.countRow_ctx]

theorem State.finishTick_frame (s : State) : s.TurnFrame s.finishTick := by
  constructor <;> simp [State.finishTick_ctx]

theorem State.finishRow_frame (s : State) : s.TurnFrame s.finishRow := by
  constructor <;> simp [State.finishRow_ctx]

theorem State.advanceRow_frame (s : State) : s.TurnFrame s.advanceRow := by
  rcases s.advanceRow_cases with ⟨_, h⟩ | ⟨_, h⟩ <;> rw [h]
  · exact s.countRow_frame.comp (State.finishRow_frame _)
  · exact { s.countRow_frame with }

theorem State.advanceTick_frame (s : State) : s.TurnFrame s.advanceTick := by
  rcases s.advanceTick_cases with ⟨_, h⟩ | ⟨_, h⟩ <;> rw [h]
  · exact s.finishTick_frame
  · constructor <;> rfl

/-- Entering a tick event leaves it alone as well. -/
theorem State.enterTick_frame (s : State) : s.TurnFrame s.enterTick := by
  rcases s.enterTick_cases with ⟨_, h⟩ | ⟨_, _, h⟩ | ⟨_, _, h⟩ <;> rw [h]
  · constructor <;> rfl
  · exact s.finishTick_frame
  · constructor <;> rfl

/-- So does counting a frame. -/
theorem State.countFrame_frame (s : State) : s.TurnFrame s.countFrame := by
  rcases s.countFrame_cases with ⟨_, h⟩ | ⟨_, h⟩ <;> rw [h]
  · exact { State.enterTick_frame _ with }
  · constructor <;> rfl

/-- An order entry that runs is a sentinel, resolved once, or a pattern of the song (R165, R172 to R174). -/
theorem exec_order_next {s t : State} {i : Instr} (hi : fetchOrder s = .ok i) (h : exec i s = .next t) :
    (s.seq ≠ .orderAgain ∧ ∃ o,
      t = { s with ctx := { s.ctx with orderPos := o, loopCtr := s.ctx.loopCtr + 1 }, seq := .orderAgain }) ∨
    ∃ n : BitVec 8,
      t = { s with
        ctx := { s.ctx with pattern := n.setWidth 7, orderPos := s.ctx.orderPos + 1, chgPat := false }
        chans := onAll Channel.rewind s.chans, seq := .row, chan := 0 } := by
  have hf := fetchOrder_format hi
  cases i
  case endMark => obtain ⟨hs, ht⟩ := wrapOrder_next h; exact .inl ⟨hs, _, ht⟩
  case endZero => obtain ⟨hs, ht⟩ := wrapOrder_next h; exact .inl ⟨hs, _, ht⟩
  case pattern n => obtain ⟨_, _, ht⟩ := exec_pattern_next h; exact .inr ⟨n, ht⟩
  all_goals cases hf

/-- What an instruction of a tick event did, if it answered a next state, by where the sequencer stood (R58). -/
theorem turn_next {s t : State} (h : turn s = .next t) :
    (s.seq = .host ∧ t = s) ∨
    ((s.seq = .order ∨ s.seq = .orderAgain) ∧ ∃ i, fetchOrder s = .ok i ∧ exec i s = .next t) ∨
    (s.seq = .row ∧ s.cur.active = true ∧
      ∃ eff e u, exec (Instr.ofEvent eff e) s = .next u ∧ t = u.advanceRow) ∨
    (s.seq = .row ∧ s.cur.active = false ∧ t = s.advanceRow) ∨
    (s.seq = .tick ∧ ∃ u,
      exec (Instr.ofEvent (s.cfg.coding.effectOf s.cur.evCmd) s.cur.latchedArgs) s = .next u ∧
        t = u.advanceTick) := by
  rcases turn_cases s with ⟨hq, ht⟩ | ⟨hq, ht⟩ | ⟨hq, ha, ht⟩ | ⟨hq, ha, ht⟩ | ⟨hq, ht⟩ <;> rw [ht] at h
  · cases h; exact .inl ⟨hq, rfl⟩
  · exact .inr (.inl ⟨hq, withValue_next.1 h⟩)
  · obtain ⟨i, hi, h⟩ := withValue_next.1 h
    obtain ⟨eff, e, rfl⟩ := fetchEvent_ofEvent hi
    obtain ⟨u, hu, h⟩ := andThen_eq_next.1 h
    cases h
    exact .inr (.inr (.inl ⟨hq, ha, eff, e, u, hu, rfl⟩))
  · cases h; exact .inr (.inr (.inr (.inl ⟨hq, ha, rfl⟩)))
  · obtain ⟨u, hu, h⟩ := andThen_eq_next.1 h
    cases h
    exact .inr (.inr (.inr (.inr ⟨hq, u, hu, rfl⟩)))

theorem turn_frame {s t : State} (h : turn s = .next t) : s.TurnFrame t := by
  rcases turn_next h with ⟨_, rfl⟩ | ⟨_, i, hi, hx⟩ | ⟨_, _, eff, e, u, hu, rfl⟩ | ⟨_, _, rfl⟩ | ⟨_, u, hu, rfl⟩
  · exact .refl _
  · rcases exec_order_next hi hx with ⟨_, o, rfl⟩ | ⟨n, rfl⟩ <;> constructor <;> rfl
  · exact (exec_event_frame hu).comp (State.advanceRow_frame u)
  · exact State.advanceRow_frame s
  · exact (exec_event_frame hu).comp (State.advanceTick_frame u)

/-- The rest of an operation leaves alone what its instructions do. -/
theorem finishOperation_frame {s t : State} (h : finishOperation s = .next t) : s.TurnFrame t :=
  finishOperation_keeps (P := s.TurnFrame) (fun _ _ hu ht => hu.comp (turn_frame ht)) (.refl s) h

/-! ### Every operation comes to its end -/

/-- How many instructions a tick event has left at most: two order entries and four channels (R165, R169). -/
def State.turnsLeft (s : State) : Nat :=
  match s.seq with
  | .host => 0
  | .order => 6
  | .orderAgain => 5
  | .row => 4 - s.chan.val
  | .tick => 4 - s.chan.val

theorem State.turnsLeft_le (s : State) : s.turnsLeft ≤ 6 := by
  unfold State.turnsLeft; split <;> omega

theorem State.turnsLeft_eq_zero {s : State} (h : s.turnsLeft = 0) : s.seq = .host := by
  have := s.chan.isLt
  cases hq : s.seq with
  | host => rfl
  | _ => simp only [State.turnsLeft, hq] at h; omega

/-- The next channel is the next one of the four. -/
theorem chan_succ_val {c : Fin 4} (h : c ≠ 3) : (c + 1).val = c.val + 1 := by
  revert h; revert c; decide

theorem State.turnsLeft_advanceRow {s : State} (h : s.seq = .row) : s.advanceRow.turnsLeft < s.turnsLeft := by
  have := s.chan.isLt
  rcases s.advanceRow_cases with ⟨_, ha⟩ | ⟨hc, ha⟩ <;> rw [ha]
  · simp [State.turnsLeft, h]
  · simp only [State.turnsLeft, State.countRow_seq, h, chan_succ_val hc]; omega

theorem State.turnsLeft_advanceTick {s : State} (h : s.seq = .tick) : s.advanceTick.turnsLeft < s.turnsLeft := by
  have := s.chan.isLt
  rcases s.advanceTick_cases with ⟨_, ha⟩ | ⟨hc, ha⟩ <;> rw [ha]
  · simp [State.turnsLeft, h]
  · simp only [State.turnsLeft, h, chan_succ_val hc]; omega

/-- An event leaves the position in the tick event. -/
theorem exec_event_seq {s t : State} {eff : Effect} {e : EventArgs}
    (h : exec (Instr.ofEvent eff e) s = .next t) : t.seq = s.seq ∧ t.chan = s.chan ∧ t.priming = s.priming := by
  obtain ⟨ht, _⟩ := exec_event_shape h
  rw [ht]
  exact ⟨rfl, rfl, rfl⟩

/-- An instruction of a tick event leaves one less. -/
theorem turn_turnsLeft {s t : State} (hq : s.seq ≠ .host) (h : turn s = .next t) :
    t.turnsLeft < s.turnsLeft := by
  rcases turn_next h with ⟨hh, _⟩ | ⟨ho, i, hi, hx⟩ | ⟨hr, _, eff, e, u, hu, rfl⟩ | ⟨hr, _, rfl⟩ | ⟨ht, u, hu, rfl⟩
  · exact absurd hh hq
  · rcases exec_order_next hi hx with ⟨hs, o, rfl⟩ | ⟨n, rfl⟩
    · simp [State.turnsLeft, ho.resolve_right hs]
    · rcases ho with ho | ho <;> simp [State.turnsLeft, ho]
  · obtain ⟨useq, uchan, _⟩ := exec_event_seq hu
    have : u.turnsLeft = s.turnsLeft := by simp only [State.turnsLeft, useq, uchan]
    exact this ▸ State.turnsLeft_advanceRow (useq.trans hr)
  · exact State.turnsLeft_advanceRow hr
  · obtain ⟨useq, uchan, _⟩ := exec_event_seq hu
    have : u.turnsLeft = s.turnsLeft := by simp only [State.turnsLeft, useq, uchan]
    exact this ▸ State.turnsLeft_advanceTick (useq.trans ht)

/-- With enough instructions allowed, the operation is complete. -/
theorem runOn_seq {k : Nat} {s t : State} (hk : s.turnsLeft ≤ k) (h : runOn k s = .next t) :
    t.seq = .host := by
  induction k generalizing s with
  | zero => cases h; exact State.turnsLeft_eq_zero (Nat.le_zero.1 hk)
  | succ k ih =>
    by_cases hq : s.seq = .host
    · rw [runOn_done hq] at h; cases h; exact hq
    · rw [runOn_succ hq] at h
      obtain ⟨u, hu, h⟩ := andThen_eq_next.1 h
      have := turn_turnsLeft hq hu
      exact ih (by omega) h

/-- The rest of an operation, run, leaves the core between operations (R290). -/
theorem finishOperation_seq {s t : State} (h : finishOperation s = .next t) : t.seq = .host :=
  runOn_seq s.turnsLeft_le h

end Sys2Proof.Machine

/-! PROOFS. Every step keeps the invariant of the machine: first what each register operation keeps of a channel, then
what each instruction of a tick event keeps of the started session, then the requests of the host. -/

namespace Sys2Proof.Machine

/-! ### One channel -/

/-- The part of `ChannelInv` that no active event enters: what every register operation keeps (R60, R225). -/
structure Channel.Kept (cfg : Cfg) (rate : BitVec 16) (ch : Channel) : Prop where
  volCur : ch.volCur.toNat ≤ 64
  volInit : ch.volInit.toNat ≤ 64
  volMix : ch.volMix.toNat ≤ 64
  vibPhase : ch.vibPhase.toNat % 2 = 0
  step : ch.step = frequencyStep cfg rate ch.periodCur
  rowCtr : ch.rowCtr.toNat ≤ 64
  bound : ch.sampleBound = true ↔ ch.waveSlot ≠ 0

/-- What the continuation reset leaves under the active effect (R198): tremor idle and the vibrato phase 0, but for the
commands that use them. -/
structure Channel.IdleUnder (eff : Effect) (ch : Channel) : Prop where
  tremor : eff ≠ .tremor → ch.tremorCtr = 0 ∧ ch.tremorState = false
  vibrato : eff ≠ .vibrato → eff ≠ .volslideVib → ch.vibPhase = 0

theorem channelInv_iff {cfg : Cfg} {rate : BitVec 16} {ch : Channel} :
    ChannelInv cfg rate ch ↔ ch.Kept cfg rate ∧ ch.IdleUnder (cfg.coding.effectOf ch.evCmd) := by
  constructor
  · rintro ⟨hc, hi, hm, hv, hs, hr, ht, hp, hb⟩
    exact ⟨⟨hc, hi, hm, hv, hs, hr, hb⟩, ⟨ht, hp⟩⟩
  · rintro ⟨⟨hc, hi, hm, hv, hs, hr, hb⟩, ⟨ht, hp⟩⟩
    exact ⟨hc, hi, hm, hv, hs, hr, ht, hp, hb⟩

section Kept

variable {cfg : Cfg} {rate : BitVec 16} {ch ch' : Channel}

theorem Channel.Kept.latch (h : ch.Kept cfg rate) (cmd : BitVec 4) (e : EventArgs) :
    (ch.latch cmd e).Kept cfg rate := { h with }

theorem Channel.Kept.explicitVolume (h : ch.Kept cfg rate) (hx : ch.explicitVolume = .ok ch') :
    ch'.Kept cfg rate := by
  obtain ⟨hv, rfl⟩ := Channel.explicitVolume_ok.1 hx
  split
  · exact h
  · rename_i hne
    have : ch.evVol.toNat ≠ 65 := fun e => hne (BitVec.eq_of_toNat_eq e)
    have hle : ch.evVol.toNat ≤ 64 := by omega
    exact { h with volCur := hle, volInit := hle }

/-- A binding takes volumes from a legal descriptor and marks the sample as bound (R244). -/
theorem Channel.Kept.rebind {slot : BitVec 5} {d : SampleDesc} (h : ch.Kept cfg rate) (hs : slot ≠ 0)
    (hx : ch.rebind slot d = .ok ch') : ch'.Kept cfg rate := by
  obtain ⟨hv, rfl⟩ := Channel.rebind_ok.1 hx
  refine { h with volCur := ?_, volInit := ?_, bound := ⟨fun _ => hs, fun _ => rfl⟩ }
  · dsimp only; split
    · exact hv
    · exact h.volCur
  · dsimp only; split
    · exact hv
    · exact h.volInit

/-- A note writes the period with its step, or the target alone, or the position and the loop (R243, R246, R247). -/
theorem Channel.Kept.noteStep {porta : Bool} (h : ch.Kept cfg rate)
    (hx : ch.noteStep cfg rate porta = .ok ch') : ch'.Kept cfg rate := by
  rcases Channel.noteStep_cases hx with ⟨b, _, _, hb⟩ | ⟨b, _, _, hb⟩ | ⟨_, _, rfl⟩ | ⟨_, rfl⟩
  · obtain ⟨p, _, rfl⟩ := Channel.aimNote_ok.1 hb; exact { h with }
  · obtain ⟨p, _, rfl⟩ := Channel.playNote_ok.1 hb; exact { h with step := rfl }
  · exact { h with }
  · exact h

theorem Channel.Kept.sampleStep {g : Song} (h : ch.Kept cfg rate) (hx : ch.sampleStep g = .ok ch') :
    ch'.Kept cfg rate := by
  rcases Channel.sampleStep_cases hx with ⟨_, rfl⟩ | ⟨hs, c, hc, rfl⟩
  · exact h
  · have := h.rebind hs hc
    split
    · exact { this with }
    · exact this

theorem Channel.Kept.portaSampleStep {g : Song} (h : ch.Kept cfg rate)
    (hx : ch.portaSampleStep cfg g = .ok ch') : ch'.Kept cfg rate := by
  rcases Channel.portaSampleStep_cases hx with rfl | ⟨_, hs, hc⟩
  · exact h
  · exact h.rebind hs hc

theorem Channel.Kept.trigger {g : Song} {porta : Bool} (h : ch.Kept cfg rate)
    (hx : ch.trigger cfg g rate porta = .ok ch') : ch'.Kept cfg rate := by
  obtain ⟨c₁, c₂, h₁, ⟨_, h₂, h₃⟩ | ⟨_, h₂, h₃⟩⟩ := Channel.trigger_cases hx
  · exact ((h.explicitVolume h₁).noteStep h₂).portaSampleStep h₃
  · exact ((h.explicitVolume h₁).sampleStep h₂).noteStep h₃

theorem Channel.Kept.continuationReset (h : ch.Kept cfg rate) (eff : Effect) :
    (ch.continuationReset eff).Kept cfg rate := by
  refine { h with vibPhase := ?_ }
  unfold Channel.continuationReset
  dsimp only
  split
  · exact h.vibPhase
  · rfl

theorem Channel.Kept.volumeSlide (h : ch.Kept cfg rate) (p : BitVec 8) :
    (ch.volumeSlide p).Kept cfg rate := by
  have hv := h.volCur
  have hs := ch.volumeSlide_volCur p
  exact { h with volCur := by rw [hs]; split <;> omega }

theorem Channel.Kept.doTremor (h : ch.Kept cfg rate) : ch.doTremor.Kept cfg rate := by
  rcases ch.doTremor_cases with ⟨_, e⟩ | ⟨_, _, e⟩ | ⟨_, _, e⟩ <;> rw [e]
  · exact { h with }
  · exact { h with volCur := Nat.zero_le 64 }
  · exact { h with volCur := h.volInit }

theorem Channel.Kept.tonePortamento (h : ch.Kept cfg rate) (p : BitVec 8) :
    (ch.tonePortamento cfg rate p).Kept cfg rate := { h with step := rfl }

theorem Channel.Kept.slideUp (h : ch.Kept cfg rate) (p : BitVec 8) :
    (ch.slideUp cfg rate p).Kept cfg rate := { h with step := rfl }

theorem Channel.Kept.slideDown (h : ch.Kept cfg rate) (p : BitVec 8) :
    (ch.slideDown cfg rate p).Kept cfg rate := { h with step := rfl }

/-- The mask 0x7E leaves the new phase even (R217). -/
theorem Channel.Kept.doVibrato (h : ch.Kept cfg rate) (p : BitVec 8) :
    (ch.doVibrato cfg rate p).Kept cfg rate := by
  have even : ∀ n : Nat, (n &&& 0x7E) % 2 = 0 := fun n => by
    rw [← Nat.and_one_is_mod, Nat.and_assoc]; simp
  exact { h with step := rfl, vibPhase := by rw [Channel.doVibrato_phase]; exact even _ }

theorem Channel.Kept.arpeggio {tickCtr p : BitVec 8} (h : ch.Kept cfg rate)
    (hx : ch.arpeggio cfg rate tickCtr p = .ok ch') : ch'.Kept cfg rate := by
  obtain ⟨_, n, q, _, _, rfl⟩ := Channel.arpeggio_ok.1 hx
  exact { h with step := rfl }

theorem Channel.Kept.afterRow (h : ch.Kept cfg rate) (eff : Effect) : (ch.afterRow eff).Kept cfg rate := by
  unfold Channel.afterRow
  split
  · exact (h.continuationReset eff).doTremor
  · exact h.continuationReset eff

end Kept

theorem Channel.continuationReset_idle (eff : Effect) (ch : Channel) :
    (ch.continuationReset eff).IdleUnder eff where
  tremor h := by simp [Channel.continuationReset, h]
  vibrato h h' := by simp [Channel.continuationReset, h, h']

/-- Tremor moves under `TREMOR` only. -/
theorem Channel.IdleUnder.doTremor {ch : Channel} (h : ch.IdleUnder .tremor) : ch.doTremor.IdleUnder .tremor where
  tremor hne := absurd rfl hne
  vibrato h1 h2 := by rw [Channel.doTremor_eq]; exact h.vibrato h1 h2

theorem Channel.afterRow_idle (eff : Effect) (ch : Channel) : (ch.afterRow eff).IdleUnder eff := by
  unfold Channel.afterRow
  split
  · rename_i he
    subst he
    exact (Channel.continuationReset_idle _ ch).doTremor
  · exact Channel.continuationReset_idle eff ch

/-- A per-tick action keeps what a channel keeps, and its row counter and active command (R210). -/
theorem tickAction_keeps {eff : Effect} {s t : State} (h : tickAction eff s = .next t)
    (hk : s.cur.Kept s.cfg s.ctx.rate) (hi : s.cur.IdleUnder eff) :
    ∃ ch, t = s.setCur ch ∧ ch.Kept s.cfg s.ctx.rate ∧ ch.IdleUnder eff ∧
      ch.rowCtr = s.cur.rowCtr ∧ ch.evCmd = s.cur.evCmd := by
  obtain ⟨ch, rfl, hch⟩ := tickAction_next h
  refine ⟨ch, rfl, ?_⟩
  rcases hch with ⟨rfl, rfl⟩ | ⟨rfl, rfl⟩ | ⟨rfl, rfl⟩ | ⟨rfl, rfl⟩ | ⟨rfl, rfl⟩ | ⟨rfl, rfl⟩ | ⟨rfl, hx⟩ |
    ⟨rfl, rfl⟩ | ⟨rfl, rfl⟩ | ⟨_, _, _, rfl⟩
  · exact ⟨hk.volumeSlide _, ⟨hi.tremor, hi.vibrato⟩, rfl, rfl⟩
  · exact ⟨hk.slideDown _, ⟨hi.tremor, hi.vibrato⟩, rfl, rfl⟩
  · exact ⟨hk.slideUp _, ⟨hi.tremor, hi.vibrato⟩, rfl, rfl⟩
  · exact ⟨hk.tonePortamento _, ⟨hi.tremor, hi.vibrato⟩, rfl, rfl⟩
  · exact ⟨hk.doVibrato _, ⟨hi.tremor, fun hne => absurd rfl hne⟩, rfl, rfl⟩
  · exact ⟨hk.doTremor, hi.doTremor, by rw [Channel.doTremor_eq], by rw [Channel.doTremor_eq]⟩
  · have hkept := hk.arpeggio hx
    obtain ⟨_, n, q, _, _, rfl⟩ := Channel.arpeggio_ok.1 hx
    exact ⟨hkept, ⟨hi.tremor, hi.vibrato⟩, rfl, rfl⟩
  · exact ⟨(hk.volumeSlide _).doVibrato _, ⟨hi.tremor, fun _ hne => absurd rfl hne⟩, rfl, rfl⟩
  · exact ⟨(hk.volumeSlide _).tonePortamento _, ⟨hi.tremor, hi.vibrato⟩, rfl, rfl⟩
  · exact ⟨hk, hi, rfl, rfl⟩

/-! ### The started session -/

/-- The registers of a started session, apart from where the sequencer stands: what `Inv` says of them (R60). -/
structure State.Sound (s : State) : Prop where
  channels : ∀ c, ChannelInv s.cfg s.ctx.rate (s.channel c)
  gvol : s.ctx.gvol.toNat ≤ 64
  rate : s.ctx.rate ≠ 0
  pending : ∀ c, (s.channel c).rowCtr = 64 → s.ctx.chgPat = true

/-- Inside a row event the channels still to be served stand at a row of the pattern (R163). -/
def State.RowsAhead (s : State) : Prop :=
  s.seq = .row → ∀ c, s.chan ≤ c → (s.channel c).rowCtr.toNat < 64

theorem inv_iff {s : State} :
    Inv s ↔ Binding.Legal ⟨s.song, s.cfg⟩ ∧ s.given.Legal ∧
      (∀ g c, Request.load g c ∈ s.ops → Binding.Legal ⟨g, c⟩) ∧
      (s.seq ≠ .host → s.session = .started) ∧ (s.session = .started → s.Sound ∧ s.RowsAhead) := by
  constructor
  · rintro ⟨hb, hg, ho, hs, hr⟩
    refine ⟨hb, hg, ho, hs, fun h => ?_⟩
    obtain ⟨hc, hv, hz, hp, ha⟩ := hr h
    exact ⟨⟨hc, hv, hz, hp⟩, ha⟩
  · rintro ⟨hb, hg, ho, hs, hr⟩
    refine ⟨hb, hg, ho, hs, fun h => ?_⟩
    obtain ⟨⟨hc, hv, hz, hp⟩, ha⟩ := hr h
    exact ⟨hc, hv, hz, hp, ha⟩

/-- The legal configuration's values that START writes (R8). -/
theorem Cfg.wf_start {c : Cfg} (h : c.wf = true) :
    c.coding.wf = true ∧ c.defaultRate ≠ 0 ∧ c.initGvol.toNat ≤ 64 := by
  simp only [Cfg.wf, Bool.and_eq_true, decide_eq_true_eq] at h
  obtain ⟨⟨h, hrate⟩, hgvol⟩ := h
  exact ⟨by simp_all, hrate, hgvol⟩

theorem Binding.Legal.coding {x : Binding} (h : x.Legal) : x.cfg.coding.wf = true := (Cfg.wf_start h.1).1

/-- The channel being served is read where a row of the pattern is left to it. -/
theorem State.RowsAhead.cur {s : State} (h : s.RowsAhead) (hq : s.seq = .row) : s.cur.rowCtr.toNat < 64 :=
  h hq s.chan le_rfl

/-- Writing a channel that meets the invariant at the old row counter keeps the session sound. -/
theorem State.Sound.setCur {s t : State} {ch : Channel} (h : s.Sound)
    (ht : t = { s with ctx := t.ctx, chans := s.chans.set s.chan ch }) (hx : s.ctx.EventFrame t.ctx)
    (hch : ChannelInv s.cfg s.ctx.rate ch) (hr : ch.rowCtr = s.cur.rowCtr) :
    t.Sound ∧ (s.RowsAhead → t.RowsAhead) := by
  have hcfg : t.cfg = s.cfg := by rw [ht]
  have hseq : t.seq = s.seq := by rw [ht]
  have hchan : t.chan = s.chan := by rw [ht]
  have hread : ∀ c, t.channel c = if c = s.chan then ch else s.channel c := fun c => by
    rw [ht]; exact State.setCur_channel s c ch
  have hrow : ∀ c, (t.channel c).rowCtr = (s.channel c).rowCtr := fun c => by
    rw [hread]; split
    · rename_i hc; rw [hr, hc]; rfl
    · rfl
  refine ⟨⟨fun c => ?_, ?_, ?_, fun c hc => ?_⟩, fun ha hq c hc => ?_⟩
  · rw [hread, hcfg, hx.rate]; split
    · exact hch
    · exact h.channels c
  · rw [hx.gvol]; exact h.gvol
  · rw [hx.rate]; exact h.rate
  · exact hx.chgPat (h.pending c (hrow c ▸ hc))
  · rw [hrow]; exact ha (hseq ▸ hq) c (hchan ▸ hc)

/-- An event in a row event keeps the session sound. -/
theorem State.Sound.rowEvent {s t : State} {eff : Effect} {e : EventArgs} (h : s.Sound)
    (hw : s.cfg.coding.wf = true) (hq : s.seq = .row) (hx : exec (Instr.ofEvent eff e) s = .next t) :
    t.Sound ∧ (s.RowsAhead → t.RowsAhead) := by
  obtain ⟨ch, hch, ht, hctx⟩ := exec_event_next (by rw [hq]; decide) hx
  have hframe := Channel.trigger_frame hch
  have hkept := (((channelInv_iff.1 (h.channels s.chan)).1.latch _ e).trigger hch).afterRow eff
  obtain ⟨hrow, _, hafter⟩ := Channel.afterRow_frame eff ch
  have hcmd : (ch.afterRow eff).evCmd = s.cfg.coding.codeOf eff := hafter.trans hframe.evCmd
  have hinv : ChannelInv s.cfg s.ctx.rate (ch.afterRow eff) := channelInv_iff.2
    ⟨hkept, by rw [hcmd, Coding.effectOf_codeOf hw]; exact Channel.afterRow_idle eff ch⟩
  exact h.setCur ht hctx hinv (hrow.trans hframe.rowCtr)

/-- The latched event keeps the session sound in a per-tick event. -/
theorem State.Sound.tickEvent {s t : State} (h : s.Sound) (hq : s.seq = .tick)
    (hx : exec (Instr.ofEvent (s.cfg.coding.effectOf s.cur.evCmd) s.cur.latchedArgs) s = .next t) : t.Sound := by
  rw [exec_tick hq] at hx
  have hreset := (channelInv_iff.1 (h.channels s.chan)).1.continuationReset (s.cfg.coding.effectOf s.cur.evCmd)
  obtain ⟨ch, rfl, hk, hi, hrow, hcmd⟩ := tickAction_keeps hx
    (by rw [State.setCur_cur]; exact hreset) (by rw [State.setCur_cur]; exact Channel.continuationReset_idle _ _)
  rw [State.setCur_cur] at hrow hcmd
  have hinv : ChannelInv s.cfg s.ctx.rate ch :=
    channelInv_iff.2 ⟨hk, by rw [hcmd]; exact hi⟩
  rw [State.setCur_setCur]
  exact (h.setCur (t := s.setCur ch) rfl (.refl _) hinv hrow).1

/-- The end of a tick event recomputes the mix volumes from volumes in range (R168). -/
theorem State.Sound.finishTick {s : State} (h : s.Sound) : s.finishTick.Sound where
  channels c := by
    obtain ⟨hk, hi⟩ := channelInv_iff.1 (h.channels c)
    rw [State.finishTick_channel, s.finishTick_frame.cfg, s.finishTick_frame.rate]
    exact channelInv_iff.2 ⟨{ hk with volMix := (mixVolume_toNat hk.volCur h.gvol).2 }, hi.tremor, hi.vibrato⟩
  gvol := by rw [s.finishTick_frame.gvol]; exact h.gvol
  rate := by rw [s.finishTick_frame.rate]; exact h.rate
  pending c hc := by
    rw [State.finishTick_channel] at hc
    rw [State.finishTick_ctx]
    exact h.pending c hc

theorem State.Sound.finishRow {s : State} (h : s.Sound) : s.finishRow.Sound :=
  State.Sound.finishTick (s := { s with ctx := { s.ctx with tickCtr := _ } }) { h with }

/-- Counting a row below 64 keeps the counter at 64 or less, and reaching 64 requests the change (R164). -/
theorem State.Sound.countRow {s : State} (h : s.Sound) (hr : s.cur.rowCtr.toNat < 64) : s.countRow.Sound := by
  have hcount : (s.cur.rowCtr + 1).toNat = s.cur.rowCtr.toNat + 1 := by
    rw [BitVec.toNat_add]; simp; omega
  refine ⟨fun c => ?_, ?_, ?_, fun c hc => ?_⟩
  · rw [State.countRow_channel, s.countRow_frame.cfg, s.countRow_frame.rate]
    split
    · obtain ⟨hk, hi⟩ := channelInv_iff.1 (h.channels s.chan)
      exact channelInv_iff.2
        ⟨{ hk with rowCtr := (show (s.cur.rowCtr + 1).toNat ≤ 64 by omega) }, hi.tremor, hi.vibrato⟩
    · exact h.channels c
  · rw [s.countRow_frame.gvol]; exact h.gvol
  · rw [s.countRow_frame.rate]; exact h.rate
  · rw [State.countRow_channel] at hc
    rw [State.countRow_ctx]
    split at hc
    · simp only [decide_eq_true hc, Bool.true_or]
    · simp only [h.pending c hc, Bool.or_true]

/-- The next channel's turn, or the end of the row, keeps the session sound and the rows ahead (R162, R163). -/
theorem State.Sound.advanceRow {s : State} (h : s.Sound) (hq : s.seq = .row) (ha : s.RowsAhead) :
    s.advanceRow.Sound ∧ s.advanceRow.RowsAhead := by
  have hcount := h.countRow (ha.cur hq)
  rcases s.advanceRow_cases with ⟨_, e⟩ | ⟨hc, e⟩ <;> rw [e]
  · exact ⟨hcount.finishRow, fun hrow => by simp at hrow⟩
  · refine ⟨{ hcount with }, fun _ c (hle : s.chan + 1 ≤ c) => ?_⟩
    have hlt : s.chan.val < c.val := by
      have := Fin.le_def.1 hle
      rw [chan_succ_val hc] at this
      omega
    have hread : s.countRow.channel c = s.channel c := by
      rw [State.countRow_channel, if_neg (fun e => by rw [e] at hlt; omega)]
    show (s.countRow.channel c).rowCtr.toNat < 64
    rw [hread]
    exact ha hq c (Fin.le_def.2 (by omega))

theorem State.Sound.advanceTick {s : State} (h : s.Sound) (hq : s.seq = .tick) :
    s.advanceTick.Sound ∧ s.advanceTick.RowsAhead := by
  rcases s.advanceTick_cases with ⟨_, e⟩ | ⟨_, e⟩ <;> rw [e]
  · exact ⟨h.finishTick, fun hrow => by simp at hrow⟩
  · exact ⟨{ h with }, fun hrow => by simp [hq] at hrow⟩

/-- An order entry changes no channel, or starts the rows of a pattern over on all of them (R165). -/
theorem State.Sound.orderEntry {s t : State} {i : Instr} (h : s.Sound) (hi : fetchOrder s = .ok i)
    (hx : exec i s = .next t) : t.Sound ∧ t.RowsAhead := by
  rcases exec_order_next hi hx with ⟨_, o, rfl⟩ | ⟨n, rfl⟩
  · exact ⟨{ h with }, fun hrow => by cases hrow⟩
  · have hread : ∀ c : Fin 4, (onAll Channel.rewind s.chans)[c] = (s.channel c).rewind :=
      fun c => onAll_getElem _ _ _ c.isLt
    refine ⟨⟨fun c => ?_, h.gvol, h.rate, fun c hc => ?_⟩, fun _ c _ => ?_⟩
    · obtain ⟨hk, hid⟩ := channelInv_iff.1 (h.channels c)
      simp only [State.channel, hread]
      exact channelInv_iff.2 ⟨{ hk with rowCtr := Nat.zero_le 64 }, hid.tremor, hid.vibrato⟩
    · simp only [State.channel, hread] at hc
      cases hc
    · simp only [State.channel, hread]
      exact (by decide : (0 : BitVec 7).toNat < 64)

/-- Every instruction of a tick event keeps the session sound and the rows ahead (R160 to R165). -/
theorem State.Sound.turn {s t : State} (h : s.Sound) (ha : s.RowsAhead) (hw : s.cfg.coding.wf = true)
    (ht : turn s = .next t) : t.Sound ∧ t.RowsAhead := by
  rcases turn_next ht with ⟨_, rfl⟩ | ⟨_, i, hi, hx⟩ | ⟨hq, _, eff, e, u, hu, rfl⟩ | ⟨hq, _, rfl⟩ | ⟨hq, u, hu, rfl⟩
  · exact ⟨h, ha⟩
  · exact h.orderEntry hi hx
  · obtain ⟨hsound, hrows⟩ := h.rowEvent hw hq hu
    exact hsound.advanceRow ((exec_event_seq hu).1.trans hq) (hrows ha)
  · exact h.advanceRow hq ha
  · exact (h.tickEvent hq hu).advanceTick ((exec_event_seq hu).1.trans hq)

/-- So does the rest of an operation. -/
theorem State.Sound.finishOperation {s t : State} (h : s.Sound) (ha : s.RowsAhead) (hw : s.cfg.coding.wf = true)
    (ht : finishOperation s = .next t) : t.Sound ∧ t.RowsAhead := by
  obtain ⟨hsound, hrows, _⟩ := finishOperation_keeps
    (P := fun u => u.Sound ∧ u.RowsAhead ∧ u.cfg.coding.wf = true)
    (fun u v ⟨hu, hru, hwu⟩ hv =>
      have ⟨hsound, hrows⟩ := hu.turn hru hwu hv
      ⟨hsound, hrows, (turn_frame hv).cfg ▸ hwu⟩)
    ⟨h, ha, hw⟩ ht
  exact ⟨hsound, hrows⟩

/-- A tick event is entered at a row of the pattern: a row counter at 64 has its change pending (R160, R161). -/
theorem State.Sound.enterTick {s : State} (h : s.Sound) : s.enterTick.Sound ∧ s.enterTick.RowsAhead := by
  rcases s.enterTick_cases with ⟨_, e⟩ | ⟨_, _, e⟩ | ⟨_, _, e⟩ <;> rw [e]
  · exact ⟨{ h with }, fun hrow => by cases hrow⟩
  · exact ⟨h.finishTick, fun hrow => by simp at hrow⟩
  · refine ⟨{ h with }, fun hrow c _ => ?_⟩
    have hchg : s.ctx.chgPat = false := by
      cases hp : s.ctx.chgPat
      · rfl
      · simp [hp] at hrow
    have hle := (channelInv_iff.1 (h.channels c)).1.rowCtr
    have hne : (s.channel c).rowCtr.toNat ≠ 64 := fun e => by
      have := h.pending c (BitVec.eq_of_toNat_eq e)
      rw [hchg] at this
      cases this
    show (s.channel c).rowCtr.toNat < 64
    omega

/-! ### The host's requests -/

/-- A turn of the mixer writes at most a position (R262). -/
theorem Mix.turn_frame {g : Song} {d : Fin 4} {m m' : Mix} (h : m.turn g d = .ok m') (c : Fin 4) :
    ∃ p, m'.chans[c] = { m.chans[c] with pos := p } := by
  obtain ⟨⟨ch, v⟩, hmix, rfl⟩ := Mix.turn_ok.1 h
  by_cases hcd : d = c
  · subst hcd
    exact ⟨ch.pos, by simpa using Channel.mix_frame hmix⟩
  · have : d.val ≠ c.val := fun e => hcd (Fin.ext e)
    exact ⟨m.chans[c].pos, by simp [Vector.getElem_set_ne, this]⟩

theorem Mix.turns_frame {g : Song} {cs : List (Fin 4)} {m m' : Mix} (h : Mix.turns g cs m = .ok m') (c : Fin 4) :
    ∃ p, m'.chans[c] = { m.chans[c] with pos := p } := by
  induction cs generalizing m with
  | nil => cases h; exact ⟨_, rfl⟩
  | cons d cs ih =>
    unfold Mix.turns at h
    split at h
    · cases h
    · rename_i b hb
      obtain ⟨p, hp⟩ := Mix.turn_frame hb c
      obtain ⟨q, hq⟩ := ih h
      exact ⟨q, by rw [hq, hp]⟩

/-- So does the mixer. -/
theorem mixAll_frame {g : Song} {chans : Vector Channel 4} {m : Mix} (h : mixAll g chans = .ok m) (c : Fin 4) :
    ∃ p, m.chans[c] = { chans[c] with pos := p } := Mix.turns_frame h c

/-- RENDER's mixing and frame counting lead to a sound state, at the rows of the pattern (R260, R266). -/
theorem State.Sound.countFrame {s : State} {m : Mix} {v : Result} (h : s.Sound) (hq : s.seq = .host)
    (hm : mixAll s.song s.chans = .ok m) :
    (State.countFrame { s with chans := m.chans, result := v }).Sound ∧
      (State.countFrame { s with chans := m.chans, result := v }).RowsAhead := by
  have hmixed : State.Sound { s with chans := m.chans, result := v } := by
    refine ⟨fun c => ?_, h.gvol, h.rate, fun c hc => ?_⟩ <;> obtain ⟨p, hp⟩ := mixAll_frame hm c
    · simp only [State.channel, hp]
      obtain ⟨hk, hi⟩ := channelInv_iff.1 (h.channels c)
      exact channelInv_iff.2 ⟨{ hk with }, hi.tremor, hi.vibrato⟩
    · simp only [State.channel, hp] at hc
      exact h.pending c hc
  rcases State.countFrame_cases { s with chans := m.chans, result := v } with ⟨_, e⟩ | ⟨_, e⟩ <;> rw [e]
  · exact State.Sound.enterTick { hmixed with }
  · exact ⟨{ hmixed with }, fun hrow => by simp [hq] at hrow⟩

/-! ### The host's other acts -/

theorem hostSetSingleRow_next {s t : State} {b : Bool} (h : hostSetSingleRow b s = .next t) :
    s.session = .started ∧ t = { s with ctx := { s.ctx with singleRow := b } } := by
  unfold hostSetSingleRow at h
  split at h
  · rename_i hs; cases h; exact ⟨hs, rfl⟩
  · cases h

theorem hostSetActive_next {s t : State} {c : Fin 4} {b : Bool} (h : hostSetActive c b s = .next t) :
    s.session = .started ∧ t = s.setChannel c { s.channel c with active := b } := by
  unfold hostSetActive at h
  split at h
  · rename_i hs; cases h; exact ⟨hs, rfl⟩
  · cases h

theorem hostLoad_next {g : Song} {c : Cfg} {s t : State} (h : hostLoad g c s = .next t) :
    s.session.live = false ∧ t = { s with given := ⟨g, c⟩ } := by
  unfold hostLoad at h
  split at h
  · cases h
  · rename_i hs; cases h; exact ⟨by simpa using hs, rfl⟩

/-- `active[c]` is no part of the invariant (R320). -/
theorem State.Sound.setActive {s : State} (h : s.Sound) (c : Fin 4) (b : Bool) :
    (s.setChannel c { s.channel c with active := b }).Sound := by
  have hread : ∀ d, (s.setChannel c { s.channel c with active := b }).channel d =
      { s.channel d with active := if d = c then b else (s.channel d).active } := fun d => by
    rw [State.channel_setChannel]
    split
    · rename_i e; rw [e]
    · rfl
  refine ⟨fun d => ?_, h.gvol, h.rate, fun d hd => h.pending d ?_⟩
  · obtain ⟨hk, hi⟩ := channelInv_iff.1 (h.channels d)
    rw [hread]
    exact channelInv_iff.2 ⟨{ hk with }, hi.tremor, hi.vibrato⟩
  · rwa [hread] at hd

/-! ### START -/

/-- The context START leaves before its priming tick (R62, R292): `set_tempo` with a positive divisor. -/
def State.startCtx (s : State) (r : BitVec 16) : Context :=
  { startContext s.cfg s.fresh r with
    tempo := s.cfg.initTempo
    ticksPerRow := hiNibble s.cfg.initTempo
    framesPerTick :=
      BitVec.ofNat 16 ((startContext s.cfg s.fresh r).rate.toNat / (tempoDivisor s.cfg s.cfg.initTempo).toNat)
    frameCtr :=
      BitVec.ofNat 16 ((startContext s.cfg s.fresh r).rate.toNat / (tempoDivisor s.cfg s.cfg.initTempo).toNat) }

/-- The state in which START's priming tick reads order entry 0 (R292, R333). -/
def State.primed (s : State) (r : BitVec 16) : State :=
  { s with
    chans := Vector.ofFn (startChannel s.fresh), ctx := s.startCtx r, fresh := s.fresh + 1
    session := .started, result := .none, priming := true, seq := .order, chan := 0 }

@[simp] theorem State.primed_channel (s : State) (r : BitVec 16) (c : Fin 4) :
    (s.primed r).channel c = startChannel s.fresh c := by
  simp [State.channel, State.primed]

/-- START in a session, with a positive divisor for the initial tempo, is its priming tick from order entry 0: the
tick counter is 0 and a pattern change is requested (R292, R333). -/
theorem exec_start_primed {s : State} (h : s.seq = .host) (hs : s.session.live = true)
    (hd : 0 < tempoDivisor s.cfg s.cfg.initTempo) (r : BitVec 16) :
    exec (.start r) s = finishOperation (s.primed r) := by
  rw [exec_start h hs, Context.setTempo_ok.2 ⟨hd, rfl⟩]
  rfl

theorem exec_start_primed_next {s t : State} {r : BitVec 16} (h : exec (.start r) s = .next t) :
    finishOperation (s.primed r) = .next t := by
  obtain ⟨hq, hs, x, hx, _⟩ := exec_start_next h
  rwa [exec_start_primed hq hs (Context.setTempo_ok.1 hx).1] at h

/-- The START values meet the invariant of a started session (R62). -/
theorem State.primed_sound {s : State} (h : s.cfg.wf = true) (r : BitVec 16) : (s.primed r).Sound := by
  obtain ⟨hw, hrate, hgvol⟩ := Cfg.wf_start h
  refine ⟨fun c => ?_, hgvol, ?_, fun c hc => rfl⟩
  · rw [State.primed_channel]
    have hkept : (startChannel s.fresh c).Kept s.cfg (s.primed r).ctx.rate :=
      ⟨Nat.zero_le _, Nat.zero_le _, Nat.zero_le _, rfl, rfl, Nat.zero_le _, ⟨nofun, fun hb => absurd rfl hb⟩⟩
    exact channelInv_iff.2 ⟨hkept, fun _ => ⟨rfl, rfl⟩, fun _ _ => rfl⟩
  · show (if r = 0 then s.cfg.defaultRate else r) ≠ 0
    split <;> assumption

/-! ### The invariant -/

/-- The rest of an operation keeps the invariant, from a started session (R60, R290). -/
theorem Inv.finishOperation {s t : State} (hi : Inv s) (hs : s.session = .started)
    (ht : finishOperation s = .next t) : Inv t := by
  obtain ⟨hb, hg, ho, _, hrun⟩ := inv_iff.1 hi
  obtain ⟨hsound, hrows⟩ := hrun hs
  have hf := finishOperation_frame ht
  refine inv_iff.2 ⟨?_, ?_, ?_, fun _ => hf.session.trans hs, fun _ => hsound.finishOperation hrows hb.coding ht⟩
  · rw [hf.song, hf.cfg]; exact hb
  · rw [hf.given]; exact hg
  · rw [hf.ops]; exact ho

/-- A request served leaves the invariant of what is left of the queue. -/
theorem Inv.dequeue {s : State} {r : Request} {rest : List Request} (hi : Inv s) (ho : s.ops = r :: rest) :
    Inv { s with ops := rest } := by
  obtain ⟨hb, hg, hl, hs, hrun⟩ := hi
  exact ⟨hb, hg, fun g c hm => hl g c (ho ▸ List.mem_cons_of_mem r hm), hs, hrun⟩

/-- A started session at rest keeps the invariant when its registers stay sound. -/
theorem Inv.registers {s t : State} (hi : Inv s) (hq : t.seq = .host) (ht : t.Sound)
    (hsong : t.song = s.song) (hcfg : t.cfg = s.cfg) (hgiven : t.given = s.given) (hops : t.ops = s.ops) : Inv t := by
  obtain ⟨hb, hg, ho, _, _⟩ := hi
  refine inv_iff.2 ⟨?_, ?_, ?_, fun h => absurd hq h, fun _ => ⟨ht, fun hrow => by rw [hq] at hrow; cases hrow⟩⟩
  · rw [hsong, hcfg]; exact hb
  · rw [hgiven]; exact hg
  · rw [hops]; exact ho

/-- Every operation of the host keeps the invariant (R291 to R297). -/
theorem Inv.operation {s t : State} {i : Instr} (hi : Inv s) (hf : i.format = .hostop)
    (h : exec i s = .next t) : Inv t := by
  obtain ⟨hb, hg, ho, _, hrun⟩ := inv_iff.1 hi
  cases i
  case create =>
    obtain ⟨hq, _, rfl⟩ := exec_create_next h
    exact inv_iff.2 ⟨hg, hg, ho, fun hn => absurd hq hn, fun hs => by cases hs⟩
  case start r =>
    refine Inv.finishOperation (s := s.primed r) ?_ rfl (exec_start_primed_next h)
    exact inv_iff.2 ⟨hb, hg, ho, fun _ => rfl, fun _ => ⟨State.primed_sound hb.1 r, fun hrow => by cases hrow⟩⟩
  case setPosition o =>
    obtain ⟨hq, hs, rfl⟩ := exec_setPosition_next h
    exact hi.registers hq { (hrun hs).1 with pending := fun _ _ => rfl } rfl rfl rfl rfl
  case queryPosition =>
    obtain ⟨hq, hs, rfl⟩ := exec_queryPosition_next h
    exact hi.registers hq { (hrun hs).1 with } rfl rfl rfl rfl
  case render =>
    obtain ⟨hq, hs, m, hm, hfin⟩ := exec_render_next h
    have hf := State.countFrame_frame { s with chans := m.chans, result := .sample (m.acc + 128) }
    refine Inv.finishOperation ?_ (hf.session.trans hs) hfin
    refine inv_iff.2 ⟨?_, ?_, ?_, fun _ => hf.session.trans hs, fun _ => (hrun hs).1.countFrame hq hm⟩
    · rw [hf.song, hf.cfg]; exact hb
    · rw [hf.given]; exact hg
    · rw [hf.ops]; exact ho
  case destroy =>
    obtain ⟨hq, _, rfl⟩ := exec_destroy_next h
    exact inv_iff.2 ⟨hb, hg, ho, fun hn => absurd hq hn, fun hs => by cases hs⟩
  all_goals cases hf

/-- Every request of the host keeps the invariant (R87, R290, R320). -/
theorem Inv.serve {s t : State} {r : Request} (hi : Inv s) (hq : s.seq = .host)
    (hl : ∀ g c, r = .load g c → Binding.Legal ⟨g, c⟩) (h : serve r s = .next t) : Inv t := by
  obtain ⟨hb, _, ho, hseq, hrun⟩ := inv_iff.1 hi
  cases r with
  | op code arg =>
    obtain ⟨i, hfetch, h⟩ := withValue_next.1 h
    exact hi.operation (fetchOp_format hfetch) h
  | setSingleRow b =>
    obtain ⟨hs, rfl⟩ := hostSetSingleRow_next h
    exact hi.registers hq { (hrun hs).1 with } rfl rfl rfl rfl
  | setActive c b =>
    obtain ⟨hs, rfl⟩ := hostSetActive_next h
    exact hi.registers hq ((hrun hs).1.setActive c b) rfl rfl rfl rfl
  | writeOther => cases h
  | load g c =>
    obtain ⟨_, rfl⟩ := hostLoad_next h
    exact inv_iff.2 ⟨hb, hl g c rfl, ho, hseq, fun hs => ⟨{ (hrun hs).1 with }, (hrun hs).2⟩⟩

/-- Settles O16: between operations a request is served, inside one its rest is run. -/
theorem stepKeepsTheInvariant : Obligations.StepKeepsTheInvariant := by
  intro s t hi h
  obtain ⟨_, _, hloads, hinside, _⟩ := inv_iff.1 hi
  rcases step_cases s with ⟨_, _, e⟩ | ⟨hq, r, rest, ho, e⟩ | ⟨hq, e⟩ <;> rw [e] at h
  · cases h; exact hi
  · have hlegal : ∀ g c, r = .load g c → Binding.Legal ⟨g, c⟩ := fun g c hr =>
      hloads g c (by rw [ho, hr]; exact List.mem_cons_self)
    exact (hi.dequeue ho).serve hq hlegal h
  · exact hi.finishOperation (hinside hq) h

end Sys2Proof.Machine

/-! PROOFS. The step and the state after reset. -/

namespace Sys2Proof.Machine

/-- An order byte that decodes, within the order list, is what is fetched there (R71, R165). -/
theorem fetchOrder_of_decode {s : State} {i : Instr} (hlen : s.ctx.orderPos.toNat < s.song.orderLen)
    (hd : decodeOrder s.cfg.coding (Memory.read .ord s.song.ord s.ctx.orderPos.toNat) = .ok i) :
    fetchOrder s = .ok i := by
  simp [fetchOrder, Song.orderAt, hlen, hd]

/-- The four bytes at the channel's place in its row are the event fetched (R72, R74, R101). -/
theorem fetchEvent_at {s : State} {a : Nat} (hp : s.ctx.pattern.toNat < s.song.nPatterns)
    (hr : s.cur.rowCtr.toNat < 64)
    (ha : a = 1024 * s.ctx.pattern.toNat + 16 * s.cur.rowCtr.toNat + 4 * s.chan.val) :
    fetchEvent s = .ok (decodeEvent s.cfg.coding
      (Memory.read .pat s.song.pat (a + 3) ++ Memory.read .pat s.song.pat (a + 2) ++
        Memory.read .pat s.song.pat (a + 1) ++ Memory.read .pat s.song.pat a)) := by
  have hc := s.chan.isLt
  have hoff : eventOffset s.cur.rowCtr s.chan + 3 < 1024 := by unfold eventOffset; omega
  have haddr : 1024 * s.ctx.pattern.toNat + eventOffset s.cur.rowCtr s.chan = a := by
    unfold eventOffset; omega
  simp only [fetchEvent, Song.eventAt, if_pos (And.intro hp hoff), haddr]

/-- A step inside an operation is the instruction the sequencer stands at, and the rest (R290; log entry 1). -/
theorem step_turn {s : State} (hq : s.seq ≠ .host) : step s = andThen (turn s) (runOn 5) := by
  rw [step_inside hq, finishOperation_turn hq]

/-- Settles O9: each decoder reads where the sequencer stands, and the rest of the operation is run on. -/
theorem stepRunsTheDecodedInstruction : Obligations.StepRunsTheDecodedInstruction := by
  intro s i
  have inside {q : Seq} (h : s.seq = q) (hq : q ≠ .host) : s.seq ≠ .host := h ▸ hq
  refine ⟨?_, ?_, ?_, ?_, ?_⟩
  · intro code arg rest hq ho hd
    rw [step_request hq ho]
    simp [serve, fetchOp, hd]
  · intro hq hlen hd
    have hturn : turn s = exec i s := by
      rcases turn_cases s with ⟨hh, _⟩ | ⟨_, ht⟩ | ⟨hh, _⟩ | ⟨hh, _⟩ | ⟨hh, _⟩
      case inr.inl => rw [ht, fetchOrder_of_decode hlen hd, withValue_ok]
      all_goals rw [hh] at hq; simp at hq
    rw [step_turn (hq.elim (inside · (by decide)) (inside · (by decide))), hturn]
  · intro a hq hact hp hr ha hd
    rw [step_turn (inside hq (by decide))]
    simp only [turn, hq, hact, if_true, fetchEvent_at hp hr ha, hd, withValue_ok,
      runInside_eq_exec (inside hq (by decide)), andThen_assoc, andThen_next]
  · intro hq hact
    rw [step_turn (inside hq (by decide))]
    simp [turn, hq, hact]
  · intro hq hd
    have hi : fetchLatched s = i := hd
    rw [step_turn (inside hq (by decide))]
    simp only [turn, hq, hi, runInside_eq_exec (inside hq (by decide)), andThen_assoc, andThen_next]

/-- Every channel is reset to the START values (R62). -/
theorem State.reset_channel (c : Fin 4) : State.reset.channel c = Channel.start := by
  simp [State.channel, State.reset]

/-- Settles O18: the channels register by register, then the context, its tempo registers by `set_tempo`'s formulas. -/
theorem resetHoldsTheStartValues : Obligations.ResetHoldsTheStartValues := by
  refine ⟨fun c => ?_, rfl, rfl, rfl, rfl, ?_, ?_, rfl, rfl, rfl, rfl, rfl, rfl⟩
  · rw [State.reset_channel]; rfl
  · decide
  · decide

end Sys2Proof.Machine

/-! PROOFS. The registers R62 leaves unspecified: every register operation and every event commutes with other contents
in an unwritten `c2spd` or `last_note`, and what needs them written is refused where they are not. -/

namespace Sys2Proof.Machine

/-! ### One channel -/

section Unwritten

variable (x : BitVec 16) (n : BitVec 8)

theorem Channel.latch_withUnwritten (cmd : BitVec 4) (e : EventArgs) (ch : Channel) :
    (ch.withUnwritten x n).latch cmd e = (ch.latch cmd e).withUnwritten x n := rfl

theorem Channel.explicitVolume_withUnwritten (ch : Channel) :
    (ch.withUnwritten x n).explicitVolume = ch.explicitVolume.map (·.withUnwritten x n) := by
  have hvol : (ch.withUnwritten x n).evVol = ch.evVol := rfl
  simp only [Channel.explicitVolume, hvol]
  split_ifs <;> rfl

/-- A binding writes `c2spd`, whatever it held. -/
theorem Channel.rebind_withUnwritten (slot : BitVec 5) (d : SampleDesc) (ch : Channel) :
    (ch.withUnwritten x n).rebind slot d = (ch.rebind slot d).map (·.withUnwritten x n) := by
  simp only [Channel.rebind, Channel.withUnwritten]
  split <;> rfl

theorem Channel.sampleStep_withUnwritten (g : Song) (ch : Channel) :
    (ch.withUnwritten x n).sampleStep g = (ch.sampleStep g).map (·.withUnwritten x n) := by
  have hsmp : (ch.withUnwritten x n).evSmp = ch.evSmp := rfl
  simp only [Channel.sampleStep, hsmp, Channel.rebind_withUnwritten]
  split
  · rfl
  · cases ch.rebind ch.evSmp (g.desc ch.evSmp) with
    | error r => rfl
    | ok c =>
      simp only [Except.map]
      split <;> rfl

theorem Channel.portaSampleStep_withUnwritten (cfg : Cfg) (g : Song) (ch : Channel) :
    (ch.withUnwritten x n).portaSampleStep cfg g = (ch.portaSampleStep cfg g).map (·.withUnwritten x n) := by
  have hsmp : (ch.withUnwritten x n).evSmp = ch.evSmp := rfl
  simp only [Channel.portaSampleStep, hsmp, Channel.rebind_withUnwritten]
  split <;> rfl

/-- Where no sample was bound a note has no period, and the reason does not depend on `c2spd` (R144, R336 e). -/
theorem Channel.notePeriod_unbound {ch : Channel} (h : ch.sampleBound = false) (cfg : Cfg) (k : Nat) :
    ch.notePeriod cfg k =
      .error (if 11 < k % 16 ∨ cfg.nOctaves ≤ k / 16 then .invalidNote else .unboundSample) := by
  simp only [Channel.notePeriod, periodOf, h, Bool.false_eq_true, if_false]
  split_ifs
  · rfl
  · cases notePeriodAt cfg (ptab cfg (k / 16) (k % 16)) ch.c2spd <;> rfl

theorem Channel.notePeriod_withUnwritten (cfg : Cfg) (k : Nat) (ch : Channel) :
    (ch.withUnwritten x n).notePeriod cfg k = ch.notePeriod cfg k := by
  have hb : (ch.withUnwritten x n).sampleBound = ch.sampleBound := rfl
  cases h : ch.sampleBound with
  | false => rw [Channel.notePeriod_unbound h, Channel.notePeriod_unbound (hb.trans h)]
  | true =>
    have hc : (ch.withUnwritten x n).c2spd = ch.c2spd := if_pos h
    simp only [Channel.notePeriod, hb, hc]

/-- A note that plays writes `last_note`, whatever it held. -/
theorem Channel.playNote_withUnwritten (cfg : Cfg) (rate : BitVec 16) (b : BitVec 8) (ch : Channel) :
    (ch.withUnwritten x n).playNote cfg rate b = (ch.playNote cfg rate b).map (·.withUnwritten x n) := by
  simp only [Channel.playNote, Channel.notePeriod_withUnwritten]
  cases ch.notePeriod cfg b.toNat <;> rfl

theorem Channel.aimNote_withUnwritten (cfg : Cfg) (b : BitVec 8) (ch : Channel) :
    (ch.withUnwritten x n).aimNote cfg b = (ch.aimNote cfg b).map (·.withUnwritten x n) := by
  simp only [Channel.aimNote, Channel.notePeriod_withUnwritten]
  cases ch.notePeriod cfg b.toNat <;> rfl

theorem Channel.noteStep_withUnwritten (cfg : Cfg) (rate : BitVec 16) (porta : Bool) (ch : Channel) :
    (ch.withUnwritten x n).noteStep cfg rate porta = (ch.noteStep cfg rate porta).map (·.withUnwritten x n) := by
  have hnote : (ch.withUnwritten x n).evNote = ch.evNote := rfl
  simp only [Channel.noteStep, hnote]
  cases noteForm ch.evNote with
  | cut => cases porta <;> rfl
  | none => rfl
  | concrete b =>
    cases porta
    · exact Channel.playNote_withUnwritten x n cfg rate b ch
    · exact Channel.aimNote_withUnwritten x n cfg b ch

theorem Channel.trigger_withUnwritten (cfg : Cfg) (g : Song) (rate : BitVec 16) (porta : Bool) (ch : Channel) :
    (ch.withUnwritten x n).trigger cfg g rate porta = (ch.trigger cfg g rate porta).map (·.withUnwritten x n) := by
  simp only [Channel.trigger, Channel.explicitVolume_withUnwritten]
  cases ch.explicitVolume with
  | error r => rfl
  | ok c₁ =>
    simp only [Except.map]
    cases porta
    · simp only [Channel.sampleStep_withUnwritten, Bool.false_eq_true, if_false]
      cases c₁.sampleStep g with
      | error r => rfl
      | ok c₂ => exact Channel.noteStep_withUnwritten x n cfg rate false c₂
    · simp only [Channel.noteStep_withUnwritten, if_true]
      cases c₁.noteStep cfg rate true with
      | error r => rfl
      | ok c₂ => exact Channel.portaSampleStep_withUnwritten x n cfg g c₂

theorem Channel.continuationReset_withUnwritten (eff : Effect) (ch : Channel) :
    (ch.withUnwritten x n).continuationReset eff = (ch.continuationReset eff).withUnwritten x n := rfl

theorem Channel.doTremor_withUnwritten (ch : Channel) :
    (ch.withUnwritten x n).doTremor = ch.doTremor.withUnwritten x n := by
  have hctr : (ch.withUnwritten x n).tremorCtr = ch.tremorCtr := rfl
  have hstate : (ch.withUnwritten x n).tremorState = ch.tremorState := rfl
  simp only [Channel.doTremor, hctr, hstate]
  split_ifs <;> rfl

/-- Where no note was played an arpeggio does not read `last_note` (R211, R336 f). -/
theorem Channel.arpeggio_withUnwritten (cfg : Cfg) (rate : BitVec 16) (tickCtr p : BitVec 8) (ch : Channel) :
    (ch.withUnwritten x n).arpeggio cfg rate tickCtr p =
      (ch.arpeggio cfg rate tickCtr p).map (·.withUnwritten x n) := by
  have hp : (ch.withUnwritten x n).notePlayed = ch.notePlayed := rfl
  simp only [Channel.arpeggio, hp]
  split
  · rename_i h
    have hl : (ch.withUnwritten x n).lastNote = ch.lastNote := if_pos h
    rw [hl]
    cases arpeggioNote ch.lastNote (arpeggioOffset tickCtr p) with
    | error r => rfl
    | ok k =>
      simp only [Channel.notePeriod_withUnwritten]
      cases ch.notePeriod cfg k <;> rfl
  · rfl

/-! ### One event -/

/-- The state with other contents in the unwritten registers of the channel being served. -/
def State.withUnwritten (s : State) : State := s.setCur (s.cur.withUnwritten x n)

@[simp] theorem State.setCur_withUnwritten (s : State) (ch : Channel) :
    (s.setCur ch).withUnwritten x n = s.setCur (ch.withUnwritten x n) := by
  simp [State.withUnwritten]

theorem withValue_map {α β : Type} (v : Except Refusal α) (g : α → β) (f : β → Out) :
    withValue (v.map g) f = withValue v fun a => f (g a) := by
  cases v <;> rfl

/-- An action on the served channel that does not read the unwritten registers. -/
theorem channelAction_withUnwritten {f : Channel → Channel} {s : State}
    (hf : f (s.cur.withUnwritten x n) = (f s.cur).withUnwritten x n) :
    channelAction f (s.withUnwritten x n) =
      andThen (channelAction f s) fun t => .next (t.withUnwritten x n) := by
  simp [channelAction, State.withUnwritten, hf]

theorem rowAction_withUnwritten (eff : Effect) (s : State) :
    rowAction eff (s.withUnwritten x n) = andThen (rowAction eff s) fun t => .next (t.withUnwritten x n) := by
  have hparam : (s.withUnwritten x n).cur.evParam = s.cur.evParam := by
    rw [State.withUnwritten, State.setCur_cur]; rfl
  cases eff
  case setSpeed =>
    simp only [rowAction, setSpeedOnce, hparam]
    split
    · rfl
    · show withValue (s.ctx.setTempo s.cfg s.cur.evParam) _ = _
      cases s.ctx.setTempo s.cfg s.cur.evParam <;> rfl
  case posJump => simp only [rowAction, posJumpOnce, hparam]; rfl
  case tremor => exact channelAction_withUnwritten x n (Channel.doTremor_withUnwritten x n s.cur)
  all_goals rfl

theorem tickAction_withUnwritten (eff : Effect) (s : State) :
    tickAction eff (s.withUnwritten x n) = andThen (tickAction eff s) fun t => .next (t.withUnwritten x n) := by
  have hparam : (s.withUnwritten x n).cur.evParam = s.cur.evParam := by
    rw [State.withUnwritten, State.setCur_cur]; rfl
  cases eff
  case arpeggio =>
    simp only [tickAction, arpeggioTick, State.withUnwritten, State.setCur_cur, State.setCur_cfg,
      State.setCur_ctx, Channel.arpeggio_withUnwritten, withValue_map, andThen_withValue, andThen_next,
      State.setCur_setCur]
    rfl
  case tremor => exact channelAction_withUnwritten x n (Channel.doTremor_withUnwritten x n s.cur)
  case volSlide => simp only [tickAction, volSlideTick, hparam]; exact channelAction_withUnwritten x n rfl
  case portaDown => simp only [tickAction, portaDownTick, hparam]; exact channelAction_withUnwritten x n rfl
  case portaUp => simp only [tickAction, portaUpTick, hparam]; exact channelAction_withUnwritten x n rfl
  case tonePorta => simp only [tickAction, tonePortaTick, hparam]; exact channelAction_withUnwritten x n rfl
  case vibrato => simp only [tickAction, vibratoTick, hparam]; exact channelAction_withUnwritten x n rfl
  case volslideVib =>
    simp only [tickAction, volslideVibTick, hparam]; exact channelAction_withUnwritten x n rfl
  case volslideTporta =>
    simp only [tickAction, volslideTportaTick, hparam]; exact channelAction_withUnwritten x n rfl
  all_goals rfl

/-- No event reads the unwritten registers of its channel (R21). -/
theorem exec_event_withUnwritten (eff : Effect) (e : EventArgs) (s : State) :
    exec (Instr.ofEvent eff e) (s.withUnwritten x n) =
      andThen (exec (Instr.ofEvent eff e) s) fun t => .next (t.withUnwritten x n) := by
  have hcur : (s.withUnwritten x n).cur = s.cur.withUnwritten x n := State.setCur_cur s _
  have hset : ∀ ch, (s.withUnwritten x n).setCur (Channel.withUnwritten x n ch) =
      (s.setCur ch).withUnwritten x n := fun ch => by
    rw [State.setCur_withUnwritten, State.withUnwritten, State.setCur_setCur]
  by_cases hq : s.seq = .tick
  · rw [exec_tick (s := s.withUnwritten x n) hq, exec_tick hq, hcur, Channel.continuationReset_withUnwritten, hset]
    exact tickAction_withUnwritten x n eff _
  · rw [exec_ofEvent, exec_ofEvent, onEvent, onEvent, if_neg (show (s.withUnwritten x n).seq ≠ .tick from hq),
      if_neg hq, hcur, Channel.latch_withUnwritten]
    show withValue (Channel.trigger s.cfg s.song s.ctx.rate _ _) _ = _
    rw [Channel.trigger_withUnwritten, withValue_map, andThen_withValue]
    simp only [Channel.continuationReset_withUnwritten, hset, rowAction_withUnwritten]
    rfl

end Unwritten

/-! ### What has been bound and played -/

/-- What has been bound or played stays so marked. -/
structure Channel.MarksKept (ch ch' : Channel) : Prop where
  bound : ch.sampleBound = true → ch'.sampleBound = true
  played : ch.notePlayed = true → ch'.notePlayed = true

theorem Channel.MarksKept.comp {a b c : Channel} (h : a.MarksKept b) (k : b.MarksKept c) : a.MarksKept c :=
  ⟨k.bound ∘ h.bound, k.played ∘ h.played⟩

/-- An update that leaves both marks. -/
theorem Channel.MarksKept.of_eq {a b : Channel} (hb : b.sampleBound = a.sampleBound)
    (hp : b.notePlayed = a.notePlayed) : a.MarksKept b :=
  ⟨fun h => hb.trans h, fun h => hp.trans h⟩

theorem Channel.explicitVolume_marks {ch ch' : Channel} (h : ch.explicitVolume = .ok ch') :
    ch'.sampleBound = ch.sampleBound ∧ ch'.notePlayed = ch.notePlayed := by
  rw [(Channel.explicitVolume_ok.1 h).2]
  split <;> exact ⟨rfl, rfl⟩

theorem Channel.rebind_marks {slot : BitVec 5} {d : SampleDesc} {ch ch' : Channel} (h : ch.rebind slot d = .ok ch') :
    ch.MarksKept ch' := by
  rw [(Channel.rebind_ok.1 h).2]
  exact ⟨fun _ => rfl, id⟩

/-- A note step keeps the marks; a concrete note runs only where a sample is bound (R336 e). -/
theorem Channel.noteStep_marks {cfg : Cfg} {rate : BitVec 16} {porta : Bool} {ch ch' : Channel}
    (h : ch.noteStep cfg rate porta = .ok ch') :
    ch.MarksKept ch' ∧ (ch.evNote.toNat < 254 → ch.sampleBound = true) := by
  refine ⟨?_, fun hn => ?_⟩
  · rcases Channel.noteStep_cases h with ⟨b, _, _, h⟩ | ⟨b, _, _, h⟩ | ⟨_, _, rfl⟩ | ⟨_, rfl⟩
    · obtain ⟨p, _, rfl⟩ := Channel.aimNote_ok.1 h; exact .of_eq rfl rfl
    · obtain ⟨p, _, rfl⟩ := Channel.playNote_ok.1 h; exact ⟨id, fun _ => rfl⟩
    · exact .of_eq rfl rfl
    · exact .of_eq rfl rfl
  · rw [Channel.noteStep_concrete hn] at h
    cases porta
    · obtain ⟨p, hp, _⟩ := Channel.playNote_ok.1 h; exact (Channel.notePeriod_ok.1 hp).1
    · obtain ⟨p, hp, _⟩ := Channel.aimNote_ok.1 h; exact (Channel.notePeriod_ok.1 hp).1

theorem Channel.sampleStep_marks {g : Song} {ch ch' : Channel} (h : ch.sampleStep g = .ok ch') :
    ch.MarksKept ch' := by
  rcases Channel.sampleStep_cases h with ⟨_, rfl⟩ | ⟨_, c, hc, rfl⟩
  · exact .of_eq rfl rfl
  · refine (Channel.rebind_marks hc).comp ?_
    split <;> exact .of_eq rfl rfl

/-- A trigger keeps the marks; one with a concrete note runs only where its event binds a sample, or one was bound
(R240, R336 e). -/
theorem Channel.trigger_marks {cfg : Cfg} {g : Song} {rate : BitVec 16} {porta : Bool} {ch ch' : Channel}
    (h : ch.trigger cfg g rate porta = .ok ch') :
    ch.MarksKept ch' ∧
      (ch.evNote.toNat < 254 → (porta = false ∧ ch.evSmp ≠ 0) ∨ ch.sampleBound = true) := by
  obtain ⟨c₁, c₂, h₁, hrest⟩ := Channel.trigger_cases h
  obtain ⟨hb, hp⟩ := Channel.explicitVolume_marks h₁
  have hnote : c₁.evNote = ch.evNote := by rw [(Channel.explicitVolume_ok.1 h₁).2]; split <;> rfl
  have hsmp : c₁.evSmp = ch.evSmp := (Channel.explicitVolume_frame h₁).evSmp
  have hvol : ch.MarksKept c₁ := .of_eq hb hp
  rcases hrest with ⟨_, h₂, h₃⟩ | ⟨hporta, h₂, h₃⟩
  · obtain ⟨hmarks, hconcrete⟩ := Channel.noteStep_marks h₂
    refine ⟨(hvol.comp hmarks).comp ?_, fun hn => .inr (hb ▸ hconcrete (hnote ▸ hn))⟩
    rcases Channel.portaSampleStep_cases h₃ with rfl | ⟨_, _, hc⟩
    · exact .of_eq rfl rfl
    · exact Channel.rebind_marks hc
  · obtain ⟨hmarks, hconcrete⟩ := Channel.noteStep_marks h₃
    refine ⟨(hvol.comp (Channel.sampleStep_marks h₂)).comp hmarks, fun hn => ?_⟩
    by_cases h0 : ch.evSmp = 0
    · rcases Channel.sampleStep_cases h₂ with ⟨_, rfl⟩ | ⟨hne, _⟩
      · exact .inr (hb ▸ hconcrete (hnote ▸ hn))
      · exact absurd (hsmp.trans h0) hne
    · exact .inl ⟨hporta, h0⟩

theorem Channel.afterRow_marks (eff : Effect) (ch : Channel) : ch.MarksKept (ch.afterRow eff) := by
  unfold Channel.afterRow
  split
  · rw [Channel.doTremor_eq]; exact .of_eq rfl rfl
  · exact .of_eq rfl rfl

/-- A per-tick action leaves the marks. -/
theorem tickAction_marks {eff : Effect} {s t : State} (h : tickAction eff s = .next t) : s.cur.MarksKept t.cur := by
  obtain ⟨ch, rfl, hch⟩ := tickAction_next h
  rw [State.setCur_cur]
  rcases hch with ⟨rfl, rfl⟩ | ⟨rfl, rfl⟩ | ⟨rfl, rfl⟩ | ⟨rfl, rfl⟩ | ⟨rfl, rfl⟩ | ⟨rfl, rfl⟩ | ⟨rfl, hx⟩ |
    ⟨rfl, rfl⟩ | ⟨rfl, rfl⟩ | ⟨_, _, _, rfl⟩
  · exact .of_eq rfl rfl
  · exact .of_eq rfl rfl
  · exact .of_eq rfl rfl
  · exact .of_eq rfl rfl
  · exact .of_eq rfl rfl
  · rw [Channel.doTremor_eq]; exact .of_eq rfl rfl
  · obtain ⟨_, k, q, _, _, rfl⟩ := Channel.arpeggio_ok.1 hx; exact .of_eq rfl rfl
  · exact .of_eq rfl rfl
  · exact .of_eq rfl rfl
  · exact .of_eq rfl rfl

/-- An arpeggio runs only where a note was played and a sample bound (R211, R336 f). -/
theorem arpeggioTick_marks {s t : State} (h : arpeggioTick s = .next t) :
    s.cur.notePlayed = true ∧ s.cur.sampleBound = true := by
  obtain ⟨ch, hch, _⟩ := withValue_next.1 h
  obtain ⟨hplayed, k, q, _, hq, _⟩ := Channel.arpeggio_ok.1 hch
  exact ⟨hplayed, (Channel.notePeriod_ok.1 hq).1⟩

/-- An event that runs keeps the marks and the loader's contract (R336 e, f). -/
theorem exec_event_marks {s t : State} {eff : Effect} {e : EventArgs} (h : exec (Instr.ofEvent eff e) s = .next t) :
    s.cur.MarksKept t.cur ∧ s.PlaysBound eff e := by
  by_cases hq : s.seq = .tick
  · rw [exec_tick hq] at h
    have hmarks := tickAction_marks h
    rw [State.setCur_cur] at hmarks
    refine ⟨⟨hmarks.bound, hmarks.played⟩, fun hn => absurd hq hn, fun _ he => ?_⟩
    subst he
    have hplays := arpeggioTick_marks h
    rwa [State.setCur_cur] at hplays
  · obtain ⟨ch, hch, ht, _⟩ := exec_event_next hq h
    have hcur : t.cur = ch.afterRow eff := by rw [ht]; exact State.setCur_cur s _
    obtain ⟨hmarks, hconcrete⟩ := Channel.trigger_marks hch
    have hall := hmarks.comp (Channel.afterRow_marks eff ch)
    refine ⟨hcur ▸ ⟨hall.bound, hall.played⟩, fun _ hn => ?_, fun ht => absurd ht hq⟩
    exact (hconcrete hn).imp (fun ⟨hp, hs⟩ => ⟨of_decide_eq_false hp, hs⟩) id

/-- Settles O36: an event commutes with other contents in the unwritten registers, and one that runs keeps the
loader's contract and the marks. -/
theorem unwrittenRegistersAreNotRead : Obligations.UnwrittenRegistersAreNotRead := by
  intro s eff e x n
  refine ⟨exec_event_withUnwritten x n eff e s, fun hbreach => ?_, fun t h => ?_⟩
  · rcases out_cases (exec (Instr.ofEvent eff e) s) with ⟨t, h⟩ | hrefused
    · exact absurd (exec_event_marks h).2 hbreach
    · exact hrefused
  · obtain ⟨hmarks, _⟩ := exec_event_marks h
    exact ⟨hmarks.bound, hmarks.played⟩

end Sys2Proof.Machine

/-! PROOFS. START: what its priming tick leaves over any Song, and the state of R334 over an empty row 0. -/

namespace Sys2Proof.Machine

/-! ### Over any Song -/

/-- How far the priming tick has come (R292, R333): before the row every channel is active; in it the channels served
stand at row 1 and the others at row 0; after it all do, and the counters are loaded. -/
def State.Primes (s : State) : Prop :=
  match s.seq with
  | .order => s.priming = true ∧ ∀ c, (s.channel c).active = true
  | .orderAgain => s.priming = true ∧ ∀ c, (s.channel c).active = true
  | .row =>
    s.priming = true ∧ ∀ c, (s.channel c).active = true ∧ (s.channel c).rowCtr = if c < s.chan then 1 else 0
  | .tick => False
  | .host =>
    (∀ c, (s.channel c).rowCtr = 1 ∧ (s.channel c).active = true) ∧
    s.ctx.tickCtr.toNat = s.ctx.ticksPerRow.toNat - 1 ∧ s.ctx.frameCtr = s.ctx.framesPerTick

theorem State.primes_row {s : State} (h : s.seq = .row) :
    s.Primes ↔ s.priming = true ∧
      ∀ c, (s.channel c).active = true ∧ (s.channel c).rowCtr = if c < s.chan then 1 else 0 := by
  simp only [State.Primes, h]

theorem State.primes_host {s : State} (h : s.seq = .host) :
    s.Primes ↔ (∀ c, (s.channel c).rowCtr = 1 ∧ (s.channel c).active = true) ∧
      s.ctx.tickCtr.toNat = s.ctx.ticksPerRow.toNat - 1 ∧ s.ctx.frameCtr = s.ctx.framesPerTick := by
  simp only [State.Primes, h]

/-- The channels before the next one: those before this one, and this one. -/
theorem chan_lt_succ {c d : Fin 4} (h : c ≠ 3) : d < c + 1 ↔ d < c ∨ d = c := by
  revert h; revert c d; decide

/-- The reload of the tick counter: one less than the ticks of a row, or 0 (R162). -/
theorem tickReload_toNat (k : BitVec 4) :
    (if k = 0 then 0 else k.setWidth 8 - 1 : BitVec 8).toNat = k.toNat - 1 := by
  revert k; decide

/-- Whether a channel is active and at which row, after it has been counted (R163). -/
theorem State.countRow_rowZero {s : State}
    (h : ∀ c, (s.channel c).active = true ∧ (s.channel c).rowCtr = if c < s.chan then 1 else 0) (c : Fin 4) :
    (s.countRow.channel c).active = true ∧
      (s.countRow.channel c).rowCtr = if c < s.chan ∨ c = s.chan then 1 else 0 := by
  rw [State.countRow_channel]
  by_cases hc : c = s.chan
  · obtain ⟨hact, hrow⟩ := h s.chan
    rw [if_neg (lt_irrefl _)] at hrow
    rw [if_pos hc, if_pos (.inr hc)]
    exact ⟨hact, show s.cur.rowCtr + 1 = 1 by rw [show s.cur.rowCtr = 0 from hrow]; rfl⟩
  · simpa [hc] using h c

theorem State.Primes.advanceRow {s : State} (hq : s.seq = .row) (h : s.Primes) : s.advanceRow.Primes := by
  obtain ⟨hprime, hrows⟩ := (State.primes_row hq).1 h
  have hcount := State.countRow_rowZero hrows
  rcases s.advanceRow_cases with ⟨hc, e⟩ | ⟨hc, e⟩ <;> rw [e]
  · refine (State.primes_host rfl).2 ⟨fun c => ?_, ?_, ?_⟩
    · obtain ⟨hact, hrow⟩ := hcount c
      have hserved : c < s.chan ∨ c = s.chan := hc ▸ (lt_or_eq_of_le (Fin.le_last c))
      rw [if_pos hserved] at hrow
      rw [State.finishRow_channel]
      exact ⟨hrow, hact⟩
    · rw [State.finishRow_ctx]; exact tickReload_toNat _
    · rw [State.finishRow_ctx]
      simp [hprime]
  · refine (State.primes_row (s := { s.countRow with chan := s.chan + 1 }) hq).2 ⟨hprime, fun c => ?_⟩
    simp only [chan_lt_succ hc]
    exact hcount c

/-- An event of the row leaves every row counter, and every channel active or not (R163). -/
theorem exec_row_channel {s t : State} {eff : Effect} {e : EventArgs} (hq : s.seq = .row)
    (h : exec (Instr.ofEvent eff e) s = .next t) (c : Fin 4) :
    (t.channel c).active = (s.channel c).active ∧ (t.channel c).rowCtr = (s.channel c).rowCtr := by
  obtain ⟨ch, hch, ht, _⟩ := exec_event_next (by rw [hq]; decide) h
  have hframe := Channel.trigger_frame hch
  have hread : t.channel c = if c = s.chan then ch.afterRow eff else s.channel c := by
    rw [ht]; exact State.setCur_channel s c _
  rw [hread]
  split
  · rename_i hc
    rw [hc]
    obtain ⟨hrow, hact, _⟩ := Channel.afterRow_frame eff ch
    exact ⟨hact.trans hframe.active, hrow.trans hframe.rowCtr⟩
  · exact ⟨rfl, rfl⟩

theorem State.Primes.turn {s t : State} (h : s.Primes) (ht : turn s = .next t) : t.Primes := by
  rcases turn_next ht with ⟨_, rfl⟩ | ⟨ho, i, hi, hx⟩ | ⟨hq, _, eff, e, u, hu, rfl⟩ | ⟨hq, _, rfl⟩ | ⟨hq, _⟩
  · exact h
  · have hactive : s.priming = true ∧ ∀ c, (s.channel c).active = true := by
      rcases ho with ho | ho <;> simpa only [State.Primes, ho] using h
    obtain ⟨hprime, hact⟩ := hactive
    rcases exec_order_next hi hx with ⟨_, o, rfl⟩ | ⟨n, rfl⟩
    · exact ⟨hprime, hact⟩
    · refine (State.primes_row rfl).2 ⟨hprime, fun c => ?_⟩
      simp only [State.channel, onAll_getElem, Fin.getElem_fin]
      exact ⟨hact c, rfl⟩
  · obtain ⟨useq, uchan, uprime⟩ := exec_event_seq hu
    obtain ⟨hprime, hrows⟩ := (State.primes_row hq).1 h
    refine State.Primes.advanceRow (useq.trans hq)
      ((State.primes_row (useq.trans hq)).2 ⟨uprime.trans hprime, fun c => ?_⟩)
    obtain ⟨hact, hrow⟩ := exec_row_channel hq hu c
    rw [hact, hrow, uchan]
    exact hrows c
  · exact h.advanceRow hq
  · simp only [State.Primes, hq] at h

theorem State.primed_primes (s : State) (r : BitVec 16) : (s.primed r).Primes := by
  refine ⟨rfl, fun c => ?_⟩
  rw [State.primed_channel]
  rfl

/-- What START's priming tick has done when it is complete (R292). -/
theorem State.primed_finish {s t : State} {r : BitVec 16} (h : finishOperation (s.primed r) = .next t) :
    t.Primes ∧ t.seq = .host ∧ (s.primed r).TurnFrame t :=
  ⟨finishOperation_keeps (fun _ _ hu ht => hu.turn ht) (s.primed_primes r) h, finishOperation_seq h,
    finishOperation_frame h⟩

/-! ### Over an empty row 0 -/

/-- The channel holds the START values but the row counter, and `last_note` and `c2spd`, which are free (R62, R334). -/
def Channel.AtStart (row : BitVec 7) (ch : Channel) : Prop :=
  ∃ l c2, ch = { Channel.start with rowCtr := row, lastNote := l, c2spd := c2 }

/-- The word of the empty event `FF 01 80 00` (R119) is `NONE` without operands under every legal coding. -/
theorem decodeEvent_empty {cd : Coding} (h : cd.wf = true) :
    decodeEvent cd 0x008001FF = Instr.ofEvent .noEffect ⟨255, 0, 65, 0⟩ := by
  have hcmd : eventCmd 0x008001FF = 0 := by decide
  have hargs : eventArgs 0x008001FF = ⟨255, 0, 65, 0⟩ := by decide
  rw [decodeEvent, hcmd, hargs, Coding.effectOf_zero h]

/-- The empty event on a channel at its START values changes nothing: it latches what is latched there (R334). -/
theorem exec_empty_atStart {s : State} {row : BitVec 7} (hq : s.seq = .row) (hw : s.cfg.coding.wf = true)
    (h : s.cur.AtStart row) : exec (Instr.ofEvent .noEffect ⟨255, 0, 65, 0⟩) s = .next s := by
  have hcode : s.cfg.coding.codeOf .noEffect = 0 := by
    rw [← Coding.effectOf_zero hw, Coding.codeOf_effectOf hw]
  have hsame : (s.cur.latch 0 ⟨255, 0, 65, 0⟩).continuationReset .noEffect = s.cur := by
    obtain ⟨l, c2, e⟩ := h
    rw [e]
    rfl
  rw [exec_row_empty hq .noEffect rfl rfl rfl, hcode, hsame, State.setCur_self]
  rfl

/-- Inside an empty row 0 that is being played on channels at their START values, in the context `x` (R334). -/
structure State.PlaysEmptyRow (x : Context) (s : State) : Prop where
  seq : s.seq = .row
  ctx : s.ctx = x
  noChange : x.chgPat = false
  coding : s.cfg.coding.wf = true
  events : ∀ c, s.song.eventAt x.pattern (eventOffset 0 c) = .ok 0x008001FF
  channels : ∀ c, (s.channel c).AtStart (if c < s.chan then 1 else 0)

theorem State.PlaysEmptyRow.cur {x : Context} {s : State} (h : s.PlaysEmptyRow x) : s.cur.AtStart 0 := by
  have := h.channels s.chan
  rwa [if_neg (lt_irrefl _)] at this

theorem State.PlaysEmptyRow.turn {x : Context} {s : State} (h : s.PlaysEmptyRow x) :
    turn s = .next s.advanceRow := by
  have hcur := h.cur
  obtain ⟨l, c2, e⟩ := id hcur
  have hact : s.cur.active = true := by rw [e]; rfl
  have hrow : s.cur.rowCtr = 0 := by rw [e]
  have hfetch : fetchEvent s = .ok (Instr.ofEvent .noEffect ⟨255, 0, 65, 0⟩) := by
    simp only [fetchEvent, hrow, h.ctx, h.events s.chan, decodeEvent_empty h.coding]
  have hne : s.seq ≠ .host := by rw [h.seq]; decide
  simp only [Machine.turn, h.seq, hact, if_true, hfetch, withValue_ok, runInside_eq_exec hne,
    exec_empty_atStart h.seq h.coding hcur, andThen_next]

/-- Counting row 0 of the served channel: it stands at row 1, and no change is requested (R163, R164). -/
theorem State.PlaysEmptyRow.countRow {x : Context} {s : State} (h : s.PlaysEmptyRow x) :
    s.countRow.ctx = x ∧ ∀ c, (s.countRow.channel c).AtStart (if c < s.chan ∨ c = s.chan then 1 else 0) := by
  obtain ⟨l, c2, e⟩ := h.cur
  refine ⟨?_, fun c => ?_⟩
  · have hrow : s.cur.rowCtr = 0 := by rw [e]
    rw [State.countRow_ctx, hrow, h.ctx]
    rfl
  · rw [State.countRow_channel]
    by_cases hc : c = s.chan
    · rw [if_pos hc, if_pos (.inr hc), e]
      exact ⟨l, c2, rfl⟩
    · simpa [hc] using h.channels c

/-- An empty row 0 is played to its end: every channel is left at its START values and row 1, and of the context only
the two counters are written (R334). -/
theorem State.PlaysEmptyRow.runOn {x : Context} {k : Nat} {s : State} (h : s.PlaysEmptyRow x)
    (hk : s.turnsLeft ≤ k) :
    ∃ t, runOn k s = .next t ∧ (∀ c, (t.channel c).AtStart 1) ∧
      ∃ tc fc, t.ctx = { x with tickCtr := tc, frameCtr := fc } := by
  have hne : s.seq ≠ .host := by rw [h.seq]; decide
  induction k generalizing s with
  | zero => exact absurd (State.turnsLeft_eq_zero (Nat.le_zero.1 hk)) hne
  | succ k ih =>
    obtain ⟨hctx, hchan⟩ := h.countRow
    have hless := State.turnsLeft_advanceRow h.seq
    rw [runOn_succ hne, h.turn, andThen_next]
    rcases s.advanceRow_cases with ⟨hc, e⟩ | ⟨hc, e⟩ <;> rw [e] at hless ⊢
    · refine ⟨_, runOn_done rfl k, fun c => ?_, ?_⟩
      · obtain ⟨l, c2, hrow⟩ := hchan c
        have hserved : c < s.chan ∨ c = s.chan := hc ▸ (lt_or_eq_of_le (Fin.le_last c))
        rw [if_pos hserved] at hrow
        rw [State.finishRow_channel, hrow]
        exact ⟨l, c2, by simp [Channel.start, mixVolume]⟩
      · rw [State.finishRow_ctx, hctx]
        exact ⟨_, _, rfl⟩
    · have hnext : State.PlaysEmptyRow x { s.countRow with chan := s.chan + 1 } :=
        { seq := h.seq, ctx := hctx, noChange := h.noChange, coding := h.coding, events := h.events
          channels := fun c => by simp only [chan_lt_succ hc]; exact hchan c }
      exact ih hnext (by omega) (by rw [hnext.seq]; decide)

/-- A pattern number is no sentinel of a legal coding (R111). -/
theorem decodeOrder_pattern {cd : Coding} (h : cd.wf = true) {b : BitVec 8} (hb : b.toNat ≤ 97) :
    decodeOrder cd b = .ok (.pattern b) := by
  have h98 : b ≠ 98 := fun e => by rw [e] at hb; exact absurd hb (by decide)
  have h99 : b ≠ 99 := fun e => by rw [e] at hb; exact absurd hb (by decide)
  rcases Coding.sentinels h with ⟨hm, hz⟩ | ⟨hm, hz⟩
  · rw [decodeOrder, hm, hz, if_neg h98, if_neg h99, if_pos hb]
  · rw [decodeOrder, hm, hz, if_neg h99, if_neg h98, if_pos hb]

/-- `PATTERN n` runs where the song has the pattern (R172). -/
theorem execPattern_runs {s : State} {n : BitVec 8} (hp : n.toNat ≤ 97) (hn : n.toNat < s.song.nPatterns) :
    execPattern n s = .next
      { s with
        ctx := { s.ctx with pattern := n.setWidth 7, orderPos := s.ctx.orderPos + 1, chgPat := false }
        chans := onAll Channel.rewind s.chans, seq := .row, chan := 0 } := by
  rw [execPattern, if_neg (by omega)]

/-- START over an empty row 0 completes (R334). -/
theorem State.primed_emptyRow {s : State} {p : BitVec 8} (r : BitVec 16) (hw : s.cfg.coding.wf = true)
    (hord : s.song.orderAt 0 = .ok p) (hp : p.toNat ≤ 97) (hn : p.toNat < s.song.nPatterns)
    (hev : ∀ c : Fin 4, s.song.eventAt (p.setWidth 7) (eventOffset 0 c) = .ok 0x008001FF) :
    ∃ t, finishOperation (s.primed r) = .next t ∧ (∀ c, (t.channel c).AtStart 1) ∧
      ∃ tc fc, t.ctx = { s.startCtx r with
        pattern := p.setWidth 7, orderPos := 1, chgPat := false, tickCtr := tc, frameCtr := fc } := by
  have hne : (s.primed r).seq ≠ .host := nofun
  have hfetch : fetchOrder (s.primed r) = .ok (.pattern p) := by
    simp only [fetchOrder, show (s.primed r).song = s.song from rfl, show (s.primed r).cfg = s.cfg from rfl,
      show (s.primed r).ctx.orderPos = 0 from rfl, hord, decodeOrder_pattern hw hp]
  have hturn : turn (s.primed r) = execPattern p (s.primed r) := by
    show withValue (fetchOrder (s.primed r)) _ = _
    rw [hfetch]
    rfl
  rw [finishOperation_turn hne, hturn, execPattern_runs (s := s.primed r) hp hn, andThen_next]
  obtain ⟨t, ht, hchan, tc, fc, hctx⟩ := State.PlaysEmptyRow.runOn (k := 5)
    (x := { s.startCtx r with pattern := p.setWidth 7, orderPos := 1, chgPat := false })
    (s := { s.primed r with
      ctx := { s.startCtx r with pattern := p.setWidth 7, orderPos := 1, chgPat := false }
      chans := onAll Channel.rewind (s.primed r).chans, seq := .row, chan := 0 })
    { seq := rfl, ctx := rfl, noChange := rfl, coding := hw, events := hev
      channels := fun c => by
        have hread : (s.primed r).chans[c] = startChannel s.fresh c := s.primed_channel r c
        simp only [State.channel, onAll_getElem, Fin.getElem_fin] at hread ⊢
        rw [hread]
        exact ⟨_, _, rfl⟩ }
    (show 4 ≤ 5 by decide)
  exact ⟨t, ht, hchan, tc, fc, hctx⟩

/-- Settles O21: START is its priming tick, from the START values; over an empty row 0 it is followed to its end. -/
theorem startWritesTheStartValues : Obligations.StartWritesTheStartValues := by
  intro s r hw hq hs hd
  rw [exec_start_primed hq (Session.live_iff.2 hs) hd]
  refine ⟨fun p hord hp hn hev => ?_, fun t ht => ?_⟩
  · obtain ⟨t, ht, hchan, tc, fc, hctx⟩ := State.primed_emptyRow r hw hord hp hn hev
    refine ⟨t, ht, fun c => ?_, ?_, congrArg (·.orderPos) hctx, congrArg (·.loopCtr) hctx, congrArg (·.chgPat) hctx,
      congrArg (·.tempo) hctx, ?_, ?_⟩
    · obtain ⟨l, c2, e⟩ := hchan c
      rw [e]
    · rw [hctx]
      simp only [BitVec.toNat_setWidth]
      omega
    · rw [hctx]
      exact hiNibble_toNat _
    · rw [hctx]
      exact (BitVec.toNat_ofNat _ _).trans
        (Nat.mod_eq_of_lt (lt_of_le_of_lt (Nat.div_le_self _ _) (BitVec.isLt _)))
  · obtain ⟨hprimes, hhost, hf⟩ := State.primed_finish ht
    obtain ⟨hrows, htick, hframe⟩ := (State.primes_host hhost).1 hprimes
    exact ⟨hf.rate, hf.orderMark, hf.singleRow, hf.gvol, htick, hframe, hrows, hf.session, hhost, hf.result, hf.song,
      hf.cfg, hf.given, hf.ops⟩

end Sys2Proof.Machine

/-! PROOFS. What is bound and what the host presents: no instruction but CREATE and no request but the loader's writes
either, whatever the state; and every operation comes to rest, alone. -/

namespace Sys2Proof.Machine

/-! ### What no instruction writes -/

/-- The same Song and configuration are bound, and the same ones presented (R70, R87, R291). -/
structure State.SameBinding (s t : State) : Prop where
  song : t.song = s.song
  cfg : t.cfg = s.cfg
  given : t.given = s.given

theorem State.TurnFrame.sameBinding {s t : State} (h : s.TurnFrame t) : s.SameBinding t :=
  ⟨h.song, h.cfg, h.given⟩

/-- An instruction that is an event is the event of its effect and operands. -/
theorem Instr.eq_ofEvent {i : Instr} {eff : Effect} {e : EventArgs} (h : i.asEvent = some (eff, e)) :
    i = Instr.ofEvent eff e := by
  cases i <;> cases h <;> rfl

/-- The mixer, the frame count and the tick event of RENDER, together (R260, R266). -/
theorem exec_render_sameBinding {s t : State} (h : exec .render s = .next t) : s.SameBinding t := by
  obtain ⟨_, _, m, _, hfin⟩ := exec_render_next h
  have hframe := (State.countFrame_frame _).comp (finishOperation_frame hfin)
  exact ⟨hframe.song, hframe.cfg, hframe.given⟩

/-- START writes neither before its priming tick nor in it (R292). -/
theorem exec_start_sameBinding {s t : State} {r : BitVec 16} (h : exec (.start r) s = .next t) : s.SameBinding t := by
  have hframe := finishOperation_frame (exec_start_primed_next h)
  exact ⟨hframe.song, hframe.cfg, hframe.given⟩

/-- No instruction but CREATE writes what is bound or presented: there is no store (R70). -/
theorem exec_sameBinding {i : Instr} {s t : State} (hi : i ≠ .create) (h : exec i s = .next t) : s.SameBinding t := by
  cases hev : i.asEvent with
  | some p => exact (exec_event_frame (Instr.eq_ofEvent hev ▸ h)).sameBinding
  | none =>
    cases i
    case noteCut => cases h; exact ⟨rfl, rfl, rfl⟩
    case noNote => cases h; exact ⟨rfl, rfl, rfl⟩
    case note b => obtain ⟨ch, _, h⟩ := withValue_next.1 h; cases h; exact ⟨rfl, rfl, rfl⟩
    case endMark => obtain ⟨_, rfl⟩ := wrapOrder_next h; exact ⟨rfl, rfl, rfl⟩
    case endZero => obtain ⟨_, rfl⟩ := wrapOrder_next h; exact ⟨rfl, rfl, rfl⟩
    case pattern n => obtain ⟨_, _, rfl⟩ := exec_pattern_next h; exact ⟨rfl, rfl, rfl⟩
    case create => exact absurd rfl hi
    case start r => exact exec_start_sameBinding h
    case setPosition o => obtain ⟨_, _, rfl⟩ := exec_setPosition_next h; exact ⟨rfl, rfl, rfl⟩
    case queryPosition => obtain ⟨_, _, rfl⟩ := exec_queryPosition_next h; exact ⟨rfl, rfl, rfl⟩
    case render => exact exec_render_sameBinding h
    case destroy => obtain ⟨_, _, rfl⟩ := exec_destroy_next h; exact ⟨rfl, rfl, rfl⟩
    all_goals cases hev

/-- Settles O11: CREATE binds the Song presented; every other instruction leaves the one that is bound. -/
theorem noInstructionStores : Obligations.NoInstructionStores := by
  intro i s t a h
  refine ⟨fun hi => ?_, fun hi => ?_⟩
  · rw [(exec_sameBinding hi h).song]
    exact ⟨rfl, rfl, rfl⟩
  · subst hi
    obtain ⟨_, _, rfl⟩ := exec_create_next h
    exact ⟨rfl, rfl, rfl⟩

/-! ### What no request writes -/

/-- What a request served does to what is bound and presented: nothing, unless it is a CREATE or, where no session
exists, the loader's (R87, R291). -/
theorem serve_binding {r : Request} {s t : State} (h : serve r s = .next t) :
    s.SameBinding t ∨
    (s.session = .none ∧ t.session = .created ∧ t.song = s.given.song ∧ t.cfg = s.given.cfg ∧ t.given = s.given) ∨
    (s.session.live = false ∧ ∃ g c, r = .load g c ∧ t = { s with given := ⟨g, c⟩ }) := by
  cases r with
  | op code arg =>
    obtain ⟨i, _, h⟩ := withValue_next.1 h
    by_cases hi : i = .create
    · subst hi
      obtain ⟨_, hs, rfl⟩ := exec_create_next h
      exact .inr (.inl ⟨hs, rfl, rfl, rfl, rfl⟩)
    · exact .inl (exec_sameBinding hi h)
  | setSingleRow b => obtain ⟨_, rfl⟩ := hostSetSingleRow_next h; exact .inl ⟨rfl, rfl, rfl⟩
  | setActive c b => obtain ⟨_, rfl⟩ := hostSetActive_next h; exact .inl ⟨rfl, rfl, rfl⟩
  | writeOther => cases h
  | load g c =>
    obtain ⟨hs, ht⟩ := hostLoad_next h
    exact .inr (.inr ⟨hs, g, c, rfl, ht⟩)

/-- Settles O10: a step serves a request, does nothing, or runs the rest of an operation. -/
theorem stepsNeverChangeTheSong : Obligations.StepsNeverChangeTheSong := by
  intro s t h
  rcases step_cases s with ⟨_, _, e⟩ | ⟨_, r, rest, ho, e⟩ | ⟨_, e⟩ <;> rw [e] at h
  · cases h; exact ⟨.inl ⟨rfl, rfl⟩, .inl rfl⟩
  · rcases serve_binding h with ⟨hsong, hcfg, hgiven⟩ | ⟨hs, ht, hsong, hcfg, hgiven⟩ | ⟨hs, g, c, rfl, rfl⟩
    · exact ⟨.inl ⟨hsong, hcfg⟩, .inl hgiven⟩
    · exact ⟨.inr ⟨hs, ht, hsong, hcfg⟩, .inl hgiven⟩
    · have hdead : ¬ (s.session = .created ∨ s.session = .started) := fun hl => by
        rw [Session.live_iff.2 hl] at hs; cases hs
      exact ⟨.inl ⟨rfl, rfl⟩, .inr ⟨fun hc => hdead (.inl hc), fun hst => hdead (.inr hst), g, c, by rw [ho]; rfl, rfl⟩⟩
  · obtain ⟨hsong, hcfg, hgiven⟩ := (finishOperation_frame h).sameBinding
    exact ⟨.inl ⟨hsong, hcfg⟩, .inl hgiven⟩

/-! ### One operation at a time -/

/-- Every operation ends between operations, START and RENDER after the tick event they begin (R290). -/
theorem exec_operation_seq {i : Instr} {s t : State} (hf : i.format = .hostop) (h : exec i s = .next t) :
    t.seq = .host := by
  cases i
  case create => obtain ⟨hq, _, rfl⟩ := exec_create_next h; exact hq
  case start r => exact finishOperation_seq (exec_start_primed_next h)
  case setPosition o => obtain ⟨hq, _, rfl⟩ := exec_setPosition_next h; exact hq
  case queryPosition => obtain ⟨hq, _, rfl⟩ := exec_queryPosition_next h; exact hq
  case render => obtain ⟨_, _, _, _, hfin⟩ := exec_render_next h; exact finishOperation_seq hfin
  case destroy => obtain ⟨hq, _, rfl⟩ := exec_destroy_next h; exact hq
  all_goals cases hf

theorem serve_seq {r : Request} {s t : State} (hq : s.seq = .host) (h : serve r s = .next t) : t.seq = .host := by
  cases r with
  | op code arg =>
    obtain ⟨i, hfetch, h⟩ := withValue_next.1 h
    exact exec_operation_seq (fetchOp_format hfetch) h
  | setSingleRow b => obtain ⟨_, rfl⟩ := hostSetSingleRow_next h; exact hq
  | setActive c b => obtain ⟨_, rfl⟩ := hostSetActive_next h; exact hq
  | writeOther => cases h
  | load g c => obtain ⟨_, rfl⟩ := hostLoad_next h; exact hq

/-- Settles O13: at rest by the request served, inside an operation because six instructions finish it. -/
theorem everyStepCompletesItsOperation : Obligations.EveryStepCompletesItsOperation := by
  intro s t h
  rcases step_cases s with ⟨hq, _, e⟩ | ⟨hq, r, rest, _, e⟩ | ⟨_, e⟩ <;> rw [e] at h
  · cases h; exact hq
  · exact serve_seq (s := { s with ops := rest }) hq h
  · exact finishOperation_seq h

/-- Settles O12: an operation met inside another is refused as `runInside` refuses it, and the rest of an operation
leaves the requests alone. -/
theorem operationsNeverOverlap : Obligations.OperationsNeverOverlap := by
  intro s hq
  have refused (i : Instr) : exec i s = runInside i s := (runInside_eq_exec hq i).symm
  refine ⟨⟨refused .create, fun r => refused (.start r), fun o => refused (.setPosition o), refused .queryPosition,
    refused .render, refused .destroy⟩, fun t h => ?_⟩
  rw [step_inside hq] at h
  have hframe := finishOperation_frame h
  exact ⟨hframe.ops, hframe.given, hframe.session, hframe.result, hframe.fresh⟩

end Sys2Proof.Machine

/-! PROOFS. What the loader must not present is refused by name: what each operation answers on a tempo, a base volume,
an address or a frame index out of range. -/

namespace Sys2Proof.Machine

/-! ### The trigger -/

/-- A note byte that is no concrete note is one of the two markers (R105). -/
theorem noteMarker_cases {b : BitVec 8} (h : ¬ b.toNat < 254) : b = 254 ∨ b = 255 := by
  have := b.isLt
  have hval : b.toNat = 254 ∨ b.toNat = 255 := by omega
  exact hval.imp BitVec.eq_of_toNat_eq BitVec.eq_of_toNat_eq

/-- The note step runs where a concrete note has a period (R240, R246, R247). -/
theorem Channel.noteStep_runs {cfg : Cfg} {ch : Channel} (rate : BitVec 16) (porta : Bool)
    (h : ch.evNote.toNat < 254 → ∃ p, ch.notePeriod cfg ch.evNote.toNat = .ok p) :
    ∃ ch', ch.noteStep cfg rate porta = .ok ch' := by
  by_cases hn : ch.evNote.toNat < 254
  · obtain ⟨p, hp⟩ := h hn
    rw [Channel.noteStep_concrete hn]
    cases porta with
    | true => exact ⟨_, Channel.aimNote_ok.2 ⟨p, hp, rfl⟩⟩
    | false => exact ⟨_, Channel.playNote_ok.2 ⟨p, hp, rfl⟩⟩
  · rcases noteMarker_cases hn with hcut | hnone
    · exact ⟨_, Channel.noteStep_cut hcut cfg rate porta⟩
    · exact ⟨_, Channel.noteStep_none hnone cfg rate porta⟩

/-- An explicit volume in range is taken, and writes the two volumes only (R241). -/
theorem Channel.explicitVolume_runs {ch : Channel} (h : ch.evVol.toNat ≤ 65) :
    ∃ v i, ch.explicitVolume = .ok { ch with volCur := v, volInit := i } := by
  rw [Channel.explicitVolume_ok.2 ⟨h, rfl⟩]
  split
  · exact ⟨ch.volCur, ch.volInit, rfl⟩
  · exact ⟨ch.evVol, ch.evVol, rfl⟩

/-- The trigger outside tone portamento, past its explicit volume: the sample, then the note (R240). -/
theorem Channel.trigger_eq_sample {ch c : Channel} (h : ch.explicitVolume = .ok c) (cfg : Cfg) (g : Song)
    (rate : BitVec 16) :
    ch.trigger cfg g rate false = (c.sampleStep g).bind fun c' => c'.noteStep cfg rate false := by
  simp only [Channel.trigger, h, Bool.false_eq_true, if_false]
  cases c.sampleStep g <;> rfl

/-- The trigger under tone portamento, past its explicit volume: the note, then the sample (R240). -/
theorem Channel.trigger_eq_porta {ch c : Channel} (h : ch.explicitVolume = .ok c) (cfg : Cfg) (g : Song)
    (rate : BitVec 16) :
    ch.trigger cfg g rate true = (c.noteStep cfg rate true).bind fun c' => c'.portaSampleStep cfg g := by
  simp only [Channel.trigger, h, if_true]
  cases c.noteStep cfg rate true <;> rfl

/-- An event outside tone portamento whose operands are legal triggers (R240): it binds no sample, or an empty one, or
one with waveform data. -/
theorem Channel.trigger_runs {cfg : Cfg} {g : Song} {ch : Channel} (rate : BitVec 16)
    (h : TriggerLegal cfg g false ch) : ∃ ch', ch.trigger cfg g rate false = .ok ch' := by
  obtain ⟨hvol, hsmp, hnote⟩ := h
  obtain ⟨v, i, hv⟩ := Channel.explicitVolume_runs hvol
  rw [Channel.trigger_eq_sample hv, Channel.sampleStep]
  by_cases hz : ch.evSmp = 0
  · rw [if_pos hz]
    refine Channel.noteStep_runs rate false fun hn => ?_
    obtain ⟨hbound, p, hp⟩ := hnote hn fun _ hs => absurd hz hs
    rw [if_neg fun hs => hs.2 hz] at hp
    exact ⟨p, Channel.notePeriod_ok.2 ⟨hbound.resolve_left fun hs => hs.2 hz, hp⟩⟩
  · rw [if_neg hz, Channel.rebind_ok.2 ⟨hsmp hz nofun, rfl⟩]
    by_cases hlen : (g.desc ch.evSmp).length = 0
    · simp only [hlen, if_true, Except.bind]
      exact ⟨_, Channel.noteStep_cut rfl cfg rate false⟩
    · simp only [hlen, if_false, Except.bind]
      refine Channel.noteStep_runs rate false fun hn => ?_
      obtain ⟨_, p, hp⟩ := hnote hn fun _ _ => hlen
      rw [if_pos ⟨rfl, hz⟩] at hp
      exact ⟨p, Channel.notePeriod_ok.2 ⟨rfl, hp⟩⟩

/-- A base volume above 64 is refused by the trigger that binds the sample; under tone portamento the note comes first
and must have a period (R244, R250). -/
theorem Channel.trigger_loudSample {cfg : Cfg} {g : Song} {porta : Bool} {ch : Channel} (rate : BitVec 16)
    (hvol : ch.evVol.toNat ≤ 65) (hs : ch.evSmp ≠ 0) (hd : 64 < (g.desc ch.evSmp).volume.toNat)
    (hp : porta = true → cfg.tportaRebindsSample = true ∧
      (ch.evNote.toNat < 254 → ∃ p, ch.notePeriod cfg ch.evNote.toNat = .ok p)) :
    ch.trigger cfg g rate porta = .error .invalidSampleVolume := by
  have loud (c : Channel) : c.rebind ch.evSmp (g.desc ch.evSmp) = .error .invalidSampleVolume := if_pos hd
  obtain ⟨v, i, hv⟩ := Channel.explicitVolume_runs hvol
  cases porta with
  | false => rw [Channel.trigger_eq_sample hv, Channel.sampleStep, if_neg hs, loud]; rfl
  | true =>
    obtain ⟨hrebinds, hnote⟩ := hp rfl
    obtain ⟨c, hc⟩ := Channel.noteStep_runs (ch := { ch with volCur := v, volInit := i }) rate true hnote
    have hsmp : c.evSmp = ch.evSmp := (Channel.noteStep_frame hc).evSmp
    rw [Channel.trigger_eq_porta hv, hc]
    show c.portaSampleStep cfg g = _
    rw [Channel.portaSampleStep, hsmp, if_pos ⟨hrebinds, hs⟩, loud]

/-! ### The tempo -/

/-- `set_tempo` with a divisor that is not positive (R147). -/
theorem Context.setTempo_refused {cfg : Cfg} {t : BitVec 8} (h : tempoDivisor cfg t ≤ 0) (x : Context) :
    x.setTempo cfg t = .error .invalidTempo := if_pos h

/-- A `SET_SPEED` event that triggers is refused by its row action (R192). -/
theorem exec_setSpeed_refused {s : State} {e : EventArgs} (hq : s.seq = .row)
    (hl : TriggerLegal s.cfg s.song false (s.cur.latch (s.cfg.coding.codeOf .setSpeed) e)) (hp : e.param ≠ 0)
    (hd : tempoDivisor s.cfg e.param ≤ 0) : exec (.setSpeed e) s = .refused .invalidTempo := by
  obtain ⟨ch, hch⟩ := Channel.trigger_runs s.ctx.rate hl
  have hparam : ch.evParam = e.param := (Channel.trigger_frame hch).evParam
  calc exec (.setSpeed e) s = setSpeedOnce (s.setCur (ch.continuationReset .setSpeed)) := by
        rw [show Instr.setSpeed e = Instr.ofEvent .setSpeed e from rfl, exec_row hq,
          show decide (Effect.setSpeed = .tonePorta) = false from rfl, hch, withValue_ok]
        rfl
    _ = .refused .invalidTempo := by
        rw [setSpeedOnce, State.setCur_cur, show (ch.continuationReset .setSpeed).evParam = e.param from hparam,
          if_neg hp, State.setCur_ctx, State.setCur_cfg, Context.setTempo_refused hd, withValue_error]

/-- START with such an initial tempo is refused before its priming tick (R292). -/
theorem exec_start_refused {s : State} (hq : s.seq = .host) (hs : s.session.live = true)
    (hd : tempoDivisor s.cfg s.cfg.initTempo ≤ 0) (r : BitVec 16) :
    exec (.start r) s = .refused .invalidTempo := by
  rw [exec_start hq hs, Context.setTempo_refused hd, withValue_error]

/-! ### The addresses of ORD and PAT -/

/-- Reading the order list at or beyond its end (R71). -/
theorem fetchOrder_refused {s : State} (h : s.song.orderLen ≤ s.ctx.orderPos.toNat) :
    fetchOrder s = .error .orderOutOfRange := by
  rw [fetchOrder, Song.orderAt, if_neg (by omega)]

/-- Reading a row of a pattern the song does not have (R72). -/
theorem fetchEvent_refused {s : State} (h : s.song.nPatterns ≤ s.ctx.pattern.toNat) :
    fetchEvent s = .error .patternOutOfRange := by
  rw [fetchEvent, Song.eventAt, if_neg (by omega)]

/-- A step inside an operation whose next instruction is refused is refused (R290). -/
theorem step_refused {s : State} {r : Refusal} (hq : s.seq ≠ .host) (h : turn s = .refused r) :
    step s = .refused r := by
  rw [step_turn hq, h, andThen_refused]

/-! ### The mixer -/

/-- The only refusal of a read of WAVE (R75). -/
theorem Song.waveAt_error {g : Song} {slot : BitVec 5} {i : BitVec 16} {r : Refusal}
    (h : g.waveAt slot i = .error r) : r = .waveOutOfRange := by
  unfold Song.waveAt at h
  split at h <;> cases h
  rfl

theorem Channel.contribution_error {g : Song} {ch : Channel} {r : Refusal} (h : ch.contribution g = .error r) :
    r = .waveOutOfRange := by
  unfold Channel.contribution at h
  split at h
  · split at h
    · rename_i hread; cases h; exact Song.waveAt_error hread
    · cases h
  · cases h

/-- The mixer refuses only a waveform index out of range (R75). -/
theorem Channel.mix_error {g : Song} {ch : Channel} {r : Refusal} (h : ch.mix g = .error r) :
    r = .waveOutOfRange := by
  unfold Channel.mix at h
  split at h
  · cases h
  · split at h
    · rename_i hcontribution; cases h; exact Channel.contribution_error hcontribution
    · cases h

/-- At or past the loop end the mixer wraps to the loop start, writing the position only (R261). -/
theorem Channel.wrapLoop_past {ch : Channel} (h : ch.loopEnd ≤ ch.frameIndex) :
    ∃ p, ch.wrapLoop = { ch with pos := p } ∧ Channel.frameIndex { ch with pos := p } = ch.loopStart :=
  ⟨_, if_pos h, BitVec.extractLsb'_append_eq_left⟩

/-- The frame a sounding channel reads lies beyond its waveform (R75, R263). -/
theorem Channel.contribution_refused {g : Song} {ch : Channel} (hslot : ch.waveSlot ≠ 0)
    (hdata : (g.desc ch.waveSlot).length ≠ 0) (hvol : ch.volMix.toNat < 65) (hloop : ch.frameIndex < ch.loopEnd)
    (hbeyond : (g.desc ch.waveSlot).length ≤ ch.frameIndex) :
    ch.contribution g = .error .waveOutOfRange := by
  have hpos : 0 < (g.desc ch.waveSlot).length.toNat :=
    Nat.pos_of_ne_zero fun h0 => hdata (BitVec.eq_of_toNat_eq h0)
  have hsounds : ch.sounds g = true := by
    simpa [Channel.sounds, hpos, hloop, hvol] using hslot
  have hread : g.waveAt ch.waveSlot ch.frameIndex = .error .waveOutOfRange := if_neg (Nat.not_lt.2 hbeyond)
  rw [Channel.contribution, if_pos hsounds, hread]

/-- A channel that reads beyond its waveform, where it stands or at its loop start, is refused its turn (R261, R263). -/
theorem Channel.mix_refused {g : Song} {ch : Channel} (h : ch.ReadsBeyond g) :
    ch.mix g = .error .waveOutOfRange := by
  obtain ⟨hslot, hdata, hvol, ⟨hbefore, hbeyond⟩ | ⟨hpast, hen, hloop, hbeyond⟩⟩ := h
  · have hin : ¬ ch.loopEnd ≤ ch.frameIndex := BitVec.not_le.2 hbefore
    have hwrap : ch.wrapLoop = ch := if_neg hin
    rw [Channel.mix, if_neg (by simp [Channel.exhausted, hin]), hwrap,
      Channel.contribution_refused hslot hdata hvol hbefore hbeyond]
  · obtain ⟨p, hwrap, hframe⟩ := Channel.wrapLoop_past hpast
    rw [Channel.mix, if_neg (by simp [Channel.exhausted, hen]), hwrap,
      Channel.contribution_refused (ch := { ch with pos := p }) hslot hdata hvol (by rwa [hframe]) (by rwa [hframe])]

/-- A turn leaves the channels that are not its own. -/
theorem Mix.turn_other {g : Song} {c d : Fin 4} {m m' : Mix} (h : m.turn g d = .ok m') (hne : d ≠ c) :
    m'.chans[c] = m.chans[c] := by
  obtain ⟨r, _, rfl⟩ := Mix.turn_ok.1 h
  have : d.val ≠ c.val := fun e => hne (Fin.ext e)
  simp [Vector.getElem_set_ne, this]

/-- A turn of the mixer is refused as its channel's is. -/
theorem Mix.turn_error {g : Song} {c : Fin 4} {m : Mix} {r : Refusal} :
    m.turn g c = .error r ↔ m.chans[c].mix g = .error r := by
  unfold Mix.turn
  cases m.chans[c].mix g <;> simp

/-- The mixer is refused if a channel whose turn comes reads beyond its waveform: at its turn, or at a turn before it
for the same reason (R75, R275). -/
theorem Mix.turns_refused {g : Song} {c : Fin 4} {cs : List (Fin 4)} {m : Mix} (hc : c ∈ cs)
    (h : m.chans[c].ReadsBeyond g) : Mix.turns g cs m = .error .waveOutOfRange := by
  induction cs generalizing m with
  | nil => cases hc
  | cons d cs ih =>
    unfold Mix.turns
    cases hd : m.turn g d with
    | error r => rw [Channel.mix_error (Mix.turn_error.1 hd)]
    | ok m' =>
      have hne : d ≠ c := fun e => by
        rw [e, Mix.turn_error.2 (Channel.mix_refused h)] at hd
        cases hd
      exact ih ((List.mem_cons.1 hc).resolve_left (Ne.symm hne)) (by rwa [Mix.turn_other hd hne])

/-- Settles O60: each refusal where its operation meets it. -/
theorem rejectedInputsAreRefusedByName : Obligations.RejectedInputsAreRefusedByName := by
  refine ⟨fun s e hq hl hp hd => exec_setSpeed_refused hq hl hp hd,
    fun s r hq hs hd => exec_start_refused hq (Session.live_iff.2 hs) hd r, ?_, ?_, ?_, ?_⟩
  · intro s eff e hq hvol hs hd hporta
    have hnote : decide (eff = .tonePorta) = true → s.cfg.tportaRebindsSample = true ∧
        (e.note.toNat < 254 → ∃ p, s.cur.notePeriod s.cfg e.note.toNat = .ok p) := fun h => by
      obtain ⟨hrebinds, hplays⟩ := hporta (of_decide_eq_true h)
      refine ⟨hrebinds, fun hn => ?_⟩
      obtain ⟨hbound, p, hp⟩ := hplays.resolve_left (Nat.not_le.2 hn)
      exact ⟨p, Channel.notePeriod_ok.2 ⟨hbound, hp⟩⟩
    rw [exec_row hq, Channel.trigger_loudSample (ch := s.cur.latch _ e) s.ctx.rate hvol hs hd hnote, withValue_error]
  · intro s hq hlen
    rcases hq with hq | hq <;>
      exact step_refused (by rw [hq]; decide) (by simp [turn, hq, fetchOrder_refused hlen])
  · intro s hq hact hpat
    exact step_refused (by rw [hq]; decide) (by simp [turn, hq, hact, fetchEvent_refused hpat])
  · intro s c hq hs hbeyond
    have hmix : mixAll s.song s.chans = .error .waveOutOfRange :=
      Mix.turns_refused (c := c) ((by decide : ∀ d : Fin 4, d ∈ [0, 1, 2, 3]) c) hbeyond
    rw [exec_render hq hs, hmix, withValue_error]

end Sys2Proof.Machine

/-! PROOFS. The encodings: the bytes of an event and the fields of its bytes, decoding after encoding in each of the four
formats, and the order byte by its ranges. -/

namespace Sys2Proof.Machine

/-! ### The fields and the bytes of an event -/

/-- The operands of an event, cut out of its bytes one field at a time (R103). -/
theorem eventArgs_bytes (b0 b1 b2 b3 : BitVec 8) :
    eventArgs (b3 ++ b2 ++ b1 ++ b0) =
      ⟨b0, b1.extractLsb' 3 5, b2.extractLsb' 4 4 ++ b1.extractLsb' 0 3, b3⟩ := by
  simp only [eventArgs, EventArgs.mk.injEq]
  refine ⟨?note, ?smp, congrArg₂ _ ?volHi ?volLo, ?param⟩ <;> ext i hi <;> simp <;> grind

theorem eventCmd_bytes (b0 b1 b2 b3 : BitVec 8) :
    eventCmd (b3 ++ b2 ++ b1 ++ b0) = b2.extractLsb' 0 4 := by
  ext i hi
  simp [eventCmd]
  grind

/-- The sample is the five upper bits of byte 1, shifted down (R103). -/
theorem smp_toNat (b : BitVec 8) : (b.extractLsb' 3 5).toNat = (b >>> 3).toNat := by
  have := b.isLt
  simp only [BitVec.extractLsb'_toNat, BitVec.toNat_ushiftRight, Nat.shiftRight_eq_div_pow]
  omega

/-- The volume is assembled by masks and shifts (R103, R108). -/
theorem vol_setWidth (b1 b2 : BitVec 8) :
    (b2.extractLsb' 4 4 ++ b1.extractLsb' 0 3 : BitVec 7).setWidth 8 =
      (b1 &&& 0x07) ||| ((b2 &&& 0xF0) >>> 1) := by
  ext i hi
  rw [BitVec.getElem_setWidth, BitVec.getLsbD_append]
  interval_cases i <;> simp

/-- The command is the lower nibble of byte 2, masked (R103). -/
theorem cmd_setWidth (b : BitVec 8) : (b.extractLsb' 0 4).setWidth 8 = b &&& 0x0F := by
  ext i hi
  interval_cases i <;> simp

/-- Byte 1 of an event: the sample above the low part of the volume (R104). -/
theorem smp_append_volLo (smp : BitVec 5) (vol : BitVec 7) :
    smp ++ vol.extractLsb' 0 3 = (smp.setWidth 8 <<< 3) ||| (vol.setWidth 8 &&& 7) := by
  ext i hi
  rw [BitVec.getElem_append]
  interval_cases i <;> simp

/-- Byte 2 of an event: the high part of the volume above the command (R104). -/
theorem volHi_append_cmd (vol : BitVec 7) (cmd : BitVec 4) :
    vol.extractLsb' 3 4 ++ cmd = ((vol.setWidth 8 >>> 3) <<< 4) ||| cmd.setWidth 8 := by
  ext i hi
  simp
  grind

/-- The bytes of the event word are those of R104. -/
theorem wordBytes_eventWord (cmd : BitVec 4) (e : EventArgs) :
    wordBytes (eventWord cmd e) =
      [e.note, (e.smp.setWidth 8 <<< 3) ||| (e.vol.setWidth 8 &&& 7),
        ((e.vol.setWidth 8 >>> 3) <<< 4) ||| cmd.setWidth 8, e.param] := by
  rw [← smp_append_volLo, ← volHi_append_cmd]
  exact wordBytes_of_bytes e.note (e.smp ++ e.vol.extractLsb' 0 3) (e.vol.extractLsb' 3 4 ++ cmd) e.param

/-- Settles O1: each field from the byte or bytes that hold it. -/
theorem eventFieldsFollowTheByteLayout : Obligations.EventFieldsFollowTheByteLayout := by
  intro b0 b1 b2 b3
  rw [eventArgs_bytes, eventCmd_bytes, ← vol_setWidth, ← cmd_setWidth]
  exact ⟨rfl, smp_toNat b1, (BitVec.toNat_setWidth_of_le (by decide)).symm,
    (BitVec.toNat_setWidth_of_le (by decide)).symm, rfl⟩

/-! ### Decoding what was encoded -/

/-- The EVENT decoder reads the word that the bytes were taken from. -/
theorem decode_wordBytes (cd : Coding) (w : BitVec 32) : decode cd .event (wordBytes w) = .ok (decodeEvent cd w) := by
  show Except.ok (decodeEvent cd _) = _
  rw [wordBytes_append]

/-- An event decodes from its encoding: its command number names its effect, its word holds its operands (R104). -/
theorem decode_encode_event {cd : Coding} (h : cd.wf = true) (eff : Effect) (e : EventArgs) :
    decode cd .event (encode cd (Instr.ofEvent eff e)) = .ok (Instr.ofEvent eff e) := by
  rw [encode_ofEvent, decode_wordBytes, decodeEvent, eventCmd_eventWord, eventArgs_eventWord,
    Coding.effectOf_codeOf h]

/-- Any four bytes are the encoding of the event they decode to (R104). -/
theorem encode_decodeEvent {cd : Coding} (h : cd.wf = true) (b0 b1 b2 b3 : BitVec 8) :
    encode cd (decodeEvent cd (b3 ++ b2 ++ b1 ++ b0)) = [b0, b1, b2, b3] := by
  rw [decodeEvent, encode_ofEvent, Coding.codeOf_effectOf h, eventWord_fields, wordBytes_of_bytes]

/-- Settles O2: the bytes of R104, and the two round trips. -/
theorem eventEncodingIsABijection : Obligations.EventEncodingIsABijection := by
  intro cd h
  exact ⟨fun eff e => (encode_ofEvent cd eff e).trans (wordBytes_eventWord _ e),
    decode_encode_event h, encode_decodeEvent h⟩

theorem Instr.format_ofEvent (eff : Effect) (e : EventArgs) : (Instr.ofEvent eff e).format = .event := by
  cases eff <;> rfl

theorem decodeNote_concrete {b : BitVec 8} (h : b.toNat < 254) : decodeNote b = .note b := by
  rw [decodeNote, noteForm_concrete h]

theorem decodeOrder_mark (cd : Coding) : decodeOrder cd cd.sentinelMark = .ok .endMark := if_pos rfl

theorem decodeOrder_zero {cd : Coding} (h : cd.wf = true) : decodeOrder cd cd.sentinelZero = .ok .endZero := by
  have hne : cd.sentinelZero ≠ cd.sentinelMark := by
    rcases Coding.sentinels h with ⟨hm, hz⟩ | ⟨hm, hz⟩ <;> rw [hm, hz] <;> decide
  rw [decodeOrder, if_neg hne, if_pos rfl]

/-- No sentinel of a legal coding is above 99 (R111, R115). -/
theorem decodeOrder_reserved {cd : Coding} (h : cd.wf = true) {b : BitVec 8} (hb : 100 ≤ b.toNat) :
    decodeOrder cd b = .error (.reservedOrder b) := by
  have h98 : b ≠ 98 := fun e => by rw [e] at hb; exact absurd hb (by decide)
  have h99 : b ≠ 99 := fun e => by rw [e] at hb; exact absurd hb (by decide)
  have hn : ¬ b.toNat ≤ 97 := by omega
  rcases Coding.sentinels h with ⟨hm, hz⟩ | ⟨hm, hz⟩
  · rw [decodeOrder, hm, hz, if_neg h98, if_neg h99, if_neg hn]
  · rw [decodeOrder, hm, hz, if_neg h99, if_neg h98, if_neg hn]

/-- The HOSTOP decoder finds the argument in the request's bytes (log entry 10). -/
theorem decode_requestBytes (cd : Coding) (code : BitVec 8) (arg : BitVec 16) :
    decode cd .hostop (requestBytes code arg) = decodeHostOp code arg := by
  have harg : arg.extractLsb' 8 8 ++ arg.extractLsb' 0 8 = arg := by
    ext i hi
    simp
    grind
  exact congrArg (decodeHostOp code) harg

/-- The argument of `SET_POSITION` is a byte, kept in the low half (log entry 10). -/
theorem extractLsb'_setWidth_byte (b : BitVec 8) : (b.setWidth 16).extractLsb' 0 8 = b := by
  ext i hi
  simp
  grind

/-- Settles O3: format by format, on the encoder's bytes of each instruction. -/
theorem everyInstructionDecodesFromItsEncoding : Obligations.EveryInstructionDecodesFromItsEncoding := by
  intro cd i hw hi
  cases hev : i.asEvent with
  | some p => rw [Instr.eq_ofEvent hev, Instr.format_ofEvent, decode_encode_event hw]
  | none =>
    cases i
    case noteCut => rfl
    case noNote => rfl
    case note b => exact congrArg Except.ok (decodeNote_concrete (of_decide_eq_true hi))
    case endMark => exact decodeOrder_mark cd
    case endZero => exact decodeOrder_zero hw
    case pattern n => exact decodeOrder_pattern hw (of_decide_eq_true hi)
    case create => exact decode_requestBytes cd 0 0
    case start r => exact decode_requestBytes cd 1 r
    case setPosition o =>
      calc decode cd .hostop (encode cd (.setPosition o)) = decodeHostOp 2 (o.setWidth 16) :=
            decode_requestBytes cd 2 _
        _ = .ok (.setPosition ((o.setWidth 16).extractLsb' 0 8)) := rfl
        _ = .ok (.setPosition o) := by rw [extractLsb'_setWidth_byte]
    case queryPosition => exact decode_requestBytes cd 3 0
    case render => exact decode_requestBytes cd 4 0
    case destroy => exact decode_requestBytes cd 5 0
    all_goals cases hev

/-- Settles O4: the ranges of R111 and R115. -/
theorem orderBytesDecodeByRange : Obligations.OrderBytesDecodeByRange := by
  intro cd b h
  exact ⟨decodeOrder_pattern h, fun hb => hb ▸ decodeOrder_mark cd, fun hb => hb ▸ decodeOrder_zero h,
    decodeOrder_reserved h⟩

/-- Settles O5: the decoder evaluated on the words written out. -/
theorem writtenOutWordsDecode : Obligations.WrittenOutWordsDecode := by
  unfold Obligations.WrittenOutWordsDecode
  decide

end Sys2Proof.Machine

/-! PROOFS. Event operands that are not legal are refused by name: a note that cannot be played and a volume above 65. -/

namespace Sys2Proof.Machine

/-! ### The note -/

/-- A note byte with no such semitone or octave has no period on any channel (R113, R144). -/
theorem Channel.notePeriod_invalid {cfg : Cfg} {k : Nat} (h : 11 < k % 16 ∨ cfg.nOctaves ≤ k / 16) (ch : Channel) :
    ch.notePeriod cfg k = .error .invalidNote := by
  rw [Channel.notePeriod, periodOf, if_pos h]

/-- A valid note has no period where no sample was bound, or `cfg.NOTE_PERIOD` has none (R144, R314). -/
theorem Channel.notePeriod_undefined {cfg : Cfg} {k : Nat} {ch : Channel} (hsemi : k % 16 ≤ 11)
    (hoct : k / 16 < cfg.nOctaves)
    (h : ch.sampleBound = false ∨ notePeriodAt cfg (ptab cfg (k / 16) (k % 16)) ch.c2spd = none) :
    ch.notePeriod cfg k = .error .unboundSample := by
  have hvalid : ¬ (11 < k % 16 ∨ cfg.nOctaves ≤ k / 16) := by omega
  rcases h with hbound | hnone
  · rw [Channel.notePeriod_unbound hbound, if_neg hvalid]
  · rw [Channel.notePeriod, periodOf, if_neg hvalid, hnone]

/-- A concrete note without a period is refused for the same reason, with tone portamento or without. -/
theorem Channel.concreteNote_refused {cfg : Cfg} {b : BitVec 8} {ch : Channel} {r : Refusal}
    (h : ch.notePeriod cfg b.toNat = .error r) (rate : BitVec 16) (porta : Bool) :
    ch.concreteNote cfg rate porta b = .error r := by
  cases porta <;> simp [Channel.concreteNote, Channel.aimNote, Channel.playNote, h]

/-- The channel whose reference frequency the note of an event goes by: outside tone portamento the event's own sample
comes first (R240, R243, R244). -/
def Channel.pitchedBy (g : Song) (porta : Bool) (ch : Channel) : Channel :=
  if porta = false ∧ ch.evSmp ≠ 0 then { ch with c2spd := (g.desc ch.evSmp).c2spd, sampleBound := true } else ch

/-- A trigger that reaches a concrete note without a period there is refused for the same reason (R240). -/
theorem Channel.trigger_noteRefused {cfg : Cfg} {g : Song} {porta : Bool} {ch : Channel} {r : Refusal}
    (rate : BitVec 16) (hvol : ch.evVol.toNat ≤ 65) (hn : ch.evNote.toNat < 254)
    (hsmp : porta = false → ch.evSmp ≠ 0 →
      (g.desc ch.evSmp).volume.toNat ≤ 64 ∧ (g.desc ch.evSmp).length ≠ 0)
    (h : (ch.pitchedBy g porta).notePeriod cfg ch.evNote.toNat = .error r) :
    ch.trigger cfg g rate porta = .error r := by
  have refused (porta : Bool) (c : Channel) (hc : c.evNote = ch.evNote)
      (hp : c.notePeriod cfg ch.evNote.toNat = .error r) : c.noteStep cfg rate porta = .error r := by
    rw [Channel.noteStep_concrete (hc ▸ hn), hc, Channel.concreteNote_refused hp]
  obtain ⟨v, i, hv⟩ := Channel.explicitVolume_runs hvol
  cases porta with
  | true =>
    rw [Channel.trigger_eq_porta hv, refused true { ch with volCur := v, volInit := i } rfl h]
    rfl
  | false =>
    rw [Channel.trigger_eq_sample hv, Channel.sampleStep]
    by_cases hz : ch.evSmp = 0
    · rw [Channel.pitchedBy, if_neg fun hs => hs.2 hz] at h
      rw [if_pos hz]
      exact refused false _ rfl h
    · obtain ⟨hbase, hlen⟩ := hsmp rfl hz
      rw [Channel.pitchedBy, if_pos ⟨rfl, hz⟩] at h
      rw [if_neg hz, Channel.rebind_ok.2 ⟨hbase, rfl⟩]
      simp only [hlen, if_false, Except.bind]
      exact refused false _ rfl h

/-- A row event that reaches such a note is refused. -/
theorem exec_row_noteRefused {s : State} {eff : Effect} {e : EventArgs} {r : Refusal} (hq : s.seq = .row)
    (hn : e.note.toNat < 254) (hvol : e.vol.toNat ≤ 65)
    (hsmp : eff ≠ .tonePorta → e.smp ≠ 0 →
      (s.song.desc e.smp).volume.toNat ≤ 64 ∧ (s.song.desc e.smp).length ≠ 0)
    (h : ((s.cur.latch (s.cfg.coding.codeOf eff) e).pitchedBy s.song (decide (eff = .tonePorta))).notePeriod s.cfg
      e.note.toNat = .error r) :
    exec (Instr.ofEvent eff e) s = .refused r := by
  rw [exec_row hq, Channel.trigger_noteRefused (ch := s.cur.latch _ e) s.ctx.rate hvol hn
    (fun hp => hsmp (of_decide_eq_false hp)) h, withValue_error]

/-- A note byte as an instruction of its own, where the served channel has no period for it (log entry 15). -/
theorem exec_note_refused {s : State} {b : BitVec 8} {r : Refusal} (h : s.cur.notePeriod s.cfg b.toNat = .error r) :
    exec (.note b) s = .refused r := by
  show execNote b s = _
  rw [execNote, Channel.concreteNote_refused h, withValue_error]

/-- Settles O38: whatever channel it is played on an invalid note has no period; a valid one has none on the channel as
it is, or as the event's sample leaves it. -/
theorem unplayableNotesAreRefused : Obligations.UnplayableNotesAreRefused := by
  refine ⟨fun s eff e hq hn hvol hsmp => ⟨fun hbad => ?_, fun hsemi hoct hkeeps hnone => ?_,
    fun hsemi hoct hs heff hnone => ?_⟩, fun s b _ => ⟨fun hbad => ?_, fun hsemi hoct hnone => ?_⟩⟩
  · exact exec_row_noteRefused hq hn hvol hsmp (Channel.notePeriod_invalid hbad _)
  · refine exec_row_noteRefused hq hn hvol hsmp ?_
    rw [Channel.pitchedBy, if_neg fun h => hkeeps.elim h.2 (of_decide_eq_false h.1)]
    exact Channel.notePeriod_undefined hsemi hoct hnone
  · refine exec_row_noteRefused hq hn hvol hsmp ?_
    rw [Channel.pitchedBy, if_pos ⟨decide_eq_false heff, hs⟩]
    exact Channel.notePeriod_undefined hsemi hoct (.inr hnone)
  · exact exec_note_refused (Channel.notePeriod_invalid hbad _)
  · exact exec_note_refused (Channel.notePeriod_undefined hsemi hoct hnone)

/-! ### The volume -/

/-- The explicit volume is the first step of every trigger (R240, R241). -/
theorem Channel.trigger_loudEvent {ch : Channel} (h : 65 < ch.evVol.toNat) (cfg : Cfg) (g : Song) (rate : BitVec 16)
    (porta : Bool) : ch.trigger cfg g rate porta = .error .invalidVolume := by
  rw [Channel.trigger, Channel.explicitVolume, if_pos h]

/-- Settles O39: the trigger stops at its first step, whatever the command. -/
theorem volumeAbove65IsRefused : Obligations.VolumeAbove65IsRefused := by
  intro s eff e hq hvol
  rw [exec_row hq, Channel.trigger_loudEvent (ch := s.cur.latch _ e) hvol, withValue_error]

end Sys2Proof.Machine

/-! PROOFS. The constant tables: what the volume table, the period table and the two functions of the configuration's
data hold, and the vibrato that reads its offset from them. -/

namespace Sys2Proof.Machine

/-! ### The volume table -/

/-- A volume of at most 64 scales a signed byte into -32..31 (R140). -/
theorem scaledSample_bounds {v : BitVec 7} (s : BitVec 8) (hv : v.toNat ≤ 64) :
    -32 ≤ (v.toNat : Int) * s.toInt / 256 ∧ (v.toNat : Int) * s.toInt / 256 ≤ 31 := by
  have hlo : (v.toNat : Int) * (-128) ≤ v.toNat * s.toInt :=
    Int.mul_le_mul_of_nonneg_left (BitVec.le_toInt s) (Int.natCast_nonneg _)
  have hhi : (v.toNat : Int) * s.toInt ≤ v.toNat * 127 :=
    Int.mul_le_mul_of_nonneg_left (Int.le_of_lt_add_one (BitVec.toInt_lt (x := s))) (Int.natCast_nonneg _)
  omega

/-- The quotient fits the signed byte of the table's entry (R140). -/
theorem volLut_toInt {v : BitVec 7} (s : BitVec 8) (hv : v.toNat ≤ 64) :
    (volLut v s).toInt = (v.toNat : Int) * s.toInt / 256 := by
  obtain ⟨hlo, hhi⟩ := scaledSample_bounds s hv
  rw [volLut, BitVec.toInt_ofInt]
  exact Int.bmod_eq_of_le (by omega) (by omega)

/-- Settles O6: the entry is the quotient itself, and for a positive divisor the model's division is the floor. -/
theorem volumeTableIsTheFloor : Obligations.VolumeTableIsTheFloor := by
  intro v s hv
  rw [volLut_toInt s hv]
  exact ⟨(Int.fdiv_eq_ediv_of_nonneg _ (by decide)).symm, scaledSample_bounds s hv⟩

/-! ### The period table -/

/-- Octave 0 is `cfg.P0` (R142). -/
theorem ptab_zero (cfg : Cfg) {n : Nat} (h : n < 12) : ptab cfg 0 n = cfg.p0[n] := by
  simp [ptab, h]

/-- Each further octave halves the one before, truncating (R142, R143). -/
theorem ptab_succ_toNat (cfg : Cfg) (o n : Nat) : (ptab cfg (o + 1) n).toNat = (ptab cfg o n).toNat / 2 := by
  rw [ptab, ptab, BitVec.toNat_ushiftRight, BitVec.toNat_ushiftRight, Nat.shiftRight_succ]

/-! ### `cfg.NOTE_PERIOD` -/

/-- How a table of points is searched: the first one that meets the condition is found. -/
theorem find?_firstPoint {α : Type} {P : α → Prop} [DecidablePred P] {before after : List α} {row : α}
    (hbefore : ∀ r ∈ before, ¬ P r) (hrow : P row) :
    (before ++ row :: after).find? (fun r => decide (P r)) = some row :=
  List.find?_eq_some_iff_append.2
    ⟨decide_eq_true hrow, before, after, rfl, fun r hr => by simp [hbefore r hr]⟩

section NotePeriod

variable {cfg : Cfg} {tv c2 : BitVec 16}

/-- A rescaling is undefined at reference frequency 0 (R144). -/
theorem notePeriodAt_rescale_zero {num : Nat} (h : cfg.notePeriod = .rescale num) :
    notePeriodAt cfg tv 0 = none := by
  rw [notePeriodAt, h]; rfl

/-- Elsewhere it is the truncated quotient (R144). -/
theorem notePeriodAt_rescale {num : Nat} (h : cfg.notePeriod = .rescale num) (hc : c2 ≠ 0) :
    notePeriodAt cfg tv c2 = some (BitVec.ofNat 16 (tv.toNat * num / c2.toNat)) := by
  rw [notePeriodAt, h]; exact if_neg hc

/-- A table answers with its first point at its arguments (R144, log entry 13). -/
theorem notePeriodAt_firstPoint {before after : List PeriodRow} {row : PeriodRow}
    (h : cfg.notePeriod = .table (before ++ row :: after))
    (hbefore : ∀ r ∈ before, ¬ (r.tv = tv ∧ r.c2spd = c2)) (hrow : row.tv = tv ∧ row.c2spd = c2) :
    notePeriodAt cfg tv c2 = some row.period := by
  rw [notePeriodAt, h]
  exact congrArg (Option.map PeriodRow.period)
    (find?_firstPoint (P := fun r => r.tv = tv ∧ r.c2spd = c2) hbefore hrow)

/-- A table is undefined where it has no point (R144, log entry 13). -/
theorem notePeriodAt_noPoint {rows : List PeriodRow} (h : cfg.notePeriod = .table rows)
    (hnone : ∀ r ∈ rows, ¬ (r.tv = tv ∧ r.c2spd = c2)) : notePeriodAt cfg tv c2 = none := by
  have hfind : rows.find? (fun r => decide (r.tv = tv ∧ r.c2spd = c2)) = none :=
    List.find?_eq_none.2 fun r hr => by simpa using hnone r hr
  rw [notePeriodAt, h]
  exact congrArg (Option.map PeriodRow.period) hfind

end NotePeriod

/-- Settles O7: the octaves of the table, the two forms of `cfg.NOTE_PERIOD`, and the note that reads both. -/
theorem periodsComeFromTheConfiguration : Obligations.PeriodsComeFromTheConfiguration := by
  intro cfg
  refine ⟨fun o n h => ⟨ptab_zero cfg h, ptab_succ_toNat cfg o n⟩,
    fun tv c2 => ⟨fun num hscale => ⟨?_, fun hc => ?_⟩, fun rows htable => ⟨?_, notePeriodAt_noPoint htable⟩⟩,
    fun note c2 p hsemi hoct hp => periodOf_ok.2 ⟨hsemi, hoct, hp⟩⟩
  · rintro rfl
    exact notePeriodAt_rescale_zero hscale
  · exact ⟨_, notePeriodAt_rescale hscale hc, BitVec.toNat_ofNat _ 16⟩
  · rintro before row after rfl hbefore htv hc2
    exact notePeriodAt_firstPoint htable hbefore ⟨htv, hc2⟩

/-! ### `cfg.LFO` and `cfg.VIB_SCALE` -/

/-- Half of a phase is always an index of `cfg.LFO` (R145). -/
theorem lfo_getElem?_eq (cfg : Cfg) (phase : BitVec 7) :
    cfg.lfo[phase.toNat / 2]? = some (lfoAt cfg phase) := by
  have hindex : phase.toNat / 2 < 65 := by have := phase.isLt; omega
  simp [lfoAt, hindex]

section VibOffset

variable {cfg : Cfg} {l : Int} {d : BitVec 4}

/-- No swing at level 0 or depth 0 (R217). -/
theorem vibOffset_zero (h : l = 0 ∨ d = 0) : vibOffset cfg l d = 0 := if_pos h

/-- Under a ratio the offset is the floor of the product over the denominator (R217). -/
theorem vibOffset_ratio {den : Nat} (h : cfg.vibScale = .ratio den) (hne : ¬ (l = 0 ∨ d = 0)) :
    vibOffset cfg l d = (l * d.toNat).fdiv den := by
  rw [vibOffset, if_neg hne, h]
  exact (Int.fdiv_eq_ediv_of_nonneg _ (Int.natCast_nonneg den)).symm

/-- Under a table it is that of the first point at its arguments (log entry 13). -/
theorem vibOffset_firstPoint {before after : List VibRow} {row : VibRow}
    (h : cfg.vibScale = .table (before ++ row :: after)) (hne : ¬ (l = 0 ∨ d = 0))
    (hbefore : ∀ r ∈ before, ¬ (r.level = l ∧ r.depth = d)) (hrow : row.level = l ∧ row.depth = d) :
    vibOffset cfg l d = row.offset := by
  rw [vibOffset, if_neg hne, h]
  exact congrArg (fun point => (Option.map VibRow.offset point).getD 0)
    (find?_firstPoint (P := fun r => r.level = l ∧ r.depth = d) hbefore hrow)

/-- A table has the offset 0 where it has no point (log entry 13). -/
theorem vibOffset_noPoint {rows : List VibRow} (h : cfg.vibScale = .table rows) (hne : ¬ (l = 0 ∨ d = 0))
    (hnone : ∀ r ∈ rows, ¬ (r.level = l ∧ r.depth = d)) : vibOffset cfg l d = 0 := by
  have hfind : rows.find? (fun r => decide (r.level = l ∧ r.depth = d)) = none :=
    List.find?_eq_none.2 fun r hr => by simpa using hnone r hr
  rw [vibOffset, if_neg hne, h]
  exact congrArg (fun point => (Option.map VibRow.offset point).getD 0) hfind

end VibOffset

/-- The model's offset is the one `VibScales` pins (R217). -/
theorem vibScales_vibOffset (cfg : Cfg) (l : Int) (d : BitVec 4) :
    VibScales cfg l d.toNat (vibOffset cfg l d) := by
  have hdepth (b : BitVec 4) : b.toNat = d.toNat ↔ b = d := BitVec.toNat_inj
  have hstill : d.toNat = 0 ↔ d = 0 := BitVec.toNat_inj (y := 0)
  simp only [VibScales, hdepth, hstill, ne_eq]
  refine ⟨vibOffset_zero, fun hl hd => ?_⟩
  have hne : ¬ (l = 0 ∨ d = 0) := not_or.2 ⟨hl, hd⟩
  refine ⟨fun den hratio => vibOffset_ratio hratio hne, fun rows htable => ⟨?_, vibOffset_noPoint htable hne⟩⟩
  rintro before row after rfl hbefore hlevel hrow
  exact vibOffset_firstPoint htable hne hbefore ⟨hlevel, hrow⟩

/-! ### Vibrato -/

/-- `VIBRATO` on a tick is `do_vibrato` with the latched parameter, after the continuation reset (R210, R216). -/
theorem exec_tick_vibrato {s : State} (hq : s.seq = .tick) (e : EventArgs) :
    exec (.vibrato e) s =
      .next (s.setCur ((s.cur.continuationReset .vibrato).doVibrato s.cfg s.ctx.rate s.cur.evParam)) := by
  have hparam : (s.cur.continuationReset .vibrato).evParam = s.cur.evParam := rfl
  show exec (Instr.ofEvent .vibrato e) s = _
  rw [exec_tick hq]
  simp [tickAction, vibratoTick, channelAction, State.modCur, hparam]

/-- Settles O52: the continuation reset of `VIBRATO` leaves the phase, the memory and the target as `do_vibrato` reads
them. -/
theorem vibratoSwingsAroundTheTarget : Obligations.VibratoSwingsAroundTheTarget := by
  intro s e hq
  have hphase : (s.cur.continuationReset .vibrato).vibPhase = s.cur.vibPhase := by
    simp [Channel.continuationReset]
  have hscale := vibScales_vibOffset s.cfg (lfoAt s.cfg s.cur.vibPhase)
    (loNibble (remembered s.cur.vibMem s.cur.evParam))
  have hperiod := Channel.doVibrato_period s.cfg s.ctx.rate s.cur.evParam (s.cur.continuationReset .vibrato)
  have hadvance := Channel.doVibrato_phase s.cfg s.ctx.rate s.cur.evParam (s.cur.continuationReset .vibrato)
  rw [hphase] at hperiod hadvance
  rw [loNibble_toNat] at hscale
  refine ⟨_, _, _, _, _, ?_, ?_, lfo_getElem?_eq s.cfg s.cur.vibPhase, hscale, hperiod, hadvance⟩
  · rw [exec_tick_vibrato hq, Channel.doVibrato_eq]
    rfl
  · simp only [remembered, ne_eq, ite_not]

end Sys2Proof.Machine

/-! PROOFS. The sequencer: the order entries, the row event followed channel by channel to its end, and the mix-volume
recompute with which every tick event ends. -/

namespace Sys2Proof.Machine

/-! ### The order entries -/

/-- Settles O30: where the song has the pattern its entry runs, and every channel is rewound alone. -/
theorem patternEntryStartsThePattern : Obligations.PatternEntryStartsThePattern := by
  intro s n hn hp
  refine ⟨_, execPattern_runs hn hp, ?_, rfl, rfl, fun c => ?_, rfl, rfl, rfl⟩
  · exact (BitVec.toNat_setWidth ..).trans (Nat.mod_eq_of_lt (by omega))
  · exact onAll_getElem Channel.rewind s.chans c c.isLt

/-- A first sentinel is resolved (R173, R174). -/
theorem wrapOrder_runs {s : State} (h : s.seq ≠ .orderAgain) (o : BitVec 8) :
    wrapOrder o s = .next
      { s with ctx := { s.ctx with orderPos := o, loopCtr := s.ctx.loopCtr + 1 }, seq := .orderAgain } := if_neg h

/-- A second sentinel in a row is not (R165). -/
theorem wrapOrder_refused {s : State} (h : s.seq = .orderAgain) (o : BitVec 8) :
    wrapOrder o s = .refused .invalidOrderEntry := if_pos h

theorem execPattern_refused {s : State} {n : BitVec 8} (h : 97 < n.toNat ∨ s.song.nPatterns ≤ n.toNat) :
    execPattern n s = .refused .invalidOrderEntry := if_pos h

/-- An order byte in the reserved range is refused where it is fetched (R115). -/
theorem fetchOrder_reserved {s : State} {b : BitVec 8} (hw : s.cfg.coding.wf = true)
    (h : s.song.orderAt s.ctx.orderPos = .ok b) (hb : 100 ≤ b.toNat) :
    fetchOrder s = .error .invalidOrderEntry := by
  simp only [fetchOrder, h, decodeOrder_reserved hw hb]

/-- Inside `change_pattern` a step begins with the order entry, and ends where that cannot be fetched (R165). -/
theorem step_order_refused {s : State} {r : Refusal} (hq : s.seq = .order ∨ s.seq = .orderAgain)
    (h : fetchOrder s = .error r) : step s = .refused r := by
  have hne : s.seq ≠ .host := by rcases hq with hq | hq <;> rw [hq] <;> decide
  refine step_refused hne ?_
  rcases hq with hq | hq <;> simp only [turn, hq, h, withValue_error]

/-- Settles O31: a sentinel by whether one was just resolved, a pattern number by its range, a reserved byte where it
is fetched. -/
theorem sentinelsWrapTheOrderList : Obligations.SentinelsWrapTheOrderList :=
  ⟨fun s hq => ⟨wrapOrder_runs hq s.ctx.orderMark, wrapOrder_runs hq 0⟩,
    fun s hq => ⟨wrapOrder_refused hq s.ctx.orderMark, wrapOrder_refused hq 0⟩,
    fun _ _ h => execPattern_refused h,
    fun _ _ hq hw hord hb => step_order_refused hq (fetchOrder_reserved hw hord hb)⟩

/-! ### One channel's share of a row event -/

/-- What the event of the channel being served leaves in a row event, before its row is counted: the position in the
row, the other channels, the row counter, the context within its frame; all of the state where the channel is
inactive (R163). -/
structure State.RowServed (s u : State) : Prop where
  seq : u.seq = .row
  chan : u.chan = s.chan
  priming : u.priming = s.priming
  ctx : s.ctx.EventFrame u.ctx
  rowCtr : u.cur.rowCtr = s.cur.rowCtr
  others : ∀ c, c ≠ s.chan → u.channel c = s.channel c
  idle : s.cur.active = false → u = s

/-- Inside a row event one instruction's turn is the event of the channel being served, if it is active, and then the
advance (R163, R169). -/
theorem turn_row {s t : State} (hq : s.seq = .row) (h : turn s = .next t) :
    ∃ u, s.RowServed u ∧ t = u.advanceRow := by
  have wrong {q : Seq} (hne : Seq.row ≠ q) : s.seq ≠ q := hq ▸ hne
  rcases turn_next h with ⟨hh, _⟩ | ⟨ho, _⟩ | ⟨_, ha, eff, e, u, hu, rfl⟩ | ⟨_, _, rfl⟩ | ⟨ht, _⟩
  · exact absurd hh (wrong nofun)
  · exact absurd ho (not_or.2 ⟨wrong nofun, wrong nofun⟩)
  · obtain ⟨useq, uchan, uprime⟩ := exec_event_seq hu
    obtain ⟨hshape, hctx⟩ := exec_event_shape hu
    refine ⟨u, ⟨useq.trans hq, uchan, uprime, hctx, ?_, fun c hc => ?_, fun hidle => by simp [ha] at hidle⟩, rfl⟩
    · rw [State.cur, uchan]
      exact (exec_row_channel hq hu s.chan).2
    · rw [hshape]
      exact (State.setCur_channel s c u.cur).trans (if_neg hc)
  · exact ⟨s, ⟨hq, rfl, rfl, .refl _, rfl, fun _ _ => rfl, fun _ => rfl⟩, rfl⟩
  · exact absurd ht (wrong nofun)

/-- The channels once the served one has been counted (R163). -/
theorem State.RowServed.countRow_channel {s u : State} (h : s.RowServed u) (c : Fin 4) :
    u.countRow.channel c = if c = s.chan then { u.cur with rowCtr := s.cur.rowCtr + 1 } else s.channel c := by
  rw [State.countRow_channel, h.chan, h.rowCtr]
  split
  · rfl
  · rename_i hc; exact h.others c hc

/-- Counting requests a pattern change at row 63 and withdraws none (R164). -/
theorem State.RowServed.countRow_chgPat {s u : State} (h : s.RowServed u)
    (hs : s.cur.rowCtr = 63 ∨ s.ctx.chgPat = true) : u.countRow.ctx.chgPat = true := by
  rw [State.countRow_ctx, h.rowCtr]
  rcases hs with hrow | hchg
  · rw [hrow]; rfl
  · simp [h.ctx.chgPat hchg]

/-! ### A row event to its end -/

/-- A relation of where a step stands in a row event to where it ends holds if it does at the row's end, and carries
back over each earlier channel (R162, R169). -/
theorem row_induction {P : State → State → Prop}
    (last : ∀ s u, s.RowServed u → s.chan = 3 → P s u.countRow.finishRow)
    (earlier : ∀ s u t, s.RowServed u → s.chan ≠ 3 → P { u.countRow with chan := s.chan + 1 } t → P s t)
    {s t : State} (hq : s.seq = .row) (h : step s = .next t) : P s t := by
  have hne {s : State} (hq : s.seq = .row) : s.seq ≠ .host := hq ▸ nofun
  rw [step_inside (hne hq)] at h
  suffices key : ∀ k (s : State), s.seq = .row → s.turnsLeft ≤ k → runOn k s = .next t → P s t from
    key 6 s hq s.turnsLeft_le h
  clear h hq s
  intro k
  induction k with
  | zero => exact fun s hq hk _ => absurd (State.turnsLeft_eq_zero (Nat.le_zero.1 hk)) (hne hq)
  | succ k ih =>
    intro s hq hk h
    rw [runOn_succ (hne hq)] at h
    obtain ⟨v, hv, h⟩ := andThen_eq_next.1 h
    have hless := turn_turnsLeft (hne hq) hv
    obtain ⟨u, hu, rfl⟩ := turn_row hq hv
    rcases u.advanceRow_cases with ⟨hc, e⟩ | ⟨hc, e⟩ <;> rw [e] at h hless
    · rw [runOn_done (State.finishRow_seq _)] at h
      cases h
      exact last s u hu (hu.chan ▸ hc)
    · rw [hu.chan] at h hless
      exact earlier s u t hu (hu.chan ▸ hc) (ih _ hu.seq (by omega) h)

/-- Settles O33: the order of the channels from one turn, the two counters from the end of the row, which no channel
writes before it. -/
theorem rowEndsWithTheTickReload : Obligations.RowEndsWithTheTickReload := by
  intro s t hq
  refine ⟨fun h => ?_, fun h => ?_⟩
  · obtain ⟨u, hu, rfl⟩ := turn_row hq h
    rcases u.advanceRow_cases with ⟨hc, e⟩ | ⟨hc, e⟩ <;> rw [e]
    · exact ⟨fun hlt => by simp [← hu.chan, hc] at hlt, fun _ => State.finishRow_seq _⟩
    · exact ⟨fun _ => ⟨hu.seq, hu.chan ▸ chan_succ_val hc⟩, fun h3 => absurd (hu.chan.trans h3) hc⟩
  · refine row_induction
      (P := fun s t => t.ctx.tickCtr.toNat = t.ctx.ticksPerRow.toNat - 1 ∧
        t.ctx.frameCtr = if s.priming then t.ctx.framesPerTick else s.ctx.frameCtr)
      (fun s u hu _ => ?_) (fun s u t hu _ ht => ?_) hq h
    · rw [State.finishRow_ctx, State.countRow_ctx, State.countRow_priming, hu.priming, hu.ctx.frameCtr]
      exact ⟨tickReload_toNat _, rfl⟩
    · simp only [State.countRow_ctx, State.countRow_priming, hu.priming, hu.ctx.frameCtr] at ht
      exact ht

/-- What a row does to a channel still to be served (R163, R164, R168). -/
structure State.RowCounted (s t : State) (c : Fin 4) : Prop where
  rowCtr : (t.channel c).rowCtr = (s.channel c).rowCtr + 1
  request : (s.channel c).rowCtr = 63 → t.ctx.chgPat = true
  idle : (s.channel c).active = false →
    t.channel c =
      { s.channel c with
        rowCtr := (s.channel c).rowCtr + 1
        volMix := mixVolume (s.channel c).volCur s.ctx.gvol }

/-- The row counts a channel the same from another state with the same contents there and the same global volume. -/
theorem State.RowCounted.of_same {s v t : State} {c : Fin 4} (h : v.RowCounted t c)
    (hread : v.channel c = s.channel c) (hgvol : v.ctx.gvol = s.ctx.gvol) : s.RowCounted t c := by
  obtain ⟨hrow, hrequest, hidle⟩ := h
  rw [hread] at hrow hrequest hidle
  rw [hgvol] at hidle
  exact ⟨hrow, hrequest, hidle⟩

/-- What a row played from the channel being served does to all four: it counts the ones from there, recomputes the
mix volume of the ones before, and withdraws no pattern change. -/
structure State.RowPlayed (s t : State) : Prop where
  counted : ∀ c, s.chan ≤ c → s.RowCounted t c
  served : ∀ c, c < s.chan →
    t.channel c = { s.channel c with volMix := mixVolume (s.channel c).volCur s.ctx.gvol }
  pending : s.ctx.chgPat = true → t.ctx.chgPat = true

/-- A row is played where, past the channel being served, it counts the channels, and up to it only recomputes the mix
volumes. -/
theorem State.RowServed.played {s u t : State} (hu : s.RowServed u)
    (hmix : ∀ c, c ≤ s.chan → t.channel c =
      { u.countRow.channel c with volMix := mixVolume (u.countRow.channel c).volCur s.ctx.gvol })
    (hchg : u.countRow.ctx.chgPat = true → t.ctx.chgPat = true)
    (hrest : ∀ c, s.chan < c → s.RowCounted t c) : s.RowPlayed t where
  counted c hc := by
    rcases hc.eq_or_lt with rfl | hlt
    · have hread := hmix s.chan le_rfl
      rw [hu.countRow_channel, if_pos rfl] at hread
      refine ⟨by rw [hread]; rfl, fun hrow => hchg (hu.countRow_chgPat (.inl hrow)), fun hidle => ?_⟩
      rw [hread, hu.idle hidle]
      rfl
    · exact hrest c hlt
  served c hc := by
    rw [hmix c hc.le, hu.countRow_channel, if_neg hc.ne]
  pending hp := hchg (hu.countRow_chgPat (.inr hp))

/-- A step that plays a row plays it to its end. -/
theorem step_rowPlayed {s t : State} (hq : s.seq = .row) (h : step s = .next t) : s.RowPlayed t := by
  refine row_induction (P := State.RowPlayed) (fun s u hu hc => ?_) (fun s u t hu hc ht => ?_) hq h
  · refine hu.played (fun c _ => ?_) (fun hp => by rw [State.finishRow_ctx]; exact hp) fun c hlt => ?_
    · rw [State.finishRow_channel, u.countRow_frame.gvol, hu.ctx.gvol]
    · rw [hc] at hlt; exact absurd hlt (Fin.le_last c).not_gt
  · have hgvol : u.countRow.ctx.gvol = s.ctx.gvol := u.countRow_frame.gvol.trans hu.ctx.gvol
    refine hu.played (fun c hle => ?_) ht.pending fun c hlt => ?_
    · have hserved : c < s.chan + 1 := (chan_lt_succ hc).2 hle.lt_or_eq
      rw [← hgvol]
      exact ht.served c hserved
    · have hahead : s.chan + 1 ≤ c := not_lt.1 fun hbefore => ((chan_lt_succ hc).1 hbefore).elim hlt.not_gt hlt.ne'
      have hread : u.countRow.channel c = s.channel c := by rw [hu.countRow_channel, if_neg hlt.ne']
      exact (ht.counted c hahead).of_same hread hgvol

/-- Settles O32: by the row played to its end, channel by channel. -/
theorem rowStepCountsTheRow : Obligations.RowStepCountsTheRow := by
  intro s t hq h c
  have hplayed := step_rowPlayed hq h
  refine ⟨fun hc => ?_, hplayed.served c⟩
  obtain ⟨hrow, hrequest, hidle⟩ := hplayed.counted c hc
  exact ⟨hrow, hrequest, hidle⟩

/-! ### The mix-volume recompute -/

/-- Every mix volume is that of the current and the global volume (R168). -/
def State.Mixed (s : State) : Prop := ∀ c, (s.channel c).volMix = mixVolume (s.channel c).volCur s.ctx.gvol

theorem State.finishTick_mixed (s : State) : s.finishTick.Mixed := fun c => by
  rw [State.finishTick_channel, s.finishTick_frame.gvol]

/-- A tick event complete at its entry, as in single-row mode, has recomputed the mix volumes (R161). -/
theorem State.enterTick_mixed {s : State} (h : s.enterTick.seq = .host) : s.enterTick.Mixed := by
  rcases s.enterTick_cases with ⟨_, e⟩ | ⟨_, _, e⟩ | ⟨_, _, e⟩ <;> rw [e] at h ⊢
  · cases h
  · exact s.finishTick_mixed
  · cases hp : s.ctx.chgPat <;> simp [hp] at h

theorem State.advanceRow_mixed {s : State} (hq : s.seq = .row) (h : s.advanceRow.seq = .host) :
    s.advanceRow.Mixed := by
  rcases s.advanceRow_cases with ⟨_, e⟩ | ⟨_, e⟩ <;> rw [e] at h ⊢
  · exact State.finishTick_mixed _
  · exact absurd (hq.symm.trans h) nofun

theorem State.advanceTick_mixed {s : State} (hq : s.seq = .tick) (h : s.advanceTick.seq = .host) :
    s.advanceTick.Mixed := by
  rcases s.advanceTick_cases with ⟨_, e⟩ | ⟨_, e⟩ <;> rw [e] at h ⊢
  · exact State.finishTick_mixed _
  · exact absurd (hq.symm.trans h) nofun

/-- The instruction that completes a tick event ends with the recompute (R160, R168). -/
theorem turn_mixed {s t : State} (hs : s.seq = .host → s.Mixed) (h : turn s = .next t) (ht : t.seq = .host) :
    t.Mixed := by
  rcases turn_next h with ⟨hq, rfl⟩ | ⟨_, i, hi, hx⟩ | ⟨hq, _, eff, e, u, hu, rfl⟩ | ⟨hq, _, rfl⟩ | ⟨hq, u, hu, rfl⟩
  · exact hs hq
  · rcases exec_order_next hi hx with ⟨_, o, rfl⟩ | ⟨n, rfl⟩ <;> cases ht
  · exact State.advanceRow_mixed ((exec_event_seq hu).1.trans hq) ht
  · exact State.advanceRow_mixed hq ht
  · exact State.advanceTick_mixed ((exec_event_seq hu).1.trans hq) ht

/-- A tick event run to its end has recomputed the mix volumes, at its entry or in its last instruction. -/
theorem finishOperation_mixed {s t : State} (hs : s.seq = .host → s.Mixed) (h : finishOperation s = .next t) :
    t.Mixed :=
  finishOperation_keeps (P := fun u => u.seq = .host → u.Mixed) (fun _ _ hu hv => turn_mixed hu hv) hs h
    (finishOperation_seq h)

/-- START's priming tick (R292). -/
theorem exec_start_mixed {s t : State} {r : BitVec 16} (h : exec (.start r) s = .next t) :
    t.Mixed ∧ t.session = .started := by
  have hfin := exec_start_primed_next h
  exact ⟨finishOperation_mixed (fun hq => by cases hq) hfin, (finishOperation_frame hfin).session⟩

/-- The tick event of a RENDER at its frame boundary, on each path of R160. -/
theorem exec_render_mixed {s t : State} (hf : s.ctx.frameCtr = 1) (h : exec .render s = .next t) :
    t.Mixed ∧ t.session = .started := by
  obtain ⟨_, hs, m, _, hfin⟩ := exec_render_next h
  have hframe := (State.countFrame_frame _).comp (finishOperation_frame hfin)
  refine ⟨finishOperation_mixed (fun hq => ?_) hfin, hframe.session.trans hs⟩
  rcases State.countFrame_cases { s with chans := m.chans, result := .sample (m.acc + 128) } with
    ⟨_, e⟩ | ⟨hne, _⟩
  · rw [e] at hq ⊢
    exact State.enterTick_mixed hq
  · exact absurd hf hne

/-- Settles O34: what is left of a tick event in progress, START's, and RENDER's at the boundary; the invariant bounds
the volumes. -/
theorem tickEventsEndWithTheMixRecompute : Obligations.TickEventsEndWithTheMixRecompute := by
  intro s t hi h htick
  have hdone : t.Mixed ∧ t.session = .started := by
    by_cases hq : s.seq = .host
    · rcases htick with hne | ⟨arg, rest, ho⟩ | ⟨hf, arg, rest, ho⟩
      · exact absurd hq hne
      · rw [step_request hq ho] at h
        exact exec_start_mixed (r := arg) h
      · rw [step_request hq ho] at h
        exact exec_render_mixed (s := { s with ops := rest }) hf h
    · rw [step_inside hq] at h
      obtain ⟨_, _, _, hinside, _⟩ := inv_iff.1 hi
      exact ⟨finishOperation_mixed (fun hh => absurd hh hq) h,
        (finishOperation_frame h).session.trans (hinside hq)⟩
  obtain ⟨hmixed, hsession⟩ := hdone
  obtain ⟨_, _, _, _, hrun⟩ := inv_iff.1 (stepKeepsTheInvariant s t hi h)
  obtain ⟨hsound, _⟩ := hrun hsession
  intro c
  rw [hmixed c]
  exact mixVolume_toNat (channelInv_iff.1 (hsound.channels c)).1.volCur hsound.gvol

end Sys2Proof.Machine

/-! PROOFS. The effects: what the commands add to an event that triggers in a row event, and what no event writes in a
row event and on a tick. -/

namespace Sys2Proof.Machine

/-! ### A legal event in a row event -/

/-- A legal event outside tone portamento triggers, within the trigger's frame, and then runs its row action; if it is
otherwise empty, the trigger does nothing (R190, R240, R248). -/
theorem exec_row_legal {s : State} {eff : Effect} {e : EventArgs} (hq : s.seq = .row) (hp : eff ≠ .tonePorta)
    (hl : TriggerLegal s.cfg s.song false (s.cur.latch (s.cfg.coding.codeOf eff) e)) :
    ∃ ch, (s.cur.latch (s.cfg.coding.codeOf eff) e).TriggerFrame ch ∧
      exec (Instr.ofEvent eff e) s = rowAction eff (s.setCur (ch.continuationReset eff)) ∧
      (e.note = 255 → e.smp = 0 → e.vol = 65 → ch = s.cur.latch (s.cfg.coding.codeOf eff) e) := by
  obtain ⟨ch, hch⟩ := Channel.trigger_runs s.ctx.rate hl
  refine ⟨ch, Channel.trigger_frame hch, ?_, fun hn hs hv => ?_⟩
  · rw [exec_row hq, decide_eq_false hp, hch, withValue_ok]
  · rw [Channel.trigger_empty (ch := s.cur.latch (s.cfg.coding.codeOf eff) e) hn hs hv] at hch
    exact (Except.ok.inj hch).symm

/-- A legal event whose row action sets the context to `x` writes `x` and the served channel (R190). -/
theorem exec_row_setsContext {s : State} {eff : Effect} {e : EventArgs} {x : Context} (hq : s.seq = .row)
    (hp : eff ≠ .tonePorta)
    (hl : TriggerLegal s.cfg s.song false (s.cur.latch (s.cfg.coding.codeOf eff) e))
    (hx : ∀ ch : Channel, ch.evParam = e.param →
      rowAction eff (s.setCur ch) = .next { s.setCur ch with ctx := x }) :
    ∃ t, exec (Instr.ofEvent eff e) s = .next t ∧
      t = { s with ctx := x, chans := s.chans.set s.chan t.cur } ∧
      (e.note = 255 → e.smp = 0 → e.vol = 65 →
        t.cur = Channel.continuationReset eff (s.cur.latch (s.cfg.coding.codeOf eff) e)) := by
  obtain ⟨ch, hframe, hexec, hempty⟩ := exec_row_legal hq hp hl
  have hcur : State.cur { s.setCur (ch.continuationReset eff) with ctx := x } = ch.continuationReset eff :=
    State.setCur_cur s _
  refine ⟨_, hexec.trans (hx (ch.continuationReset eff) hframe.evParam), ?_, fun hn hs hv => ?_⟩
  · rw [hcur]; rfl
  · rw [hcur, hempty hn hs hv]

/-! ### The commands that write the context -/

/-- The divisor of `set_tempo`, from the table's entry at the high nibble (R147). -/
theorem tempoDivisor_of_entry {cfg : Cfg} {p : BitVec 8} {m : Nat}
    (h : cfg.tempoTable[(p >>> 4).toNat]? = some (BitVec.ofNat 16 m)) (hm : m < 65536) :
    tempoDivisor cfg p = 50 - ((m * (p.toNat % 16) / 16 : Nat) : Int) := by
  have hindex : (hiNibble p).toNat = (p >>> 4).toNat := by
    rw [hiNibble_toNat, BitVec.toNat_ushiftRight, Nat.shiftRight_eq_div_pow]
  have hentry : (BitVec.ofNat 16 m).toNat = m := Nat.mod_eq_of_lt hm
  rw [tempoDivisor, hindex, h, Option.getD_some, hentry, loNibble_toNat]

/-- `SET_SPEED`'s row action on parameter 0 (R192). -/
theorem setSpeedOnce_zero {s : State} (h : s.cur.evParam = 0) : setSpeedOnce s = .next s := if_pos h

/-- `SET_SPEED`'s row action on a parameter with a positive divisor (R192). -/
theorem setSpeedOnce_tempo {s : State} {x : Context} (h : s.cur.evParam ≠ 0)
    (hx : s.ctx.setTempo s.cfg s.cur.evParam = .ok x) : setSpeedOnce s = .next { s with ctx := x } := by
  rw [setSpeedOnce, if_neg h, hx, withValue_ok]

/-- Settles O44: parameter 0 sets the context to itself, every other one to that of `set_tempo`. -/
theorem setSpeedSetsTheTempo : Obligations.SetSpeedSetsTheTempo := by
  intro s e m hq hl htable
  by_cases hp : e.param = 0
  · obtain ⟨t, hexec, ht, hempty⟩ := exec_row_setsContext (x := s.ctx) hq (by decide) hl
      fun ch hch => setSpeedOnce_zero (by rw [State.setCur_cur, hch, hp])
    have hctx : t.ctx = s.ctx := by rw [ht]
    exact ⟨t, hexec, by rw [hctx]; exact ht, fun _ => hctx, fun hne => absurd hp hne, hempty⟩
  · obtain ⟨hentry, hm, hdiv⟩ := htable hp
    have hdivisor := tempoDivisor_of_entry hentry hm
    have hpos : 0 < tempoDivisor s.cfg e.param := by omega
    have htempo := (Context.setTempo_ok (x := s.ctx)).2 ⟨hpos, rfl⟩
    obtain ⟨t, hexec, ht, hempty⟩ := exec_row_setsContext hq (by decide) hl
      fun ch hch => setSpeedOnce_tempo (by rw [State.setCur_cur, hch]; exact hp)
        (by rw [State.setCur_cur, hch]; exact htempo)
    have hctx := congrArg (·.ctx) ht
    refine ⟨t, hexec, by rw [hctx]; exact ht, fun h0 => absurd h0 hp, fun _ => ?_, hempty⟩
    have hframes : (tempoDivisor s.cfg e.param).toNat = 50 - m * (e.param.toNat % 16) / 16 := by omega
    have hsmall : s.ctx.rate.toNat / (50 - m * (e.param.toNat % 16) / 16) < 65536 :=
      Nat.lt_of_le_of_lt (Nat.div_le_self _ _) s.ctx.rate.isLt
    rw [hctx]
    refine ⟨rfl, hiNibble_toNat _, ?_⟩
    dsimp only
    rw [hframes, BitVec.toNat_ofNat, Nat.mod_eq_of_lt hsmall]

/-- `POS_JUMP`'s row action takes the order position from the served channel (R193). -/
theorem posJumpOnce_setCur (s : State) (ch : Channel) :
    posJumpOnce (s.setCur ch) = .next { s.setCur ch with ctx := { s.ctx with orderPos := ch.evParam } } := by
  simp [posJumpOnce]

/-- Settles O45: each of the two row actions sets the context to one with the register written. -/
theorem jumpAndBreakWriteOneRegister : Obligations.JumpAndBreakWriteOneRegister := by
  intro s e hq
  refine ⟨fun hl => exec_row_setsContext hq (by decide) hl fun ch hch => ?_,
    fun hl => exec_row_setsContext hq (by decide) hl fun ch _ => rfl⟩
  rw [← hch]
  exact posJumpOnce_setCur s ch

/-! ### The commands that add nothing -/

/-- Settles O46: the four commands add no row action, and their continuation reset clears tremor and the phase. -/
theorem noneAndReservedOnlyReset : Obligations.NoneAndReservedOnlyReset := by
  intro s e hq hn hs hv eff heff
  have hplain : rowAction eff = noAction ∧ eff ≠ .tremor ∧ eff ≠ .vibrato ∧ eff ≠ .volslideVib := by
    simp only [List.mem_cons, List.not_mem_nil, or_false] at heff
    rcases heff with rfl | rfl | rfl | rfl <;> exact ⟨rfl, by decide⟩
  obtain ⟨hact, htremor, hvib, hslide⟩ := hplain
  rw [exec_row_empty hq eff hn hs hv, hact, Channel.continuationReset_plain htremor hvib hslide, Channel.latch,
    hn, hs, hv]
  rfl

/-! ### Tremor in its own row event -/

/-- A running counter is decremented (R213). -/
theorem Channel.doTremor_running {ch : Channel} (h : ch.tremorCtr ≠ 0) :
    ch.doTremor = { ch with tremorCtr := ch.tremorCtr - 1 } := if_neg h

/-- The audible phase ends (R213). -/
theorem Channel.doTremor_audible {ch : Channel} (h : ch.tremorCtr = 0) (hs : ch.tremorState = true) :
    ch.doTremor = { ch with tremorState := false, volCur := 0, tremorCtr := loNibble ch.evParam } := by
  rw [Channel.doTremor, if_pos h, if_pos hs]

/-- The silent phase ends, or tremor starts from idle (R213). -/
theorem Channel.doTremor_silent {ch : Channel} (h : ch.tremorCtr = 0) (hs : ch.tremorState = false) :
    ch.doTremor = { ch with tremorState := true, volCur := ch.volInit, tremorCtr := hiNibble ch.evParam } := by
  rw [Channel.doTremor, if_pos h, hs]; rfl

/-- The continuation reset of `TREMOR` clears the vibrato phase only (R198). -/
theorem Channel.continuationReset_tremor (ch : Channel) :
    ch.continuationReset .tremor = { ch with vibPhase := 0 } := rfl

/-- `TREMOR`'s action is `do_tremor` on the served channel (R196, R212). -/
theorem tremorAction_setCur (s : State) (ch : Channel) :
    tremorAction (s.setCur ch) = .next (s.setCur ch.doTremor) := by
  simp [tremorAction, channelAction]

theorem pred_toNat_succ {c : BitVec 4} (h : c ≠ 0) : (c - 1).toNat + 1 = c.toNat := by bv_omega

/-- Settles O54: neither the trigger nor the reset touches tremor's state, so the move is that of the state before. -/
theorem tremorRunsOnTheTriggeringTick : Obligations.TremorRunsOnTheTriggeringTick := by
  intro s e hq hl
  obtain ⟨ch, hframe, hexec, hempty⟩ := exec_row_legal (eff := .tremor) hq (by decide) hl
  rw [show rowAction .tremor = tremorAction from rfl, tremorAction_setCur, Channel.continuationReset_tremor] at hexec
  have hctr : ch.tremorCtr = s.cur.tremorCtr := hframe.tremorCtr
  have hstate : ch.tremorState = s.cur.tremorState := hframe.tremorState
  have hparam : ch.evParam = e.param := hframe.evParam
  refine ⟨_, hexec, by rw [State.setCur_cur]; rfl, ?_⟩
  rw [State.setCur_cur, ← hctr, ← hstate, ← hparam]
  refine ⟨by rw [Channel.doTremor_eq], fun h => ?_, fun h hs => ?_, fun h hs => ?_, fun hn hsmp hv => ?_⟩
  · rw [Channel.doTremor_running (ch := { ch with vibPhase := 0 }) h]
    exact ⟨pred_toNat_succ h, rfl⟩
  · rw [Channel.doTremor_audible (ch := { ch with vibPhase := 0 }) h hs]
    exact ⟨loNibble_toNat _, rfl, rfl⟩
  · rw [Channel.doTremor_silent (ch := { ch with vibPhase := 0 }) h hs]
    exact ⟨hiNibble_toNat _, rfl, rfl⟩
  · rw [hempty hn hsmp hv]
    refine ⟨Channel.doTremor_eq _, fun h => ?_⟩
    rw [Channel.doTremor_running (ch := { s.cur.latch (s.cfg.coding.codeOf .tremor) e with vibPhase := 0 }) h]
    rfl

/-! ### What no event writes in a row event -/

/-- Of the memories, the mix volume and the vibrato phase, what follows the trigger writes the phase only (R198). -/
theorem Channel.afterRow_memories (eff : Effect) (ch : Channel) :
    (ch.afterRow eff).tportaMem = ch.tportaMem ∧ (ch.afterRow eff).vibMem = ch.vibMem ∧
      (ch.afterRow eff).volMix = ch.volMix ∧
      (ch.afterRow eff).vibPhase = if eff = .vibrato ∨ eff = .volslideVib then ch.vibPhase else 0 := by
  unfold Channel.afterRow
  split
  · rw [Channel.doTremor_eq]; exact ⟨rfl, rfl, rfl, rfl⟩
  · exact ⟨rfl, rfl, rfl, rfl⟩

/-- Settles O47: the frame of the trigger, then that of the continuation reset and of tremor. -/
theorem rowEventsKeepEffectMemory : Obligations.RowEventsKeepEffectMemory := by
  intro s t eff e hq h
  obtain ⟨ch, hch, ht, hctx⟩ := exec_event_next (by rw [hq]; decide) h
  have hframe := Channel.trigger_frame hch
  have hread (d : Fin 4) : t.channel d = if d = s.chan then ch.afterRow eff else s.channel d := by
    rw [ht]; exact State.setCur_channel s d _
  have hchan : t.chan = s.chan := by rw [ht]
  have hcur : t.cur = ch.afterRow eff := by rw [State.cur, hchan, hread, if_pos rfl]
  obtain ⟨hporta, hvib, hmix, hphase⟩ := ch.afterRow_memories eff
  obtain ⟨hrow, hactive, _⟩ := ch.afterRow_frame eff
  rw [hcur]
  exact ⟨hporta.trans hframe.tportaMem, hvib.trans hframe.vibMem, hmix.trans hframe.volMix,
    hrow.trans hframe.rowCtr, hactive.trans hframe.active, fun d hd => by rw [hread, if_neg hd], hchan,
    by rw [ht], hctx.gvol, hctx.rate, hctx.tickCtr, hctx.frameCtr, hctx.pattern,
    (ch.afterRow_idle eff).tremor, by rw [hphase, hframe.vibPhase]; rfl⟩

/-! ### What no event writes on a tick -/

/-- What a per-tick event leaves of a channel (R210, R225, R226). -/
structure Channel.TickFrame (cfg : Cfg) (rate : BitVec 16) (ch ch' : Channel) : Prop where
  step : ch.step = frequencyStep cfg rate ch.periodCur → ch'.step = frequencyStep cfg rate ch'.periodCur
  periodTgt : ch'.periodTgt = ch.periodTgt
  pos : ch'.pos = ch.pos
  volInit : ch'.volInit = ch.volInit
  volMix : ch'.volMix = ch.volMix
  waveSlot : ch'.waveSlot = ch.waveSlot
  c2spd : ch'.c2spd = ch.c2spd
  loopStart : ch'.loopStart = ch.loopStart
  loopEnd : ch'.loopEnd = ch.loopEnd
  loopEn : ch'.loopEn = ch.loopEn
  lastNote : ch'.lastNote = ch.lastNote
  rowCtr : ch'.rowCtr = ch.rowCtr
  args : ch'.latchedArgs = ch.latchedArgs
  evCmd : ch'.evCmd = ch.evCmd

section TickFrame

variable {cfg : Cfg} {rate : BitVec 16}

/-- The continuation reset writes none of the frame's registers (R198). -/
theorem Channel.continuationReset_tickFrame (eff : Effect) (ch : Channel) :
    ch.TickFrame cfg rate (ch.continuationReset eff) :=
  ⟨id, rfl, rfl, rfl, rfl, rfl, rfl, rfl, rfl, rfl, rfl, rfl, rfl, rfl⟩

theorem Channel.TickFrame.volumeSlide {a b : Channel} (h : a.TickFrame cfg rate b) (p : BitVec 8) :
    a.TickFrame cfg rate (b.volumeSlide p) := { h with }

theorem Channel.TickFrame.slideDown {a b : Channel} (h : a.TickFrame cfg rate b) (p : BitVec 8) :
    a.TickFrame cfg rate (b.slideDown cfg rate p) := { h with step := fun _ => rfl }

theorem Channel.TickFrame.slideUp {a b : Channel} (h : a.TickFrame cfg rate b) (p : BitVec 8) :
    a.TickFrame cfg rate (b.slideUp cfg rate p) := { h with step := fun _ => rfl }

theorem Channel.TickFrame.tonePortamento {a b : Channel} (h : a.TickFrame cfg rate b) (p : BitVec 8) :
    a.TickFrame cfg rate (b.tonePortamento cfg rate p) := { h with step := fun _ => rfl }

theorem Channel.TickFrame.doVibrato {a b : Channel} (h : a.TickFrame cfg rate b) (p : BitVec 8) :
    a.TickFrame cfg rate (b.doVibrato cfg rate p) := { h with step := fun _ => rfl }

theorem Channel.TickFrame.doTremor {a b : Channel} (h : a.TickFrame cfg rate b) :
    a.TickFrame cfg rate b.doTremor := by
  rw [Channel.doTremor_eq]; exact { h with }

theorem Channel.TickFrame.arpeggio {a b c : Channel} (h : a.TickFrame cfg rate b) {tickCtr p : BitVec 8}
    (hx : b.arpeggio cfg rate tickCtr p = .ok c) : a.TickFrame cfg rate c := by
  obtain ⟨_, n, q, _, _, rfl⟩ := Channel.arpeggio_ok.1 hx
  exact { h with step := fun _ => rfl }

end TickFrame

/-- A per-tick action keeps the frame, and what the continuation reset left idle under its command (R198, R210). -/
theorem tickAction_frame {eff : Effect} {s t : State} {a : Channel} (h : tickAction eff s = .next t)
    (hf : a.TickFrame s.cfg s.ctx.rate s.cur) (hi : s.cur.IdleUnder eff) :
    ∃ ch, t = s.setCur ch ∧ a.TickFrame s.cfg s.ctx.rate ch ∧ ch.IdleUnder eff := by
  obtain ⟨ch, rfl, hch⟩ := tickAction_next h
  refine ⟨ch, rfl, ?_⟩
  rcases hch with ⟨rfl, rfl⟩ | ⟨rfl, rfl⟩ | ⟨rfl, rfl⟩ | ⟨rfl, rfl⟩ | ⟨rfl, rfl⟩ | ⟨rfl, rfl⟩ | ⟨rfl, hx⟩ |
    ⟨rfl, rfl⟩ | ⟨rfl, rfl⟩ | ⟨_, _, _, rfl⟩
  · exact ⟨hf.volumeSlide _, hi.tremor, hi.vibrato⟩
  · exact ⟨hf.slideDown _, hi.tremor, hi.vibrato⟩
  · exact ⟨hf.slideUp _, hi.tremor, hi.vibrato⟩
  · exact ⟨hf.tonePortamento _, hi.tremor, hi.vibrato⟩
  · exact ⟨hf.doVibrato _, hi.tremor, fun hne => absurd rfl hne⟩
  · exact ⟨hf.doTremor, hi.doTremor⟩
  · have harp := hf.arpeggio hx
    obtain ⟨_, n, q, _, _, rfl⟩ := Channel.arpeggio_ok.1 hx
    exact ⟨harp, hi.tremor, hi.vibrato⟩
  · exact ⟨(hf.volumeSlide _).doVibrato _, hi.tremor, fun _ hne => absurd rfl hne⟩
  · exact ⟨(hf.volumeSlide _).tonePortamento _, hi.tremor, hi.vibrato⟩
  · exact ⟨hf, hi⟩

/-- Settles O59: the continuation reset and then the per-tick action keep the frame of the served channel, and nothing
else of the state is written. -/
theorem tickEventsFrame : Obligations.TickEventsFrame := by
  intro s t eff e hq h
  rw [exec_tick hq] at h
  obtain ⟨ch, ht, hframe, hidle⟩ := tickAction_frame (a := s.cur) h
    (by rw [State.setCur_cur]; exact Channel.continuationReset_tickFrame eff s.cur)
    (by rw [State.setCur_cur]; exact Channel.continuationReset_idle eff s.cur)
  rw [State.setCur_setCur] at ht
  subst ht
  rw [State.setCur_cur]
  refine ⟨rfl, fun d hd => by rw [State.setCur_channel, if_neg hd], ?_⟩
  exact ⟨hframe.step, hframe.periodTgt, hframe.pos, hframe.volInit, hframe.volMix, hframe.waveSlot, hframe.c2spd,
    hframe.loopStart, hframe.loopEnd, hframe.loopEn, hframe.lastNote, hframe.rowCtr, hframe.args, hframe.evCmd,
    hidle.tremor, hidle.vibrato⟩

end Sys2Proof.Machine

/-! PROOFS. The effects on a per-tick event: what each command's action makes of the channel the continuation reset
leaves. -/

namespace Sys2Proof.Machine

/-! ### The command's action on the reset channel -/

theorem volSlideTick_setCur (s : State) (ch : Channel) :
    volSlideTick (s.setCur ch) = .next (s.setCur (ch.volumeSlide ch.evParam)) := by
  simp [volSlideTick, channelAction]

theorem portaUpTick_setCur (s : State) (ch : Channel) :
    portaUpTick (s.setCur ch) = .next (s.setCur (ch.slideUp s.cfg s.ctx.rate ch.evParam)) := by
  simp [portaUpTick, channelAction]

theorem portaDownTick_setCur (s : State) (ch : Channel) :
    portaDownTick (s.setCur ch) = .next (s.setCur (ch.slideDown s.cfg s.ctx.rate ch.evParam)) := by
  simp [portaDownTick, channelAction]

theorem tonePortaTick_setCur (s : State) (ch : Channel) :
    tonePortaTick (s.setCur ch) = .next (s.setCur (ch.tonePortamento s.cfg s.ctx.rate ch.evParam)) := by
  simp [tonePortaTick, channelAction]

theorem volslideTportaTick_setCur (s : State) (ch : Channel) :
    volslideTportaTick (s.setCur ch) =
      .next (s.setCur ((ch.volumeSlide ch.evParam).tonePortamento s.cfg s.ctx.rate 0)) := by
  simp [volslideTportaTick, channelAction]

theorem volslideVibTick_setCur (s : State) (ch : Channel) :
    volslideVibTick (s.setCur ch) =
      .next (s.setCur ((ch.volumeSlide ch.evParam).doVibrato s.cfg s.ctx.rate 0)) := by
  simp [volslideVibTick, channelAction]

theorem arpeggioTick_setCur (s : State) (ch : Channel) :
    arpeggioTick (s.setCur ch) =
      withValue (ch.arpeggio s.cfg s.ctx.rate s.ctx.tickCtr ch.evParam) fun ch' => .next (s.setCur ch') := by
  simp [arpeggioTick]

/-! ### The commands without a per-tick action -/

/-- Settles O58: the seven commands add no per-tick action, and their continuation reset clears tremor and the phase. -/
theorem rowCommandsDoNothingOnTicks : Obligations.RowCommandsDoNothingOnTicks := by
  intro s e hq eff heff
  have hplain : tickAction eff = noAction ∧ eff ≠ .tremor ∧ eff ≠ .vibrato ∧ eff ≠ .volslideVib := by
    simp only [List.mem_cons, List.not_mem_nil, or_false] at heff
    rcases heff with rfl | rfl | rfl | rfl | rfl | rfl | rfl <;> exact ⟨rfl, by decide⟩
  obtain ⟨hact, htremor, hvib, hslide⟩ := hplain
  rw [exec_tick hq, hact, Channel.continuationReset_plain htremor hvib hslide, noAction]

/-! ### Volume slide and portamento -/

/-- The volume slide keeps a volume of at most 64 (R221). -/
theorem Channel.volumeSlide_le {ch : Channel} (p : BitVec 8) (h : ch.volCur.toNat ≤ 64) :
    (ch.volumeSlide p).volCur.toNat ≤ 64 := by
  rw [Channel.volumeSlide_volCur]
  split <;> omega

/-- Settles O49: the volume is that of `do_volume_slide`. -/
theorem volSlideSlidesTheVolume : Obligations.VolSlideSlidesTheVolume := by
  intro s e hq
  exact ⟨(s.cur.volumeSlide s.cur.evParam).volCur, (exec_tick hq .volSlide e).trans (volSlideTick_setCur s _),
    s.cur.volumeSlide_volCur s.cur.evParam, Channel.volumeSlide_le s.cur.evParam⟩

/-- Settles O50: the periods are those of the two slides. -/
theorem portamentoWrapsThePeriod : Obligations.PortamentoWrapsThePeriod := by
  intro s e hq
  exact ⟨⟨_, (exec_tick hq .portaUp e).trans (portaUpTick_setCur s _),
      Channel.slideUp_period s.cfg s.ctx.rate s.cur.evParam s.cur⟩,
    ⟨_, (exec_tick hq .portaDown e).trans (portaDownTick_setCur s _),
      Channel.slideDown_period s.cfg s.ctx.rate s.cur.evParam s.cur⟩⟩

/-! ### Tone portamento -/

/-- Below the target the period rises, clamped at the target (R215). -/
theorem Channel.tonePortamento_rises {ch : Channel} (h : ch.periodCur.toNat < ch.periodTgt.toNat) (cfg : Cfg)
    (rate : BitVec 16) (p : BitVec 8) :
    (ch.tonePortamento cfg rate p).periodCur.toNat =
      min (ch.periodCur.toNat + cfg.tportaMult * (remembered ch.tportaMem p).toNat) ch.periodTgt.toNat := by
  rw [Channel.tonePortamento_period, slideToward_up h]

/-- At or above the target it falls, clamped at the target, as the signed difference does (R215). -/
theorem Channel.tonePortamento_falls {ch : Channel} (h : ch.periodTgt.toNat ≤ ch.periodCur.toNat) (cfg : Cfg)
    (rate : BitVec 16) (p : BitVec 8) :
    ((ch.tonePortamento cfg rate p).periodCur.toNat : Int) =
      max ((ch.periodCur.toNat : Int) - (cfg.tportaMult * (remembered ch.tportaMem p).toNat : Nat))
        ch.periodTgt.toNat := by
  rw [Channel.tonePortamento_period, slideToward_down h]
  omega

/-- At the target it stays (R215). -/
theorem Channel.tonePortamento_stays {ch : Channel} (h : ch.periodCur = ch.periodTgt) (cfg : Cfg)
    (rate : BitVec 16) (p : BitVec 8) : (ch.tonePortamento cfg rate p).periodCur = ch.periodCur := by
  apply BitVec.eq_of_toNat_eq
  rw [Channel.tonePortamento_period, slideToward_down (by rw [h]), ← h]
  omega

/-- Settles O51: below, above and at the target the period is that of `do_tone_portamento`. -/
theorem tonePortaSlidesToTheTarget : Obligations.TonePortaSlidesToTheTarget := by
  intro s e hq
  refine ⟨remembered s.cur.tportaMem s.cur.evParam,
    (s.cur.tonePortamento s.cfg s.ctx.rate s.cur.evParam).periodCur,
    (exec_tick hq .tonePorta e).trans (tonePortaTick_setCur s _), ?_, fun h => ?_, fun h => ?_, fun h => ?_⟩
  · simp only [remembered, ne_eq, ite_not]
  · exact Channel.tonePortamento_rises h _ _ _
  · exact Channel.tonePortamento_falls (Nat.le_of_lt h) _ _ _
  · exact Channel.tonePortamento_stays h _ _ _

/-! ### Tremor -/

/-- `TREMOR` on a tick is `do_tremor` after the continuation reset, which clears the vibrato phase only (R198, R212). -/
theorem exec_tick_tremor {s : State} (hq : s.seq = .tick) (e : EventArgs) :
    exec (.tremor e) s = .next (s.setCur (Channel.doTremor { s.cur with vibPhase := 0 })) :=
  (exec_tick hq .tremor e).trans (tremorAction_setCur s _)

/-- Settles O53: one count for the three moves, that which `do_tremor` leaves. -/
theorem tremorTogglesOnItsCounter : Obligations.TremorTogglesOnItsCounter := by
  intro s e hq
  rw [exec_tick_tremor hq]
  refine ⟨(Channel.doTremor { s.cur with vibPhase := 0 }).tremorCtr, fun h => ?_, fun h hs => ?_, fun h hs => ?_⟩
  · rw [Channel.doTremor_running (ch := { s.cur with vibPhase := 0 }) h]
    exact ⟨rfl, pred_toNat_succ h⟩
  · rw [Channel.doTremor_audible (ch := { s.cur with vibPhase := 0 }) h hs]
    exact ⟨rfl, loNibble_toNat _⟩
  · rw [Channel.doTremor_silent (ch := { s.cur with vibPhase := 0 }) h hs]
    exact ⟨rfl, hiNibble_toNat _⟩

/-! ### Arpeggio -/

/-- The offset in the nibbles as numbers (R211). -/
theorem arpeggioOffset_eq (tickCtr p : BitVec 8) :
    arpeggioOffset tickCtr p =
      if tickCtr.toNat % 3 = 2 then 0 else if tickCtr.toNat % 3 = 1 then p.toNat / 16 else p.toNat % 16 := by
  rw [arpeggioOffset, hiNibble_toNat, loNibble_toNat]

/-- Below 24 the semitone sum resolves, with its quotient by 12, at most one, carried into the octave (R211). -/
theorem arpeggioNote_resolved {base : BitVec 8} {k : Nat} (h : base.toNat % 16 + k < 24) :
    arpeggioNote base k = .ok (16 * (base.toNat / 16 + (base.toNat % 16 + k) / 12) + (base.toNat % 16 + k) % 12) := by
  by_cases hcarry : base.toNat % 16 + k < 12
  · rw [Nat.div_eq_of_lt hcarry, Nat.mod_eq_of_lt hcarry]
    exact if_pos hcarry
  · have hquot : (base.toNat % 16 + k) / 12 = 1 := by omega
    have hrem : (base.toNat % 16 + k) % 12 = base.toNat % 16 + k - 12 := by omega
    rw [hquot, hrem]
    exact (if_neg hcarry).trans (if_pos h)

/-- From 24 on it is refused (R211, R314). -/
theorem arpeggioNote_outOfRange {base : BitVec 8} {k : Nat} (h : 24 ≤ base.toNat % 16 + k) :
    arpeggioNote base k = .error .arpeggioRange :=
  (if_neg (by omega)).trans (if_neg (by omega))

/-- An arpeggio before any note is refused (R211, R336 f). -/
theorem Channel.arpeggio_neverPlayed {ch : Channel} (h : ch.notePlayed = false) (cfg : Cfg)
    (rate : BitVec 16) (tickCtr p : BitVec 8) : ch.arpeggio cfg rate tickCtr p = .error .noLastNote := by
  rw [Channel.arpeggio, h]; rfl

/-- One whose note does not resolve is refused for that reason (R211). -/
theorem Channel.arpeggio_unresolved {ch : Channel} {tickCtr p : BitVec 8} {r : Refusal}
    (hplayed : ch.notePlayed = true) (h : arpeggioNote ch.lastNote (arpeggioOffset tickCtr p) = .error r)
    (cfg : Cfg) (rate : BitVec 16) : ch.arpeggio cfg rate tickCtr p = .error r := by
  rw [Channel.arpeggio, if_pos hplayed, h]

/-- One whose note resolves, but has no period on the channel, is refused for that reason (R144, R211). -/
theorem Channel.arpeggio_unpitched {cfg : Cfg} {ch : Channel} {tickCtr p : BitVec 8} {note : Nat} {r : Refusal}
    (hplayed : ch.notePlayed = true) (hnote : arpeggioNote ch.lastNote (arpeggioOffset tickCtr p) = .ok note)
    (h : ch.notePeriod cfg note = .error r) (rate : BitVec 16) : ch.arpeggio cfg rate tickCtr p = .error r := by
  rw [Channel.arpeggio, if_pos hplayed, hnote]
  simp only [h]

/-- `ARPEGGIO` on a tick is `do_arpeggio` with the latched parameter, after the continuation reset (R210, R211). -/
theorem exec_tick_arpeggio {s : State} (hq : s.seq = .tick) (e : EventArgs) :
    exec (.arpeggio e) s =
      withValue ((s.cur.continuationReset .arpeggio).arpeggio s.cfg s.ctx.rate s.ctx.tickCtr s.cur.evParam)
        fun ch => .next (s.setCur ch) :=
  (exec_tick hq .arpeggio e).trans (arpeggioTick_setCur s _)

/-- It is refused as `do_arpeggio` is. -/
theorem exec_tick_arpeggio_refused {s : State} {r : Refusal} (hq : s.seq = .tick) (e : EventArgs)
    (h : (s.cur.continuationReset .arpeggio).arpeggio s.cfg s.ctx.rate s.ctx.tickCtr s.cur.evParam = .error r) :
    exec (.arpeggio e) s = .refused r := by
  rw [exec_tick_arpeggio hq, h, withValue_error]

/-- Settles O55: the octave and semitone given are the quotient and remainder by which the note resolves. -/
theorem arpeggioResolvesTheNote : Obligations.ArpeggioResolvesTheNote := by
  intro s e k o n p hq hk hn hplain hcarry hplayed hbound hperiod
  rw [← arpeggioOffset_eq] at hk
  have hsum : s.cur.lastNote.toNat % 16 + k < 24 := by omega
  have hoctave : o = s.cur.lastNote.toNat / 16 + (s.cur.lastNote.toNat % 16 + k) / 12 := by omega
  have hsemitone : n = (s.cur.lastNote.toNat % 16 + k) % 12 := by omega
  have hnote := arpeggioNote_resolved hsum
  rw [← hoctave, ← hsemitone, hk] at hnote
  rw [exec_tick_arpeggio hq,
    (Channel.arpeggio_ok (ch := s.cur.continuationReset .arpeggio)).2
      ⟨hplayed, _, p, hnote, Channel.notePeriod_ok.2 ⟨hbound, hperiod⟩, rfl⟩,
    withValue_ok]

/-- Settles O56: no note played, a sum that does not resolve, and a resolved note without a period on the channel. -/
theorem arpeggioRefusals : Obligations.ArpeggioRefusals := by
  intro s e hq
  refine ⟨fun h => exec_tick_arpeggio_refused hq e
    (Channel.arpeggio_neverPlayed (ch := s.cur.continuationReset .arpeggio) h _ _ _ _), fun k o hplayed hk ho => ?_⟩
  rw [← arpeggioOffset_eq] at hk
  have unpitched {r : Refusal} (hsum : s.cur.lastNote.toNat % 16 + k < 24)
      (h : (s.cur.continuationReset .arpeggio).notePeriod s.cfg
        (16 * o + (s.cur.lastNote.toNat % 16 + k) % 12) = .error r) :
      exec (.arpeggio e) s = .refused r := by
    have hnote := arpeggioNote_resolved hsum
    rw [← ho, hk] at hnote
    rw [hk] at h
    exact exec_tick_arpeggio_refused hq e
      (Channel.arpeggio_unpitched (ch := s.cur.continuationReset .arpeggio) hplayed hnote h _)
  have hoctave : (16 * o + (s.cur.lastNote.toNat % 16 + k) % 12) / 16 = o := by omega
  have hsemitone : (16 * o + (s.cur.lastNote.toNat % 16 + k) % 12) % 16 = (s.cur.lastNote.toNat % 16 + k) % 12 := by
    omega
  refine ⟨fun hsum => ?_, fun hsum hoct => ?_, fun hsum hoct hnone => ?_⟩
  · rw [hk] at hsum
    exact exec_tick_arpeggio_refused hq e
      (Channel.arpeggio_unresolved (ch := s.cur.continuationReset .arpeggio) hplayed
        (arpeggioNote_outOfRange hsum) _ _)
  · exact unpitched hsum (Channel.notePeriod_invalid (.inr (by rwa [hoctave])) _)
  · refine unpitched hsum (Channel.notePeriod_undefined (by omega) (by rwa [hoctave]) ?_)
    rw [hoctave, hsemitone]
    exact hnone

/-! ### The combined commands -/

/-- `VOLSLIDE_TPORTA` on a tick: the slide by the event's parameter, and the period of tone portamento from its own
memory, which the slide does not enter (R222). -/
theorem exec_tick_volslideTporta {s : State} (hq : s.seq = .tick) (e : EventArgs) :
    exec (.volslideTporta e) s =
      .next (s.setCur
        { s.cur.continuationReset .volslideTporta with
          volCur := (s.cur.volumeSlide s.cur.evParam).volCur
          periodCur := (s.cur.tonePortamento s.cfg s.ctx.rate 0).periodCur
          step := frequencyStep s.cfg s.ctx.rate (s.cur.tonePortamento s.cfg s.ctx.rate 0).periodCur }) :=
  (exec_tick hq .volslideTporta e).trans (volslideTportaTick_setCur s _)

/-- `VOLSLIDE_VIB` on a tick: the slide by the event's parameter, and the phase and period of vibrato from its own
memory, which the slide does not enter (R223). -/
theorem exec_tick_volslideVib {s : State} (hq : s.seq = .tick) (e : EventArgs) :
    exec (.volslideVib e) s =
      .next (s.setCur
        { s.cur.continuationReset .volslideVib with
          volCur := (s.cur.volumeSlide s.cur.evParam).volCur
          vibPhase := (s.cur.doVibrato s.cfg s.ctx.rate 0).vibPhase
          periodCur := (s.cur.doVibrato s.cfg s.ctx.rate 0).periodCur
          step := frequencyStep s.cfg s.ctx.rate (s.cur.doVibrato s.cfg s.ctx.rate 0).periodCur }) :=
  (exec_tick hq .volslideVib e).trans (volslideVibTick_setCur s _)

/-- Settles O57: parameter 0 gives tone portamento and vibrato their own memories. -/
theorem combinedSlidesKeepTheirMemory : Obligations.CombinedSlidesKeepTheirMemory := by
  intro s e hq
  have hscale := vibScales_vibOffset s.cfg (lfoAt s.cfg s.cur.vibPhase) (loNibble s.cur.vibMem)
  rw [loNibble_toNat] at hscale
  exact ⟨_, s.cur.volumeSlide_volCur s.cur.evParam,
    ⟨_, exec_tick_volslideTporta hq e, fun h => Channel.tonePortamento_rises h s.cfg s.ctx.rate 0,
      fun h => Channel.tonePortamento_falls h s.cfg s.ctx.rate 0⟩,
    _, _, _, _, exec_tick_volslideVib hq e, lfo_getElem?_eq s.cfg s.cur.vibPhase, hscale,
    s.cur.doVibrato_period s.cfg s.ctx.rate 0, s.cur.doVibrato_phase s.cfg s.ctx.rate 0⟩

end Sys2Proof.Machine

/-! PROOFS. Triggering: what the volume, the sample field and the note byte of an event leave on its channel, with tone
portamento and without, and the events of a row event that rest on it. -/

namespace Sys2Proof.Machine

/-! ### The explicit volume -/

/-- The channel with both volumes set to the explicit volume of its event, if that has one (R241). -/
def Channel.withEventVolume (ch : Channel) : Channel :=
  { ch with
    volCur := if ch.evVol = 65 then ch.volCur else ch.evVol
    volInit := if ch.evVol = 65 then ch.volInit else ch.evVol }

/-- Of what a trigger leaves alone it writes nothing. -/
theorem Channel.withEventVolume_frame (ch : Channel) : ch.TriggerFrame ch.withEventVolume := by
  constructor <;> rfl

theorem Channel.explicitVolume_iff {ch ch' : Channel} :
    ch.explicitVolume = .ok ch' ↔ ch.evVol.toNat ≤ 65 ∧ ch' = ch.withEventVolume := by
  rw [Channel.explicitVolume_ok, Channel.withEventVolume]
  split <;> rfl

/-! ### The sample field -/

/-- A legal base volume is bound (R244). -/
theorem Channel.rebind_runs {d : SampleDesc} (h : d.volume.toNat ≤ 64) (slot : BitVec 5) (ch : Channel) :
    ∃ ch', ch.rebind slot d = .ok ch' :=
  ⟨_, Channel.rebind_ok.2 ⟨h, rfl⟩⟩

/-- A binding binds (R244). -/
theorem Channel.rebind_boundTo {slot : BitVec 5} {d : SampleDesc} {ch ch' : Channel}
    (h : ch.rebind slot d = .ok ch') : ch'.BoundTo slot d := by
  obtain ⟨_, rfl⟩ := Channel.rebind_ok.1 h
  exact ⟨rfl, rfl, rfl, fun hno => ⟨if_pos hno, if_pos hno, decide_eq_false (not_not.2 hno)⟩,
    fun hloop => ⟨if_neg hloop, if_neg hloop, decide_eq_true hloop⟩⟩

/-- A binding writes neither the pitch nor the position, and of the event nothing (R244). -/
theorem Channel.rebind_pitch {slot : BitVec 5} {d : SampleDesc} {ch ch' : Channel}
    (h : ch.rebind slot d = .ok ch') :
    ch' = { ch' with
      evNote := ch.evNote, pos := ch.pos, step := ch.step, periodCur := ch.periodCur, periodTgt := ch.periodTgt
      lastNote := ch.lastNote, notePlayed := ch.notePlayed } := by
  obtain ⟨_, rfl⟩ := Channel.rebind_ok.1 h
  rfl

/-- After the explicit volume a binding leaves both volumes at the base volume, or at the explicit one (R241, R244). -/
theorem Channel.rebind_volumes {slot : BitVec 5} {d : SampleDesc} {ch ch' : Channel}
    (h : ch.withEventVolume.rebind slot d = .ok ch') :
    ch'.volCur = (if ch.evVol = 65 then d.volume else ch.evVol) ∧
      ch'.volInit = if ch.evVol = 65 then d.volume else ch.evVol := by
  obtain ⟨_, rfl⟩ := Channel.rebind_ok.1 h
  have hover (old : BitVec 7) : (if ch.evVol = 65 then d.volume else if ch.evVol = 65 then old else ch.evVol) =
      if ch.evVol = 65 then d.volume else ch.evVol := by split_ifs <;> rfl
  exact ⟨hover _, hover _⟩

/-- What the volume and the sample field of the event latched on `old` leave outside tone portamento: the volumes, the
binding, the forced cut, and the pitch as it was (R241, R244, R245), within the trigger's frame. -/
structure Channel.Sampled (g : Song) (old new : Channel) : Prop where
  frame : old.TriggerFrame new
  evNote : new.evNote = if old.evSmp ≠ 0 ∧ (g.desc old.evSmp).length = 0 then 254 else old.evNote
  volCur : new.volCur = volumeOver old.latchedArgs (g.desc old.evSmp) old.volCur
  volInit : new.volInit = volumeOver old.latchedArgs (g.desc old.evSmp) old.volInit
  unbound : old.evSmp = 0 →
    new.waveSlot = old.waveSlot ∧ new.c2spd = old.c2spd ∧ new.sampleBound = old.sampleBound ∧
    new.loopStart = old.loopStart ∧ new.loopEnd = old.loopEnd ∧ new.loopEn = old.loopEn
  bound : old.evSmp ≠ 0 → new.BoundTo old.evSmp (g.desc old.evSmp)
  pos : new.pos = old.pos
  step : new.step = old.step
  periodCur : new.periodCur = old.periodCur
  periodTgt : new.periodTgt = old.periodTgt
  lastNote : new.lastNote = old.lastNote
  notePlayed : new.notePlayed = old.notePlayed

/-- The volume an event gives, in the channel's registers, without a sample and with one (R241, R244). -/
theorem volumeOver_unbound {ch : Channel} (h : ch.evSmp = 0) (d : SampleDesc) (old : BitVec 7) :
    volumeOver ch.latchedArgs d old = if ch.evVol = 65 then old else ch.evVol := by
  show (if ch.evVol ≠ 65 then ch.evVol else if ch.evSmp ≠ 0 then d.volume else old) = _
  rw [if_neg (not_not.2 h), ite_not]

theorem volumeOver_bound {ch : Channel} (h : ch.evSmp ≠ 0) (d : SampleDesc) (old : BitVec 7) :
    volumeOver ch.latchedArgs d old = if ch.evVol = 65 then d.volume else ch.evVol := by
  show (if ch.evVol ≠ 65 then ch.evVol else if ch.evSmp ≠ 0 then d.volume else old) = _
  rw [if_pos h, ite_not]

theorem Channel.sampleStep_sampled {g : Song} {ch c : Channel} (h : ch.withEventVolume.sampleStep g = .ok c) :
    ch.Sampled g c := by
  have hframe := ch.withEventVolume_frame.comp (Channel.sampleStep_frame h)
  rcases Channel.sampleStep_cases h with ⟨hz, rfl⟩ | ⟨hs, b, hb, rfl⟩
  · have hz : ch.evSmp = 0 := hz
    exact
      { frame := hframe
        evNote := (if_neg fun hs => hs.1 hz).symm
        volCur := (volumeOver_unbound hz _ _).symm
        volInit := (volumeOver_unbound hz _ _).symm
        unbound := fun _ => ⟨rfl, rfl, rfl, rfl, rfl, rfl⟩
        bound := fun hs => absurd hz hs
        pos := rfl, step := rfl, periodCur := rfl, periodTgt := rfl, lastNote := rfl, notePlayed := rfl }
  · have hs : ch.evSmp ≠ 0 := hs
    have hcut (b : Channel) : (if (g.desc ch.evSmp).length = 0 then { b with evNote := 254 } else b) =
        { b with evNote := if (g.desc ch.evSmp).length = 0 then 254 else b.evNote } := by split <;> rfl
    obtain ⟨hcur, hinit⟩ := Channel.rebind_volumes hb
    have hbound := Channel.rebind_boundTo hb
    have hpitch := Channel.rebind_pitch hb
    rw [show ch.withEventVolume.evSmp = ch.evSmp from rfl, hcut] at hframe ⊢
    exact
      { frame := hframe
        evNote := if_congr (and_iff_right hs).symm rfl (by rw [hpitch]; rfl)
        volCur := hcur.trans (volumeOver_bound hs _ _).symm
        volInit := hinit.trans (volumeOver_bound hs _ _).symm
        unbound := fun hz => absurd hz hs
        bound := fun _ => hbound
        pos := by rw [hpitch]; rfl
        step := by rw [hpitch]; rfl
        periodCur := by rw [hpitch]; rfl
        periodTgt := by rw [hpitch]; rfl
        lastNote := by rw [hpitch]; rfl
        notePlayed := by rw [hpitch]; rfl }

/-- Where the fields are legal the trigger outside tone portamento comes to the note byte of the sampled channel (R240). -/
theorem Channel.trigger_sampled {g : Song} {ch : Channel} (hvol : ch.evVol.toNat ≤ 65)
    (hsmp : ch.evSmp ≠ 0 → (g.desc ch.evSmp).volume.toNat ≤ 64) :
    ∃ c, ch.Sampled g c ∧ ∀ cfg rate, ch.trigger cfg g rate false = c.noteStep cfg rate false := by
  have hv := Channel.explicitVolume_iff.2 ⟨hvol, rfl⟩
  have hruns : ∃ c, ch.withEventVolume.sampleStep g = .ok c := by
    rw [Channel.sampleStep, show ch.withEventVolume.evSmp = ch.evSmp from rfl]
    split
    · exact ⟨_, rfl⟩
    · rename_i hs
      obtain ⟨b, hb⟩ := Channel.rebind_runs (hsmp hs) ch.evSmp ch.withEventVolume
      rw [hb]
      exact ⟨_, rfl⟩
  obtain ⟨c, hc⟩ := hruns
  exact ⟨c, Channel.sampleStep_sampled hc, fun cfg rate => by rw [Channel.trigger_eq_sample hv, hc]; rfl⟩

/-- A trigger outside tone portamento that succeeds went through the sampled channel (R240). -/
theorem Channel.trigger_sampled_of_ok {cfg : Cfg} {g : Song} {rate : BitVec 16} {ch ch' : Channel}
    (h : ch.trigger cfg g rate false = .ok ch') :
    ∃ c, ch.Sampled g c ∧ c.noteStep cfg rate false = .ok ch' := by
  obtain ⟨c₁, c, h₁, ⟨hp, _⟩ | ⟨_, h₂, h₃⟩⟩ := Channel.trigger_cases h
  · cases hp
  · obtain ⟨_, rfl⟩ := Channel.explicitVolume_iff.1 h₁
    exact ⟨c, Channel.sampleStep_sampled h₂, h₃⟩

/-! ### The note byte -/

/-- A note step leaves the latched note and the volumes (R243, R246, R247). -/
theorem Channel.noteStep_volumes {cfg : Cfg} {rate : BitVec 16} {porta : Bool} {ch ch' : Channel}
    (h : ch.noteStep cfg rate porta = .ok ch') :
    ch'.evNote = ch.evNote ∧ ch'.volCur = ch.volCur ∧ ch'.volInit = ch.volInit := by
  rcases Channel.noteStep_cases h with ⟨b, _, _, h⟩ | ⟨b, _, _, h⟩ | ⟨_, _, rfl⟩ | ⟨_, rfl⟩
  · obtain ⟨p, _, rfl⟩ := Channel.aimNote_ok.1 h; exact ⟨rfl, rfl, rfl⟩
  · obtain ⟨p, _, rfl⟩ := Channel.playNote_ok.1 h; exact ⟨rfl, rfl, rfl⟩
  · exact ⟨rfl, rfl, rfl⟩
  · exact ⟨rfl, rfl, rfl⟩

/-- A concrete note outside tone portamento, with its period (R247). -/
theorem Channel.noteStep_plays {cfg : Cfg} {ch : Channel} {p : BitVec 16} (hn : ch.evNote.toNat < 254)
    (hp : ch.notePeriod cfg ch.evNote.toNat = .ok p) (rate : BitVec 16) :
    ch.noteStep cfg rate false =
      .ok { ch with
        lastNote := ch.evNote, notePlayed := true, periodTgt := p, pos := 0, periodCur := p
        step := frequencyStep cfg rate p } :=
  (Channel.noteStep_concrete hn cfg rate false).trans (Channel.playNote_ok.2 ⟨p, hp, rfl⟩)

/-- The channel with its target period moved, as a note leaves it under tone portamento (R243). -/
def Channel.aimedAt (tgt : BitVec 16) (ch : Channel) : Channel := { ch with periodTgt := tgt }

/-- The note step under tone portamento writes the target at most: that of a concrete note, else the one there was
(R242, R243). -/
theorem Channel.noteStep_aims {cfg : Cfg} {ch : Channel} {tgt : BitVec 16}
    (haim : ch.evNote.toNat < 254 → ch.notePeriod cfg ch.evNote.toNat = .ok tgt)
    (hkeep : 254 ≤ ch.evNote.toNat → tgt = ch.periodTgt) (rate : BitVec 16) :
    ch.noteStep cfg rate true = .ok (ch.aimedAt tgt) := by
  by_cases hn : ch.evNote.toNat < 254
  · exact (Channel.noteStep_concrete hn cfg rate true).trans (Channel.aimNote_ok.2 ⟨tgt, haim hn, rfl⟩)
  · rw [hkeep (Nat.le_of_not_lt hn)]
    rcases noteMarker_cases hn with hcut | hnone
    · exact Channel.noteStep_cut hcut cfg rate true
    · exact Channel.noteStep_none hnone cfg rate true

/-! ### The whole trigger -/

/-- The trigger under tone portamento, where its volume is legal and its note, if concrete, has a period: the target, then
the sample field by `cfg.TPORTA_REBINDS_SAMPLE` (R240, R242, R250). -/
theorem Channel.trigger_aims {cfg : Cfg} {ch : Channel} {tgt : BitVec 16} (hvol : ch.evVol.toNat ≤ 65)
    (haim : ch.evNote.toNat < 254 → ch.notePeriod cfg ch.evNote.toNat = .ok tgt)
    (hkeep : 254 ≤ ch.evNote.toNat → tgt = ch.periodTgt) (g : Song) (rate : BitVec 16) :
    ch.trigger cfg g rate true = (ch.aimedAt tgt).withEventVolume.portaSampleStep cfg g := by
  rw [Channel.trigger_eq_porta (Channel.explicitVolume_iff.2 ⟨hvol, rfl⟩),
    Channel.noteStep_aims (ch := ch.withEventVolume) haim hkeep]
  rfl

/-- Without a sample field, or where `cfg.TPORTA_REBINDS_SAMPLE` is false, tone portamento binds nothing (R250). -/
theorem Channel.portaSampleStep_stays {cfg : Cfg} {ch : Channel}
    (h : ch.evSmp = 0 ∨ cfg.tportaRebindsSample = false) (g : Song) : ch.portaSampleStep cfg g = .ok ch :=
  if_neg fun ⟨hrebinds, hs⟩ => h.elim hs fun hfalse => Bool.false_ne_true (hfalse.symm.trans hrebinds)

/-- Else it binds the sample, if that has a legal base volume (R250). -/
theorem Channel.portaSampleStep_binds {cfg : Cfg} {g : Song} {ch : Channel} (hrebinds : cfg.tportaRebindsSample = true)
    (hs : ch.evSmp ≠ 0) (hbase : (g.desc ch.evSmp).volume.toNat ≤ 64) :
    ∃ ch', ch.portaSampleStep cfg g = .ok ch' ∧ ch.rebind ch.evSmp (g.desc ch.evSmp) = .ok ch' := by
  obtain ⟨ch', hbind⟩ := Channel.rebind_runs hbase ch.evSmp ch
  exact ⟨ch', (if_pos ⟨hrebinds, hs⟩).trans hbind, hbind⟩

/-- A trigger with neither note nor sample is its explicit volume (R241, R248). -/
theorem Channel.trigger_volumeOnly {ch : Channel} (hn : ch.evNote = 255) (hs : ch.evSmp = 0)
    (hvol : ch.evVol.toNat ≤ 65) (cfg : Cfg) (g : Song) (rate : BitVec 16) (porta : Bool) :
    ch.trigger cfg g rate porta = .ok ch.withEventVolume := by
  have hv := Channel.explicitVolume_iff.2 ⟨hvol, rfl⟩
  have hnote (porta : Bool) : ch.withEventVolume.noteStep cfg rate porta = .ok ch.withEventVolume :=
    Channel.noteStep_none (ch := ch.withEventVolume) hn cfg rate porta
  cases porta with
  | true => rw [Channel.trigger_eq_porta hv, hnote]; exact if_neg fun h => h.2 hs
  | false =>
    rw [Channel.trigger_eq_sample hv, show ch.withEventVolume.sampleStep g = .ok _ from if_pos hs]
    exact hnote false

/-- The latched note after a trigger: 254 where the cut was forced (R245, R250). -/
theorem Channel.trigger_evNote {cfg : Cfg} {g : Song} {rate : BitVec 16} {porta : Bool} {ch ch' : Channel}
    (h : ch.trigger cfg g rate porta = .ok ch') :
    ch'.evNote = if porta = false ∧ ch.evSmp ≠ 0 ∧ (g.desc ch.evSmp).length = 0 then 254 else ch.evNote := by
  cases porta with
  | false =>
    obtain ⟨c, hc, hnote⟩ := Channel.trigger_sampled_of_ok h
    rw [(Channel.noteStep_volumes hnote).1, hc.evNote]
    simp
  | true =>
    obtain ⟨c₁, c₂, h₁, ⟨_, h₂, h₃⟩ | ⟨hp, _⟩⟩ := Channel.trigger_cases h
    · obtain ⟨_, rfl⟩ := Channel.explicitVolume_iff.1 h₁
      have hkept : c₂.evNote = ch.evNote := (Channel.noteStep_volumes h₂).1
      rw [if_neg fun hf => nomatch hf.1]
      rcases Channel.portaSampleStep_cases h₃ with rfl | ⟨_, _, hb⟩
      · exact hkept
      · rw [Channel.rebind_pitch hb]; exact hkept
    · cases hp

/-- An event whose operands are legal triggers, with tone portamento or without (R240). -/
theorem Channel.trigger_legal {cfg : Cfg} {g : Song} {porta : Bool} {ch : Channel} (rate : BitVec 16)
    (h : TriggerLegal cfg g porta ch) : ∃ ch', ch.trigger cfg g rate porta = .ok ch' := by
  cases porta with
  | false => exact Channel.trigger_runs rate h
  | true =>
    obtain ⟨hvol, hsmp, hnote⟩ := h
    have hpitched : ch.evNote.toNat < 254 → ∃ p, ch.withEventVolume.notePeriod cfg ch.evNote.toNat = .ok p := fun hn => by
      obtain ⟨hbound, p, hp⟩ := hnote hn nofun
      rw [if_neg fun hf => nomatch hf.1] at hp
      exact ⟨p, Channel.notePeriod_ok.2 ⟨hbound.resolve_left (fun hf => nomatch hf.1), hp⟩⟩
    obtain ⟨c, hc⟩ := Channel.noteStep_runs (ch := ch.withEventVolume) rate true hpitched
    have hslot : c.evSmp = ch.evSmp := (Channel.noteStep_frame hc).evSmp
    rw [Channel.trigger_eq_porta (Channel.explicitVolume_iff.2 ⟨hvol, rfl⟩), hc]
    show ∃ ch', c.portaSampleStep cfg g = .ok ch'
    rw [Channel.portaSampleStep, hslot]
    split
    · rename_i hbinds
      exact Channel.rebind_runs (hsmp hbinds.2 fun _ => hbinds.1) ch.evSmp c
    · exact ⟨c, rfl⟩

/-! ### After the trigger -/

theorem Channel.afterRow_tremor (ch : Channel) :
    ch.afterRow .tremor = (ch.continuationReset .tremor).doTremor := rfl

/-- The continuation reset and tremor write the continuation state and, under `TREMOR`, the current volume (R198,
R213). -/
theorem Channel.afterRow_eq (eff : Effect) (ch : Channel) :
    ch.afterRow eff =
      { ch with
        tremorCtr := (ch.afterRow eff).tremorCtr, tremorState := (ch.afterRow eff).tremorState
        vibPhase := (ch.afterRow eff).vibPhase, volCur := (ch.afterRow eff).volCur } := by
  unfold Channel.afterRow
  split
  · rw [Channel.doTremor_eq]; rfl
  · rfl

/-- Only `TREMOR` at counter 0 moves the current volume: the audible phase ends in silence, the silent one at the
initial volume (R213). -/
theorem Channel.afterRow_volCur (eff : Effect) (ch : Channel) :
    (eff ≠ .tremor ∨ ch.tremorCtr ≠ 0 → (ch.afterRow eff).volCur = ch.volCur) ∧
      (eff = .tremor → ch.tremorCtr = 0 →
        (ch.afterRow eff).volCur = if ch.tremorState then 0 else ch.volInit) := by
  by_cases heff : eff = .tremor
  · subst heff
    rw [Channel.afterRow, if_pos rfl, Channel.continuationReset_tremor]
    refine ⟨fun h => ?_, fun _ h => ?_⟩
    · rw [Channel.doTremor_running (ch := { ch with vibPhase := 0 }) (h.resolve_left fun hne => hne rfl)]
    · by_cases hs : ch.tremorState = true
      · rw [Channel.doTremor_audible (ch := { ch with vibPhase := 0 }) h hs, if_pos hs]
      · rw [Channel.doTremor_silent (ch := { ch with vibPhase := 0 }) h (Bool.eq_false_of_not_eq_true hs), if_neg hs]
  · exact ⟨fun _ => by rw [Channel.afterRow, if_neg heff]; rfl, fun h => absurd h heff⟩

/-- From equal volumes tremor's move leaves the current one at the initial one, or silent. -/
theorem Channel.afterRow_volCur_of_eq {ch : Channel} (h : ch.volCur = ch.volInit) (eff : Effect) :
    (ch.afterRow eff).volCur =
      if eff = .tremor ∧ ch.tremorCtr = 0 ∧ ch.tremorState = true then 0 else ch.volInit := by
  obtain ⟨hkeeps, hmoves⟩ := ch.afterRow_volCur eff
  by_cases hmove : eff = .tremor ∧ ch.tremorCtr = 0
  · obtain ⟨heff, hz⟩ := hmove
    rw [hmoves heff hz]
    simp only [heff, hz, true_and]
  · rw [hkeeps (not_and_or.1 hmove), if_neg fun hall => hmove ⟨hall.1, hall.2.1⟩, h]

/-- The volumes an event outside tone portamento leaves (R241, R244, R196). -/
theorem Channel.trigger_takesVolumes {cfg : Cfg} {g : Song} {rate : BitVec 16} {ch ch' : Channel}
    (h : ch.trigger cfg g rate false = .ok ch') (eff : Effect) :
    Channel.TakesVolumes eff ch.latchedArgs (g.desc ch.evSmp) ch (ch'.afterRow eff) := by
  obtain ⟨c, hc, hnote⟩ := Channel.trigger_sampled_of_ok h
  obtain ⟨_, hcur, hinit⟩ := Channel.noteStep_volumes hnote
  have hframe := Channel.trigger_frame h
  obtain ⟨hkeeps, hmoves⟩ := ch'.afterRow_volCur eff
  have hvolInit : (ch'.afterRow eff).volInit = ch'.volInit := by rw [Channel.afterRow_eq]
  rw [hframe.tremorCtr, hframe.tremorState] at hmoves
  rw [hframe.tremorCtr] at hkeeps
  refine ⟨?_, fun hne => ?_, fun heff hz => ?_⟩
  · rw [hvolInit, hinit, hc.volInit]
  · rw [hkeeps hne, hcur, hc.volCur]
  · rw [hmoves heff hz, hvolInit]

/-! ### Events outside tone portamento -/

/-- A row event outside tone portamento comes to the note byte of its sampled channel, and runs if that does (R190,
R240). -/
theorem exec_row_sampled {s : State} {eff : Effect} {e : EventArgs} (hq : s.seq = .row) (hp : eff ≠ .tonePorta)
    (hvol : e.vol.toNat ≤ 65) (hsmp : e.smp ≠ 0 → (s.song.desc e.smp).volume.toNat ≤ 64)
    (ht : eff = .setSpeed → e.param ≠ 0 → 0 < tempoDivisor s.cfg e.param) :
    ∃ c, (s.cur.latch (s.cfg.coding.codeOf eff) e).Sampled s.song c ∧
      ∀ ch, c.noteStep s.cfg s.ctx.rate false = .ok ch →
        ∃ t, exec (Instr.ofEvent eff e) s = .next t ∧
          t = { s with ctx := t.ctx, chans := s.chans.set s.chan t.cur } ∧
          (eff ≠ .setSpeed → eff ≠ .posJump → eff ≠ .patBreak → t.ctx = s.ctx) ∧
          Channel.TakesVolumes eff e (s.song.desc e.smp) s.cur t.cur ∧ t.cur = ch.afterRow eff := by
  obtain ⟨c, hc, htrigger⟩ :=
    Channel.trigger_sampled (ch := s.cur.latch (s.cfg.coding.codeOf eff) e) hvol hsmp
  refine ⟨c, hc, fun ch hch => ?_⟩
  have hok := (htrigger s.cfg s.ctx.rate).trans hch
  obtain ⟨t, hexec, hshape, hcur, hctx⟩ := exec_row_runs hq (by rw [decide_eq_false hp]; exact hok) ht
  have hcur : t.cur = ch.afterRow eff := hcur
  exact ⟨t, hexec, hshape, hctx, hcur ▸ Channel.trigger_takesVolumes hok eff, hcur⟩


/-! ### The obligations on them -/

/-- Settles O35: the sampled channel has the note's period, at the frequency bound before or by the sample; then the note
byte alone. -/
theorem noteSetsThePitch : Obligations.NoteSetsThePitch := by
  refine ⟨?_, fun s b p hplain hsemi hoct hbound hp => ?_, fun s b p hporta hsemi hoct hbound hp => ?_⟩
  · intro s eff e p hq heff hn hvol hsmp hbefore hp hspeed
    obtain ⟨c, hc, hruns⟩ := exec_row_sampled hq heff hvol (fun hs => (hsmp hs).1) hspeed
    have hnote : c.evNote = e.note := hc.evNote.trans (if_neg fun hcut => (hsmp hcut.1).2 hcut.2)
    have hperiod : c.notePeriod s.cfg c.evNote.toNat = .ok p := by
      rw [hnote]
      by_cases hz : e.smp = 0
      · obtain ⟨_, hc2, hb, _⟩ := hc.unbound hz
        rw [if_pos hz] at hp
        exact Channel.notePeriod_ok.2 ⟨hb.trans (hbefore hz), hc2 ▸ hp⟩
      · obtain ⟨_, hc2, hb, _⟩ := hc.bound hz
        rw [if_neg hz] at hp
        exact Channel.notePeriod_ok.2 ⟨hb, hc2 ▸ hp⟩
    obtain ⟨t, hexec, hshape, hctx, hvols, hcur⟩ :=
      hruns _ (Channel.noteStep_plays (by rw [hnote]; exact hn) hperiod s.ctx.rate)
    refine ⟨t, hexec, hshape, hctx, hvols, ?_⟩
    rw [hcur, Channel.afterRow_eq]
    exact ⟨hnote, hnote, rfl, rfl, rfl, rfl, rfl, hc.unbound, hc.bound⟩
  · have hperiod := Channel.notePeriod_ok.2 ⟨hbound, periodOf_ok.2 ⟨hsemi, hoct, hp⟩⟩
    show execNote b s = _
    rw [execNote, State.curIsPorta, decide_eq_false hplain,
      show s.cur.concreteNote s.cfg s.ctx.rate false b = _ from Channel.playNote_ok.2 ⟨p, hperiod, rfl⟩, withValue_ok]
  · have hperiod := Channel.notePeriod_ok.2 ⟨hbound, periodOf_ok.2 ⟨hsemi, hoct, hp⟩⟩
    show execNote b s = _
    rw [execNote, State.curIsPorta, decide_eq_true hporta,
      show s.cur.concreteNote s.cfg s.ctx.rate true b = _ from Channel.aimNote_ok.2 ⟨p, hperiod, rfl⟩, withValue_ok]

/-- Settles O37: the note step of the sampled channel is the cut or nothing; then the note bytes alone. -/
theorem noteCutSilencesTheChannel : Obligations.NoteCutSilencesTheChannel := by
  refine ⟨?_, fun s => ⟨fun hplain => ?_, fun hporta => ?_, rfl⟩⟩
  · intro s eff e hq heff hn hvol hsmp hspeed
    obtain ⟨c, hc, hruns⟩ := exec_row_sampled hq heff hvol (fun hs => (hsmp hs).1) hspeed
    have hnote : c.evNote = e.note := hc.evNote.trans (if_neg fun hcut => (hsmp hcut.1).2 hcut.2)
    have hslot : c.waveSlot = (if e.smp = 0 then s.cur.waveSlot else e.smp) ∧
        c.c2spd = (if e.smp = 0 then s.cur.c2spd else (s.song.desc e.smp).c2spd) := by
      split
      · rename_i hz; obtain ⟨hw, hc2, _⟩ := hc.unbound hz; exact ⟨hw, hc2⟩
      · rename_i hs; obtain ⟨hw, hc2, _⟩ := hc.bound hs; exact ⟨hw, hc2⟩
    rcases hn with hcut | hnone
    · obtain ⟨t, hexec, hshape, hctx, hvols, hcur⟩ := hruns _ (Channel.noteStep_cut (hnote.trans hcut) _ _ false)
      refine ⟨t, hexec, hshape, hctx, hvols, ?_⟩
      rw [hcur, Channel.afterRow_eq]
      refine ⟨fun _ => ⟨rfl, rfl, rfl, rfl⟩, ?_, ?_, hnote, hc.periodCur, hc.periodTgt, hc.step, hc.lastNote,
        hc.notePlayed, hslot⟩ <;> rw [hcut] <;> exact nofun
    · obtain ⟨t, hexec, hshape, hctx, hvols, hcur⟩ := hruns _ (Channel.noteStep_none (hnote.trans hnone) _ _ false)
      refine ⟨t, hexec, hshape, hctx, hvols, ?_⟩
      rw [hcur, Channel.afterRow_eq]
      refine ⟨by rw [hnone]; exact nofun, fun _ => hc.pos, fun _ hz => ?_, hnote, hc.periodCur, hc.periodTgt, hc.step,
        hc.lastNote, hc.notePlayed, hslot⟩
      obtain ⟨_, _, _, hloop⟩ := hc.unbound hz
      exact hloop
  · show execNoteCut s = _
    rw [execNoteCut, State.curIsPorta, decide_eq_false hplain]
    rfl
  · refine ⟨s, ?_, fun _ => rfl, rfl⟩
    show execNoteCut s = _
    rw [execNoteCut, State.curIsPorta, decide_eq_true hporta]
    exact congrArg _ s.setCur_self

/-- Settles O40: the trigger is the explicit volume, and tremor moves from it. -/
theorem explicitVolumeSetsBothVolumes : Obligations.ExplicitVolumeSetsBothVolumes := by
  intro s eff e hq hn hs hvol hspeed
  have hne : e.vol ≠ 65 := fun h => by rw [h] at hvol; exact absurd hvol (by decide)
  have htrigger := Channel.trigger_volumeOnly (ch := s.cur.latch (s.cfg.coding.codeOf eff) e) hn hs
    (Nat.le_succ_of_le hvol) s.cfg s.song s.ctx.rate (decide (eff = .tonePorta))
  have hset : (s.cur.latch (s.cfg.coding.codeOf eff) e).withEventVolume =
      { s.cur with
        evNote := 255, evSmp := 0, evVol := e.vol, evCmd := s.cfg.coding.codeOf eff, evParam := e.param
        volCur := e.vol, volInit := e.vol } := by
    simp only [Channel.withEventVolume, Channel.latch, if_neg hne, hn, hs]
  obtain ⟨t, hexec, hshape, hcur, hctx⟩ := exec_row_runs hq htrigger hspeed
  rw [hset] at hcur
  refine ⟨t, hexec, hshape, hctx, fun heff => by rw [hcur, if_neg heff], fun heff => ?_⟩
  subst heff
  rw [if_pos rfl] at hcur
  have hvolCur := congrArg Channel.volCur hcur
  rw [← Channel.afterRow_tremor, Channel.afterRow_volCur_of_eq rfl] at hvolCur
  refine ⟨?_, ?_, ?_⟩
  · rw [hcur, Channel.doTremor_eq]; rfl
  · simpa only [true_and] using hvolCur
  · rw [hcur]; exact Channel.doTremor_eq _

/-- Settles O41: the sampled channel, which the note step leaves. -/
theorem sampleFieldBindsTheSample : Obligations.SampleFieldBindsTheSample := by
  intro s eff e hq heff hn hvol hs hbase hlen hspeed
  obtain ⟨c, hc, hruns⟩ := exec_row_sampled hq heff hvol (fun _ => hbase) hspeed
  have hnote : c.evNote = 255 := (hc.evNote.trans (if_neg fun hcut => hlen hcut.2)).trans hn
  have hnone := Channel.noteStep_none hnote s.cfg s.ctx.rate false
  obtain ⟨t, hexec, hshape, hctx, _, hcur⟩ := hruns c hnone
  have hinit : c.volInit = if e.vol = 65 then (s.song.desc e.smp).volume else e.vol :=
    hc.volInit.trans (volumeOver_bound hs _ _)
  have hsame : c.volCur = c.volInit := (hc.volCur.trans (volumeOver_bound hs _ _)).trans hinit.symm
  have hvolCur := Channel.afterRow_volCur_of_eq hsame eff
  rw [hc.frame.tremorCtr, hc.frame.tremorState] at hvolCur
  refine ⟨t, hexec, hshape, hctx, ?_⟩
  rw [hcur, Channel.afterRow_eq]
  exact ⟨hc.bound hs, hinit, hvolCur, hc.pos, hc.step, hc.periodCur, hc.periodTgt, hc.frame.volMix, hc.lastNote,
    hc.notePlayed, hc.frame.tportaMem, hc.frame.vibMem, hc.frame.active, hc.frame.rowCtr⟩

/-- Settles O42: the trigger went through the sampled channel, whose latched note is the cut. -/
theorem emptySampleForcesTheCut : Obligations.EmptySampleForcesTheCut := by
  intro s t eff e hq heff hs hlen h
  obtain ⟨ch, hch, ht, _⟩ := exec_event_next (by rw [hq]; decide) h
  rw [decide_eq_false heff] at hch
  have hcur : t.cur = ch.afterRow eff := by rw [ht]; exact State.setCur_cur s _
  have hvols := Channel.trigger_takesVolumes hch eff
  obtain ⟨c, hc, hnote⟩ := Channel.trigger_sampled_of_ok hch
  have hcut : c.evNote = 254 := hc.evNote.trans (if_pos ⟨hs, hlen⟩)
  rw [Channel.noteStep_cut hcut] at hnote
  cases hnote
  obtain ⟨hslot, hc2, hbound, _⟩ := hc.bound hs
  refine ⟨hcur ▸ hvols, ?_⟩
  rw [hcur, Channel.afterRow_eq]
  exact ⟨hc2, hbound, hcut, hslot, rfl, rfl, rfl, rfl, hc.periodCur, hc.periodTgt, hc.lastNote⟩

/-- Settles O43: a legal event triggers, and its trigger keeps the latched event but for a forced cut. -/
theorem legalEventsTrigger : Obligations.LegalEventsTrigger := by
  intro s eff e hq hl hspeed
  obtain ⟨ch, hch⟩ := Channel.trigger_legal s.ctx.rate hl
  have hframe := Channel.trigger_frame hch
  have hnote := Channel.trigger_evNote hch
  obtain ⟨t, hexec, hshape, hcur, hctx⟩ := exec_row_runs hq hch hspeed
  have hcur : t.cur = ch.afterRow eff := hcur
  refine ⟨t, hexec, hshape, hctx, ?_⟩
  rw [hcur, Channel.afterRow_eq]
  refine ⟨?_, hframe.evSmp, hframe.evVol, hframe.evParam, hframe.evCmd⟩
  dsimp only
  rw [hnote, apply_ite BitVec.toNat]
  rfl

/-- Settles O48: the trigger writes the target and the explicit volume, and then binds the sample or does not. -/
theorem tonePortaEventOnlyRetargets : Obligations.TonePortaEventOnlyRetargets := by
  intro s e tgt hq hvol haim hkeep
  have htrigger := Channel.trigger_aims (ch := s.cur.latch (s.cfg.coding.codeOf .tonePorta) e) hvol
    (fun hn => Channel.notePeriod_ok.2 (haim hn)) hkeep s.song s.ctx.rate
  have hexec := exec_row hq .tonePorta e
  rw [decide_eq_true rfl, htrigger] at hexec
  refine ⟨fun hstays => ?_, fun hs hrebinds hbase => ?_⟩
  · rw [Channel.portaSampleStep_stays hstays, withValue_ok] at hexec
    exact hexec
  · obtain ⟨ch, hstep, hch⟩ := Channel.portaSampleStep_binds (g := s.song)
      (ch := ((s.cur.latch (s.cfg.coding.codeOf .tonePorta) e).aimedAt tgt).withEventVolume) hrebinds hs hbase
    obtain ⟨hvolCur, hvolInit⟩ := Channel.rebind_volumes hch
    have hbound := Channel.rebind_boundTo hch
    have hpitch := Channel.rebind_pitch hch
    rw [hstep, withValue_ok] at hexec
    refine ⟨s.setCur (ch.continuationReset .tonePorta), hexec, by rw [State.setCur_cur], ?_⟩
    rw [State.setCur_cur]
    refine ⟨hbound, ?_, hvolInit, hvolCur.trans hvolInit.symm, ?_⟩
    · rw [hpitch]; rfl
    · rw [hpitch]; exact ⟨rfl, rfl, rfl, rfl, rfl, rfl⟩

end Sys2Proof.Machine

/-! PROOFS. Loops inside waveforms: only a binding moves a loop end up, and a legal descriptor's lies inside its waveform;
so every step keeps the loops inside. -/

namespace Sys2Proof.Machine

/-! ### One channel -/

/-- A channel's loop end does not lie beyond its bound waveform (R244 with R336 d). -/
def Channel.LoopInside (g : Song) (ch : Channel) : Prop :=
  ch.waveSlot ≠ 0 → ch.loopEnd ≤ (g.desc ch.waveSlot).length

/-- It is so for every channel with the same slot and loop end. -/
theorem Channel.LoopInside.of_eq {g : Song} {a b : Channel} (h : a.LoopInside g) (hslot : b.waveSlot = a.waveSlot)
    (hend : b.loopEnd = a.loopEnd) : b.LoopInside g := by
  rw [Channel.LoopInside, hslot, hend]; exact h

/-- A binding of a legal descriptor takes its loop end or, without a loop, its length (R244). -/
theorem Channel.loopInside_rebind {g : Song} {slot : BitVec 5} {ch ch' : Channel} (hd : DescLegal (g.desc slot))
    (h : ch.rebind slot (g.desc slot) = .ok ch') : ch'.LoopInside g := by
  obtain ⟨_, rfl⟩ := Channel.rebind_ok.1 h
  intro _
  dsimp only
  split
  · exact BitVec.le_refl _
  · rename_i hloop
    exact (hd.2.resolve_left hloop).2

/-- A note step leaves the loop, or empties it (R246). -/
theorem Channel.LoopInside.noteStep {cfg : Cfg} {g : Song} {rate : BitVec 16} {porta : Bool} {ch ch' : Channel}
    (h : ch.LoopInside g) (hx : ch.noteStep cfg rate porta = .ok ch') : ch'.LoopInside g := by
  rcases Channel.noteStep_cases hx with ⟨b, _, _, hb⟩ | ⟨b, _, _, hb⟩ | ⟨_, _, rfl⟩ | ⟨_, rfl⟩
  · obtain ⟨p, _, rfl⟩ := Channel.aimNote_ok.1 hb; exact h
  · obtain ⟨p, _, rfl⟩ := Channel.playNote_ok.1 hb; exact h
  · exact fun _ => Nat.zero_le _
  · exact h

theorem Channel.LoopInside.explicitVolume {g : Song} {ch ch' : Channel} (h : ch.LoopInside g)
    (hx : ch.explicitVolume = .ok ch') : ch'.LoopInside g := by
  obtain ⟨_, rfl⟩ := Channel.explicitVolume_ok.1 hx
  split <;> exact h

theorem Channel.LoopInside.sampleStep {g : Song} {ch ch' : Channel} (h : ch.LoopInside g) (hg : SamplesLegal g)
    (hx : ch.sampleStep g = .ok ch') : ch'.LoopInside g := by
  rcases Channel.sampleStep_cases hx with ⟨_, rfl⟩ | ⟨hs, c, hc, rfl⟩
  · exact h
  · have hbound := Channel.loopInside_rebind (hg _ hs) hc
    split <;> exact hbound

theorem Channel.LoopInside.portaSampleStep {cfg : Cfg} {g : Song} {ch ch' : Channel} (h : ch.LoopInside g)
    (hg : SamplesLegal g) (hx : ch.portaSampleStep cfg g = .ok ch') : ch'.LoopInside g := by
  rcases Channel.portaSampleStep_cases hx with rfl | ⟨_, hs, hc⟩
  · exact h
  · exact Channel.loopInside_rebind (hg _ hs) hc

theorem Channel.LoopInside.trigger {cfg : Cfg} {g : Song} {rate : BitVec 16} {porta : Bool} {ch ch' : Channel}
    (h : ch.LoopInside g) (hg : SamplesLegal g) (hx : ch.trigger cfg g rate porta = .ok ch') : ch'.LoopInside g := by
  obtain ⟨c₁, c₂, h₁, ⟨_, h₂, h₃⟩ | ⟨_, h₂, h₃⟩⟩ := Channel.trigger_cases hx
  · exact ((h.explicitVolume h₁).noteStep h₂).portaSampleStep hg h₃
  · exact ((h.explicitVolume h₁).sampleStep hg h₂).noteStep h₃

/-- Neither the continuation reset nor tremor writes the loop (R198, R213). -/
theorem Channel.LoopInside.afterRow {g : Song} {ch : Channel} (h : ch.LoopInside g) (eff : Effect) :
    (ch.afterRow eff).LoopInside g := by
  unfold Channel.afterRow
  split
  · rw [Channel.doTremor_eq]; exact h
  · exact h

/-! ### The instructions of a tick event -/

/-- Every channel's loop end lies inside its waveform, the descriptors being legal, whatever the session. -/
structure State.LoopsInside (s : State) : Prop where
  samples : SamplesLegal s.song
  channels : ∀ c, (s.channel c).LoopInside s.song

/-- Registers other than slot and loop end may change. -/
theorem State.LoopsInside.of_eq {s t : State} (h : s.LoopsInside) (hsong : t.song = s.song)
    (hloop : ∀ c, (t.channel c).waveSlot = (s.channel c).waveSlot ∧ (t.channel c).loopEnd = (s.channel c).loopEnd) :
    t.LoopsInside where
  samples := hsong ▸ h.samples
  channels c := hsong ▸ (h.channels c).of_eq (hloop c).1 (hloop c).2

/-- In a row event through the trigger, on a tick because no per-tick action writes the loop (R210, R240). -/
theorem State.LoopsInside.event {s t : State} {eff : Effect} {e : EventArgs} (h : s.LoopsInside)
    (hx : exec (Instr.ofEvent eff e) s = .next t) : t.LoopsInside := by
  have hcur : t.cur.LoopInside s.song := by
    by_cases hq : s.seq = .tick
    · obtain ⟨_, _, _, _, _, _, _, hslot, _, _, hend, _⟩ := tickEventsFrame s t eff e hq hx
      exact (h.channels s.chan).of_eq hslot hend
    · obtain ⟨ch, hch, ht, _⟩ := exec_event_next hq hx
      rw [show t.cur = ch.afterRow eff by rw [ht]; exact State.setCur_cur s _]
      exact ((h.channels s.chan).trigger (ch := s.cur.latch _ e) h.samples hch).afterRow eff
  obtain ⟨ht, _⟩ := exec_event_shape hx
  have hsong : t.song = s.song := by rw [ht]
  refine ⟨hsong ▸ h.samples, fun c => ?_⟩
  have hread : t.channel c = if c = s.chan then t.cur else s.channel c :=
    (congrArg (·.channel c) ht).trans (State.setCur_channel s c t.cur)
  rw [hread, hsong]
  split
  · exact hcur
  · exact h.channels c

theorem State.LoopsInside.advanceRow {s : State} (h : s.LoopsInside) : s.advanceRow.LoopsInside := by
  have hcount : s.countRow.LoopsInside := h.of_eq rfl fun c => by
    rw [State.countRow_channel]
    split
    · rename_i hc; rw [hc]; exact ⟨rfl, rfl⟩
    · exact ⟨rfl, rfl⟩
  rcases s.advanceRow_cases with ⟨_, e⟩ | ⟨_, e⟩ <;> rw [e]
  · exact hcount.of_eq (State.finishRow_song _) fun c => by rw [State.finishRow_channel]; exact ⟨rfl, rfl⟩
  · exact hcount.of_eq rfl fun c => ⟨rfl, rfl⟩

theorem State.LoopsInside.finishTick {s : State} (h : s.LoopsInside) : s.finishTick.LoopsInside :=
  h.of_eq (State.finishTick_song s) fun c => by rw [State.finishTick_channel]; exact ⟨rfl, rfl⟩

theorem State.LoopsInside.advanceTick {s : State} (h : s.LoopsInside) : s.advanceTick.LoopsInside := by
  rcases s.advanceTick_cases with ⟨_, e⟩ | ⟨_, e⟩ <;> rw [e]
  · exact h.finishTick
  · exact h.of_eq rfl fun c => ⟨rfl, rfl⟩

/-- Every instruction of a tick event keeps the loops inside: an order entry at most rewinds the channels (R165). -/
theorem State.LoopsInside.turn {s t : State} (h : s.LoopsInside) (ht : turn s = .next t) : t.LoopsInside := by
  rcases turn_next ht with ⟨_, rfl⟩ | ⟨_, i, hi, hx⟩ | ⟨_, _, eff, e, u, hu, rfl⟩ | ⟨_, _, rfl⟩ | ⟨_, u, hu, rfl⟩
  · exact h
  · rcases exec_order_next hi hx with ⟨_, o, rfl⟩ | ⟨n, rfl⟩
    · exact h.of_eq rfl fun c => ⟨rfl, rfl⟩
    · refine h.of_eq rfl fun c => ?_
      have hread : (onAll Channel.rewind s.chans)[c] = (s.channel c).rewind := onAll_getElem _ _ _ c.isLt
      simp only [State.channel, hread]
      exact ⟨rfl, rfl⟩
  · exact (h.event hu).advanceRow
  · exact h.advanceRow
  · exact (h.event hu).advanceTick

/-- So does the rest of an operation. -/
theorem State.LoopsInside.finishOperation {s t : State} (h : s.LoopsInside) (ht : finishOperation s = .next t) :
    t.LoopsInside :=
  finishOperation_keeps (fun _ _ hu hv => hu.turn hv) h ht

/-! ### The operations -/

/-- START binds no sample (R62). -/
theorem State.primed_loopsInside {s : State} (h : SamplesLegal s.song) (r : BitVec 16) : (s.primed r).LoopsInside where
  samples := h
  channels c := by rw [State.primed_channel]; exact fun hs => absurd rfl hs

/-- The mixer moves positions only, and entering a tick event writes no loop (R160, R262). -/
theorem State.LoopsInside.countFrame {s : State} {m : Mix} (h : s.LoopsInside) (hm : mixAll s.song s.chans = .ok m)
    (v : Result) : (State.countFrame { s with chans := m.chans, result := v }).LoopsInside := by
  have hmixed : State.LoopsInside { s with chans := m.chans, result := v } := h.of_eq rfl fun c => by
    obtain ⟨p, hp⟩ := mixAll_frame hm c
    rw [show State.channel { s with chans := m.chans, result := v } c = { s.channel c with pos := p } from hp]
    exact ⟨rfl, rfl⟩
  rcases State.countFrame_cases { s with chans := m.chans, result := v } with ⟨_, e⟩ | ⟨_, e⟩ <;> rw [e]
  · exact hmixed.of_eq (State.enterTick_song _) fun c => by rw [State.enterTick_channel]; exact ⟨rfl, rfl⟩
  · exact hmixed.of_eq rfl fun c => ⟨rfl, rfl⟩

/-- It is the model's invariant, for a started session and legal descriptors. -/
theorem State.LoopsInside.loopInv {s : State} (h : s.LoopsInside) : LoopInv s := fun _ => h.channels

/-- Every operation keeps the loops inside: START binds no sample, CREATE and DESTROY leave no started session (R291 to
R297). -/
theorem LoopInv.operation {s t : State} {i : Instr} (hg : SamplesLegal s.song) (h : LoopInv s)
    (hf : i.format = .hostop) (hx : exec i s = .next t) : LoopInv t := by
  cases i
  case create => obtain ⟨_, _, rfl⟩ := exec_create_next hx; exact nofun
  case start r =>
    exact ((State.primed_loopsInside hg r).finishOperation (exec_start_primed_next hx)).loopInv
  case setPosition o => obtain ⟨_, _, rfl⟩ := exec_setPosition_next hx; exact h
  case queryPosition => obtain ⟨_, _, rfl⟩ := exec_queryPosition_next hx; exact h
  case render =>
    obtain ⟨_, hs, m, hm, hfin⟩ := exec_render_next hx
    have hinside : s.LoopsInside := ⟨hg, h hs⟩
    exact ((hinside.countFrame hm _).finishOperation hfin).loopInv
  case destroy => obtain ⟨_, _, rfl⟩ := exec_destroy_next hx; exact nofun
  all_goals cases hf

/-- Every request of the host keeps the loops inside (R87, R290, R320). -/
theorem LoopInv.serve {s t : State} {r : Request} (hg : SamplesLegal s.song) (h : LoopInv s)
    (hx : serve r s = .next t) : LoopInv t := by
  cases r with
  | op code arg =>
    obtain ⟨i, hfetch, hx⟩ := withValue_next.1 hx
    exact LoopInv.operation hg h (fetchOp_format hfetch) hx
  | setSingleRow b => obtain ⟨_, rfl⟩ := hostSetSingleRow_next hx; exact h
  | setActive c b =>
    obtain ⟨hs, rfl⟩ := hostSetActive_next hx
    have hinside : s.LoopsInside := ⟨hg, h hs⟩
    refine State.LoopsInside.loopInv (hinside.of_eq rfl fun d => ?_)
    rw [State.channel_setChannel]
    split
    · rename_i hd; rw [hd]; exact ⟨rfl, rfl⟩
    · exact ⟨rfl, rfl⟩
  | writeOther => cases hx
  | load g c => obtain ⟨_, rfl⟩ := hostLoad_next hx; exact h

/-- Settles O19: a request is served, or the rest of an operation is run, in the session there is. -/
theorem stepKeepsLoopsInsideWaveforms : Obligations.StepKeepsLoopsInsideWaveforms := by
  intro s t hg h hx
  rcases step_cases s with ⟨_, _, e⟩ | ⟨_, r, rest, _, e⟩ | ⟨_, e⟩ <;> rw [e] at hx
  · cases hx; exact h
  · exact LoopInv.serve (s := { s with ops := rest }) hg h hx
  · intro hs
    have hinside : s.LoopsInside := ⟨hg, h ((finishOperation_frame hx).session ▸ hs)⟩
    exact (hinside.finishOperation hx).channels

end Sys2Proof.Machine

/-! PROOFS. The operations as the procedures of the spec: the tick event in progress, followed one instruction after
another, is `tick_advance` from where it was entered, and so RENDER is `render()`. -/

namespace Sys2Proof.Machine

/-! ### The rest of an operation, without its fuel -/

/-- What goes on only after a next state may be replaced by what agrees with it there. -/
theorem andThen_congr {o : Out} {f g : State → Out} (h : ∀ t, o = .next t → f t = g t) :
    andThen o f = andThen o g := by
  cases o with
  | next t => exact h t rfl
  | fault x => rfl
  | refused r => rfl

/-- Instructions allowed beyond those that are left are not used. -/
theorem runOn_add (j : Nat) {k : Nat} {s : State} (h : s.turnsLeft ≤ k) : runOn (k + j) s = runOn k s := by
  induction k generalizing s with
  | zero =>
    have hq : s.seq = .host := State.turnsLeft_eq_zero (Nat.le_zero.1 h)
    rw [runOn_done hq, runOn_done hq]
  | succ k ih =>
    by_cases hq : s.seq = .host
    · rw [runOn_done hq, runOn_done hq]
    · rw [Nat.add_right_comm, runOn_succ hq, runOn_succ hq]
      exact andThen_congr fun t ht => ih (by have := turn_turnsLeft hq ht; omega)

/-- The rest of an operation is its next instruction and the rest after that. -/
theorem finishOperation_unfold {s : State} (h : s.seq ≠ .host) :
    finishOperation s = andThen (turn s) finishOperation := by
  rw [finishOperation_turn h]
  refine andThen_congr fun t ht => (runOn_add 1 ?_).symm
  have := turn_turnsLeft h ht
  have := s.turnsLeft_le
  omega

/-! ### The four channels -/

/-- The state with the sequencer at channel `c` of an event. -/
def State.atChannel (q : Seq) (c : Fin 4) (s : State) : State := { s with seq := q, chan := c }

/-- A position in which each channel's turn is the procedure `f` for it and hands on to the next channel, the last one
to the end of the operation, is the procedure for the four channels and that end (R169). -/
theorem finishOperation_channels {q : Seq} {f : Fin 4 → State → Out} {done : State → State} (hq : q ≠ .host)
    (hturn : ∀ c s, turn (s.atChannel q c) =
      andThen (f c s) fun t => .next (if c = 3 then done t else t.atChannel q (c + 1)))
    (hdone : ∀ t, (done t).seq = .host) (s : State) :
    finishOperation (s.atChannel q 0) = andThen (forChannels f s) fun t => .next (done t) := by
  have earlier : ∀ (c : Fin 4) (s : State), c ≠ 3 → finishOperation (s.atChannel q c) =
      andThen (f c s) fun t => finishOperation (t.atChannel q (c + 1)) := fun c s hc => by
    rw [finishOperation_unfold hq, hturn, andThen_assoc]
    simp only [andThen_next, if_neg hc]
  have last : ∀ s : State, finishOperation (s.atChannel q 3) = andThen (f 3 s) fun t => .next (done t) := fun s => by
    rw [finishOperation_unfold hq, hturn, andThen_assoc]
    exact andThen_congr fun t _ => finishOperation_done (hdone t)
  calc finishOperation (s.atChannel q 0)
      = andThen (f 0 s) fun s₁ => andThen (f 1 s₁) fun s₂ => andThen (f 2 s₂) fun s₃ =>
          andThen (f 3 s₃) fun t => .next (done t) := by
        rw [earlier 0 s (by decide)]
        refine andThen_congr fun s₁ _ => (earlier 1 s₁ (by decide)).trans ?_
        exact andThen_congr fun s₂ _ => (earlier 2 s₂ (by decide)).trans (andThen_congr fun s₃ _ => last s₃)
    _ = andThen (forChannels f s) fun t => .next (done t) := by
        simp only [forChannels, andThen_assoc]

/-! ### A per-tick event -/

/-- `cmd_tick` leaves the sequencer at its channel. -/
theorem cmdTick_position {c : Fin 4} {s t : State} (h : cmdTick c s = .next t) : t.seq = .tick ∧ t.chan = c := by
  obtain ⟨hseq, hchan, _⟩ := exec_event_seq h
  exact ⟨hseq, hchan⟩

/-- A channel's turn in a per-tick event is `cmd_tick`, and hands on (R210). -/
theorem turn_cmdTick (c : Fin 4) (s : State) :
    turn (s.atChannel .tick c) =
      andThen (cmdTick c s) fun t => .next (if c = 3 then t.finishTick else t.atChannel .tick (c + 1)) := by
  have hturn : turn (s.atChannel .tick c) = andThen (cmdTick c s) fun t => .next t.advanceTick :=
    congrArg (andThen · fun t => .next t.advanceTick)
      (runInside_eq_exec (s := s.atChannel .tick c) nofun (fetchLatched (s.atChannel .tick c)))
  rw [hturn]
  refine andThen_congr fun t ht => ?_
  obtain ⟨hseq, hchan⟩ := cmdTick_position ht
  rw [State.advanceTick, State.atChannel, hchan, ← hseq]

/-- A per-tick event from its first channel is `cmd_tick` of the four, and its end (R160, R210). -/
theorem finishOperation_tick (s : State) :
    finishOperation (s.atChannel .tick 0) = andThen (forChannels cmdTick s) fun t => .next t.finishTick :=
  finishOperation_channels (q := .tick) nofun turn_cmdTick State.finishTick_seq s

/-! ### A row event -/

/-- `row_step` leaves the sequencer at its channel. -/
theorem rowStep_position {c : Fin 4} {s t : State} (h : rowStep c s = .next t) : t.seq = .row ∧ t.chan = c := by
  unfold rowStep at h
  split at h
  · obtain ⟨i, hi, hrun⟩ := withValue_next.1 h
    obtain ⟨u, hu, hcount⟩ := andThen_eq_next.1 hrun
    obtain ⟨eff, e, rfl⟩ := fetchEvent_ofEvent hi
    obtain ⟨hseq, hchan, _⟩ := exec_event_seq hu
    cases hcount
    exact ⟨hseq, hchan⟩
  · cases h; exact ⟨rfl, rfl⟩

/-- Past the row counter, a row event hands on to the next channel or ends (R162, R169). -/
theorem State.advanceRow_eq (s : State) :
    s.advanceRow =
      if s.countRow.chan = 3 then s.countRow.finishRow else { s.countRow with chan := s.countRow.chan + 1 } := rfl

/-- A channel's turn in a row event is `row_step`, and hands on (R163). -/
theorem turn_rowStep (c : Fin 4) (s : State) :
    turn (s.atChannel .row c) =
      andThen (rowStep c s) fun t => .next (if c = 3 then t.finishRow else t.atChannel .row (c + 1)) := by
  have hturn : turn (s.atChannel .row c) = andThen (rowStep c s) fun t =>
      .next (if t.chan = 3 then t.finishRow else { t with chan := t.chan + 1 }) := by
    simp only [turn, rowStep, State.atChannel, runInside_eq_exec (s := { s with seq := .row, chan := c }) nofun]
    rw [show State.cur { s with seq := .row, chan := c } = s.channel c from rfl]
    split
    · simp only [andThen_withValue, andThen_assoc, andThen_next, State.advanceRow_eq]
    · rfl
  rw [hturn]
  refine andThen_congr fun t ht => ?_
  obtain ⟨hseq, hchan⟩ := rowStep_position ht
  rw [State.atChannel, hchan, ← hseq]

/-- A row event from its first channel is `row_step` of the four, and the end of the row (R162). -/
theorem finishOperation_row (s : State) :
    finishOperation (s.atChannel .row 0) = andThen (forChannels rowStep s) fun t => .next t.finishRow :=
  finishOperation_channels (q := .row) nofun turn_rowStep State.finishRow_seq s

/-! ### The order entries -/

/-- A legal coding's sentinels name no pattern (R111). -/
theorem Coding.sentinel_gt {cd : Coding} (hw : cd.wf = true) :
    97 < cd.sentinelMark.toNat ∧ 97 < cd.sentinelZero.toNat := by
  rcases Coding.sentinels hw with ⟨hm, hz⟩ | ⟨hm, hz⟩ <;> rw [hm, hz] <;> decide

/-- Inside `change_pattern` the turn is that of the byte at `order_pos`: a sentinel, or a pattern number, which where it
is above 97 is refused as a reserved byte is (R115, R165). -/
theorem turn_order {s : State} (hq : s.seq = .order ∨ s.seq = .orderAgain) :
    turn s = withValue (s.song.orderAt s.ctx.orderPos) fun b =>
      if b = s.cfg.coding.sentinelMark then wrapOrder s.ctx.orderMark s
      else if b = s.cfg.coding.sentinelZero then wrapOrder 0 s
      else execPattern b s := by
  have hturn : turn s = withValue (fetchOrder s) fun i => runInside i s := by
    rcases hq with hq | hq <;> simp only [turn, hq]
  rw [hturn, fetchOrder]
  cases s.song.orderAt s.ctx.orderPos with
  | error r => rfl
  | ok b =>
    simp only [decodeOrder, withValue_ok]
    by_cases hm : b = s.cfg.coding.sentinelMark
    · simp only [if_pos hm]; rfl
    · by_cases hz : b = s.cfg.coding.sentinelZero
      · simp only [if_neg hm, if_pos hz]; rfl
      · by_cases hp : b.toNat ≤ 97
        · simp only [if_neg hm, if_neg hz, if_pos hp]; rfl
        · simp only [if_neg hm, if_neg hz, if_neg hp]
          exact (execPattern_refused (.inl (Nat.not_le.1 hp))).symm

/-- Where a sentinel has led, every byte is taken for a pattern number: a second sentinel, a number above 97, is refused
(R165). -/
theorem turn_orderAgain {s : State} (hw : s.cfg.coding.wf = true) (hq : s.seq = .orderAgain) :
    turn s = withValue (s.song.orderAt s.ctx.orderPos) fun b => execPattern b s := by
  obtain ⟨hmark, hzero⟩ := Coding.sentinel_gt hw
  rw [turn_order (.inr hq)]
  congr 1
  funext b
  split
  · rename_i hb
    rw [wrapOrder_refused hq, execPattern_refused (.inl (hb ▸ hmark))]
  · split
    · rename_i hb
      rw [wrapOrder_refused hq, execPattern_refused (.inl (hb ▸ hzero))]
    · rfl

/-- The state with the order position and the loop counter a sentinel with target `o` leaves (R173, R174). -/
def State.wrappedTo (o : BitVec 8) (s : State) : State :=
  { s with ctx := { s.ctx with orderPos := o, loopCtr := s.ctx.loopCtr + 1 } }

/-- A first sentinel leads to the entry at its target, and the operation goes on from there (R165). -/
theorem wrapOrder_finish {s : State} (hw : s.cfg.coding.wf = true) (o : BitVec 8) :
    andThen (wrapOrder o (s.atChannel .order 0)) finishOperation =
      withValue (s.song.orderAt o) fun b => andThen (execPattern b (s.wrappedTo o)) finishOperation := by
  have hwrap : wrapOrder o (s.atChannel .order 0) = .next ((s.wrappedTo o).atChannel .orderAgain 0) :=
    wrapOrder_runs Seq.noConfusion o
  rw [hwrap, andThen_next, finishOperation_unfold Seq.noConfusion,
    turn_orderAgain (s := (s.wrappedTo o).atChannel .orderAgain 0) hw rfl, andThen_withValue]
  rfl

/-- `change_pattern` plays the entry it resolves as a pattern; the sequencer then stands at the first channel (R165). -/
theorem changePattern_row (s : State) :
    andThen (changePattern s) (fun t => .next (t.atChannel .row 0)) =
      withValue (resolveOrder s) fun ec => execPattern ec.1 { s with ctx := ec.2 } := by
  rw [changePattern, andThen_withValue]
  congr 1
  funext ec
  simp only [execPattern]
  split <;> rfl

/-- From its first order entry on, the operation is `change_pattern` and the row (R162, R165). -/
theorem finishOperation_order {s : State} (hw : s.cfg.coding.wf = true) :
    finishOperation (s.atChannel .order 0) =
      andThen (changePattern s) fun t => finishOperation (t.atChannel .row 0) := by
  calc finishOperation (s.atChannel .order 0)
      = withValue (resolveOrder s) fun ec => andThen (execPattern ec.1 { s with ctx := ec.2 }) finishOperation := by
        have hturn : turn (s.atChannel .order 0) = withValue (s.song.orderAt s.ctx.orderPos) fun b =>
            if b = s.cfg.coding.sentinelMark then wrapOrder s.ctx.orderMark (s.atChannel .order 0)
            else if b = s.cfg.coding.sentinelZero then wrapOrder 0 (s.atChannel .order 0)
            else execPattern b s := turn_order (.inl rfl)
        rw [finishOperation_unfold Seq.noConfusion, hturn, resolveOrder, andThen_withValue]
        cases s.song.orderAt s.ctx.orderPos with
        | error r => rfl
        | ok b =>
          simp only [withValue_ok]
          split
          · rw [wrapOrder_finish hw]
            cases s.song.orderAt s.ctx.orderMark <;> rfl
          · split
            · rw [wrapOrder_finish hw]
              cases s.song.orderAt 0 <;> rfl
            · rfl
    _ = andThen (changePattern s) fun t => finishOperation (t.atChannel .row 0) := by
        rw [← andThen_withValue, ← changePattern_row, andThen_assoc]
        rfl

/-! ### The tick event and RENDER -/

/-- A row from its boundary on is `row_boundary`, with the pattern change that may be pending, and the end of the row
(R162). -/
theorem finishOperation_rowBoundary {s : State} (hw : s.cfg.coding.wf = true) :
    finishOperation (s.atChannel (if s.ctx.chgPat then .order else .row) 0) =
      andThen (rowBoundary s) fun t => .next t.finishRow := by
  rw [rowBoundary, andThen_assoc]
  split
  · rw [finishOperation_order hw]
    exact andThen_congr fun t _ => finishOperation_row t
  · rw [finishOperation_row]
    rfl

/-- A tick event with a nonzero tick counter counts it and stands at the first channel (R160). -/
theorem State.enterTick_tick {s : State} (hc : s.ctx.tickCtr ≠ 0) :
    s.enterTick = State.atChannel .tick 0 { s with ctx := { s.ctx with tickCtr := s.ctx.tickCtr - 1 } } := if_pos hc

/-- With a zero one in single-row mode it is over (R161). -/
theorem State.enterTick_single {s : State} (hc : s.ctx.tickCtr = 0) (hs : s.ctx.singleRow = true) :
    s.enterTick = s.finishTick := by
  rw [State.enterTick, if_neg (not_not.2 hc), if_pos hs]

/-- With a zero one otherwise it stands at the order entry if a pattern change is pending, else at the row (R162). -/
theorem State.enterTick_row {s : State} (hc : s.ctx.tickCtr = 0) (hs : s.ctx.singleRow = false) :
    s.enterTick = s.atChannel (if s.ctx.chgPat then .order else .row) 0 := by
  rw [State.enterTick, if_neg (not_not.2 hc), hs]
  rfl

/-- The tick event run through is `tick_advance` (R160, R161). -/
theorem finishOperation_enterTick {s : State} (hw : s.cfg.coding.wf = true) :
    finishOperation s.enterTick = tickAdvance s := by
  unfold tickAdvance
  split
  · rename_i hc
    rw [State.enterTick_tick hc]
    exact finishOperation_tick _
  · rename_i hne
    have hc : s.ctx.tickCtr = 0 := not_not.1 hne
    split
    · rename_i hs
      rw [State.enterTick_single hc hs, finishOperation_done s.finishTick_seq]
    · rename_i hs
      rw [State.enterTick_row hc (Bool.eq_false_iff.2 hs), finishOperation_rowBoundary hw]

/-- The state RENDER has mixed to before it counts the frame (R260, R265). -/
def State.mixedTo (m : Mix) (s : State) : State := { s with chans := m.chans, result := .sample (m.acc + 128) }

/-- The state in which RENDER's tick event begins: the frame counter reloaded (R266). -/
def State.reloaded (s : State) : State :=
  { s with ctx := { s.ctx with frameCtr := s.ctx.framesPerTick }, priming := false }

/-- Off the frame boundary counting the frame completes the operation (R266). -/
theorem finishOperation_countFrame {s : State} (hq : s.seq = .host) (hf : s.ctx.frameCtr ≠ 1) :
    finishOperation s.countFrame = .next { s with ctx := { s.ctx with frameCtr := s.ctx.frameCtr - 1 } } := by
  rw [State.countFrame, if_neg hf]
  exact finishOperation_done hq

/-- At the boundary it enters the tick event (R266). -/
theorem State.countFrame_boundary {s : State} (hf : s.ctx.frameCtr = 1) : s.countFrame = s.reloaded.enterTick :=
  if_pos hf

/-- RENDER in a started session mixes the channels and counts the frame (R260, R296). -/
theorem exec_render_mixedTo {s : State} (hq : s.seq = .host) (hs : s.session = .started) :
    exec .render s = withValue (mixAll s.song s.chans) fun m => finishOperation (s.mixedTo m).countFrame :=
  exec_render hq hs

/-- Settles O14: both mix alike, and at the frame boundary the tick event is the procedure. -/
theorem renderIsTheAtomicProcedure : Obligations.RenderIsTheAtomicProcedure := by
  intro s hw hq hs
  rw [exec_render_mixedTo hq hs, renderWhole]
  congr 1
  funext m
  by_cases hf : s.ctx.frameCtr = 1
  · rw [if_pos hf, State.countFrame_boundary (s := s.mixedTo m) hf]
    exact finishOperation_enterTick hw
  · rw [if_neg hf]
    exact finishOperation_countFrame (s := s.mixedTo m) hq hf

end Sys2Proof.Machine

/-! PROOFS. The mixer in the registers: the frequency step, one channel's turn, the sum of the four, and what RENDER
does to the counters. -/

namespace Sys2Proof.Machine

/-! ### The frequency step -/

/-- The fraction of the two-stage division fits its sixteen bits (R268). -/
theorem stepFraction_lt {rate : BitVec 16} (h : rate ≠ 0) (t : Nat) :
    t % rate.toNat * 65536 / rate.toNat < 65536 := by
  have hpos : 0 < rate.toNat := Nat.pos_of_ne_zero fun h0 => h (BitVec.eq_of_toNat_eq h0)
  rw [Nat.div_lt_iff_lt_mul hpos, Nat.mul_comm 65536]
  exact Nat.mul_lt_mul_of_pos_right (Nat.mod_lt t hpos) (by decide)

/-- A word above a word, as a number. -/
theorem toNat_append_word (hi lo : BitVec 16) : (hi ++ lo).toNat = hi.toNat * 65536 + lo.toNat := by
  rw [BitVec.toNat_append, ← Nat.shiftLeft_add_eq_or_of_lt lo.isLt, Nat.shiftLeft_eq]

/-- Settles O8: the two halves of the step are the integer part and a fraction that fits. -/
theorem frequencyStepIsTwoStage : Obligations.FrequencyStepIsTwoStage := by
  intro cfg rate period hr
  refine ⟨fun hp => ?_, fun hp => if_neg (Nat.not_le.2 hp)⟩
  rw [frequencyStep, if_pos hp, toNat_append_word, BitVec.toNat_ofNat, BitVec.toNat_ofNat,
    Nat.mod_eq_of_lt (stepFraction_lt hr _)]

/-! ### One channel's turn -/

/-- The frame a channel stands at, in the registers (R41). -/
theorem Channel.frameIndex_of_pos {ch : Channel} {idx frac : BitVec 16} (h : ch.pos = idx ++ frac) :
    ch.frameIndex = idx := by
  rw [Channel.frameIndex, h]
  exact BitVec.extractLsb'_append_eq_left

/-- The wrap writes the position: to the loop start at or past the loop end, with the fraction kept (R261, R274). -/
theorem Channel.wrapLoop_eq {ch : Channel} {idx frac : BitVec 16} (h : ch.pos = idx ++ frac) :
    ch.wrapLoop = { ch with pos := (if ch.loopEnd ≤ idx then ch.loopStart else idx) ++ frac } := by
  have hfrac : ch.pos.extractLsb' 0 16 = frac := by rw [h]; exact BitVec.extractLsb'_append_eq_right
  rw [Channel.wrapLoop, Channel.frameIndex_of_pos h, hfrac]
  split
  · rfl
  · rw [← h]

/-- A channel that is not silent past its end moves by its step from where the wrap leaves it (R261, R262). -/
theorem Channel.mix_live {g : Song} {ch : Channel} {idx frac first : BitVec 16} (hpos : ch.pos = idx ++ frac)
    (hfirst : first = if ch.loopEnd ≤ idx then ch.loopStart else idx)
    (hlive : idx < ch.loopEnd ∨ ch.loopEn = true) :
    ch.mix g = (Channel.contribution g { ch with pos := first ++ frac }).map fun v =>
      ({ ch with pos := (first ++ frac) + ch.step }, v) := by
  have hx : ch.exhausted = false := by
    rw [Channel.exhausted, Channel.frameIndex_of_pos hpos]
    rcases hlive with hlt | hen
    · rw [decide_eq_false (BitVec.not_le.2 hlt), Bool.false_and]
    · rw [hen, Bool.not_true, Bool.and_false]
  rw [Channel.mix, hx, Channel.wrapLoop_eq hpos, ← hfirst]
  cases Channel.contribution g { ch with pos := first ++ frac } <;> rfl

/-- Past its end without a loop it is silent and stays (R261). -/
theorem Channel.mix_exhausted {g : Song} {ch : Channel} {idx frac : BitVec 16} (hpos : ch.pos = idx ++ frac)
    (hpast : ch.loopEnd ≤ idx) (hen : ch.loopEn = false) : ch.mix g = .ok (ch, 0) := by
  rw [Channel.mix, if_pos]
  rw [Channel.exhausted, Channel.frameIndex_of_pos hpos, hen, decide_eq_true hpast]
  rfl

/-- What a channel needs to sound at the frame it stands at (R263). -/
theorem Channel.sounds_iff {g : Song} {ch : Channel} :
    ch.sounds g = true ↔ ch.waveSlot ≠ 0 ∧ (g.desc ch.waveSlot).length ≠ 0 ∧ ch.frameIndex < ch.loopEnd ∧
      ch.volMix.toNat < 65 := by
  have hlen : 0 < (g.desc ch.waveSlot).length.toNat ↔ (g.desc ch.waveSlot).length ≠ 0 := by bv_omega
  simp only [Channel.sounds, Bool.and_eq_true, decide_eq_true_eq, hlen, and_assoc]

/-- A silent channel adds 0 (R263). -/
theorem Channel.contribution_silent {g : Song} {ch : Channel} (h : ch.sounds g ≠ true) : ch.contribution g = .ok 0 :=
  if_neg h

/-- A sounding one adds the table entry of its byte, inside its waveform (R75, R263). -/
theorem Channel.contribution_sounds {g : Song} {ch : Channel} (h : ch.sounds g = true)
    (hin : ch.frameIndex < (g.desc ch.waveSlot).length) :
    ch.contribution g =
      .ok (volLut ch.volMix (Memory.read .wave g.wave (65536 * ch.waveSlot.toNat + ch.frameIndex.toNat))) := by
  have hread : g.waveAt ch.waveSlot ch.frameIndex =
      .ok (Memory.read .wave g.wave (65536 * ch.waveSlot.toNat + ch.frameIndex.toNat)) := if_pos hin
  rw [Channel.contribution, if_pos h, hread]

/-- Settles O29: silent past the end; otherwise the position moves from `first`, where the channel sounds inside its
waveform, is refused beyond it, or is silent. -/
theorem loopWrapKeepsTheFraction : Obligations.LoopWrapKeepsTheFraction := by
  intro g ch idx frac first hpos hfirst
  have hframe : Channel.frameIndex { ch with pos := first ++ frac } = first := Channel.frameIndex_of_pos rfl
  refine ⟨by rw [Channel.wrapLoop_eq hpos, ← hfirst], Channel.mix_exhausted hpos, fun hlive => ?_⟩
  rw [Channel.mix_live hpos hfirst hlive]
  refine ⟨fun hslot hdata hloop hvol => ⟨fun hin => ?_, fun hbeyond => ?_⟩, fun hsilent => ?_⟩
  · rw [Channel.contribution_sounds (ch := { ch with pos := first ++ frac })
      (Channel.sounds_iff.2 ⟨hslot, hdata, by rwa [hframe], hvol⟩) (by rwa [hframe]), hframe]
    rfl
  · rw [Channel.contribution_refused (ch := { ch with pos := first ++ frac }) hslot hdata hvol (by rwa [hframe])
      (by rwa [hframe])]
    rfl
  · rw [Channel.contribution_silent fun hs => ?_]
    · rfl
    · obtain ⟨hslot, hdata, hloop, hvol⟩ := Channel.sounds_iff.1 hs
      rw [hframe] at hloop
      rcases hsilent with h | h | h | h
      · exact hslot h
      · exact hdata h
      · exact BitVec.not_le.2 hloop h
      · exact Nat.not_le.2 hvol h

/-! ### The four channels -/

/-- A position is its frame above its fraction (R41). -/
theorem pos_split (p : BitVec 32) : p = p.extractLsb' 16 16 ++ p.extractLsb' 0 16 := by
  apply BitVec.eq_of_toNat_eq
  rw [toNat_append_word, BitVec.extractLsb'_toNat, BitVec.extractLsb'_toNat, Nat.shiftRight_eq_div_pow]
  omega

/-- What a channel adds that reads the frame `first` of a waveform its loop lies inside (R263). -/
def Channel.addedAt (g : Song) (first : BitVec 16) (ch : Channel) : BitVec 8 :=
  if ch.waveSlot ≠ 0 ∧ (g.desc ch.waveSlot).length ≠ 0 ∧ first < ch.loopEnd ∧ ch.volMix.toNat < 65 then
    volLut ch.volMix (Memory.read .wave g.wave (65536 * ch.waveSlot.toNat + first.toNat))
  else 0

/-- With its loop inside its waveform a channel reads no byte beyond it, so its turn is not refused (R75, R336 d). -/
theorem Channel.mix_inside {g : Song} {ch : Channel} {idx frac first : BitVec 16} (hin : ch.LoopInside g)
    (hpos : ch.pos = idx ++ frac) (hfirst : first = if ch.loopEnd ≤ idx then ch.loopStart else idx)
    (hlive : idx < ch.loopEnd ∨ ch.loopEn = true) :
    ch.mix g = .ok ({ ch with pos := (first ++ frac) + ch.step }, ch.addedAt g first) := by
  obtain ⟨_, _, hturn⟩ := loopWrapKeepsTheFraction g ch idx frac first hpos hfirst
  obtain ⟨hsounds, hsilent⟩ := hturn hlive
  unfold Channel.addedAt
  split
  · rename_i h
    obtain ⟨hslot, hdata, hloop, hvol⟩ := h
    exact (hsounds hslot hdata hloop hvol).1 (Nat.lt_of_lt_of_le hloop (hin hslot))
  · rename_i h
    exact hsilent (by simpa only [not_and_or, ne_eq, not_not, BitVec.not_lt, Nat.not_lt] using h)

/-- One of the two holds of every channel: it is silent past its end, or moves (R261). -/
theorem Channel.past_or_live (ch : Channel) (idx : BitVec 16) :
    (ch.loopEnd ≤ idx ∧ ch.loopEn = false) ∨ (idx < ch.loopEnd ∨ ch.loopEn = true) := by
  rw [← BitVec.not_le, ← Bool.not_eq_true]
  tauto

/-- With its loop inside its waveform a channel's turn runs. -/
theorem Channel.mix_runs {g : Song} {ch : Channel} (hin : ch.LoopInside g) :
    ∃ p v, ch.mix g = .ok ({ ch with pos := p }, v) := by
  rcases ch.past_or_live (ch.pos.extractLsb' 16 16) with ⟨hpast, hen⟩ | hlive
  · exact ⟨ch.pos, 0, Channel.mix_exhausted (pos_split ch.pos) hpast hen⟩
  · exact ⟨_, _, Channel.mix_inside hin (pos_split ch.pos) rfl hlive⟩

/-- A turn has one position and one contribution. -/
theorem Channel.mix_unique {g : Song} {ch : Channel} {p : BitVec 32} {v : BitVec 8} {r : Channel × BitVec 8}
    (h : ch.mix g = .ok ({ ch with pos := p }, v)) (h' : ch.mix g = .ok r) : p = r.1.pos ∧ v = r.2 := by
  rw [h] at h'
  cases h'
  exact ⟨rfl, rfl⟩

/-- Settles O27: the turns of the four channels run, and each is what the registers say; the frame counter decides what
follows the mixing. -/
theorem renderSumsFourChannels : Obligations.RenderSumsFourChannels := by
  intro s hq hs hloop
  have hinside : ∀ c, (s.channel c).LoopInside s.song := hloop hs
  choose pos v hmix using fun c => Channel.mix_runs (hinside c)
  obtain ⟨m, hall, hm⟩ : ∃ m, mixAll s.song s.chans = .ok m ∧
      m = ⟨Vector.ofFn fun c => { s.channel c with pos := pos c }, 0 + v 0 + v 1 + v 2 + v 3⟩ :=
    ⟨_, mixAll_of hmix, rfl⟩
  have hrender : exec .render s = finishOperation (s.mixedTo m).countFrame := by
    rw [exec_render_mixedTo hq hs, hall, withValue_ok]
  refine ⟨pos, v, s.mixedTo m, fun c idx frac first hpos hfirst => ⟨fun hpast hen => ?_, fun hlive => ?_⟩, ?_,
    fun hf => ?_, fun hf hw => ?_, fun t ht => ?_⟩
  · exact Channel.mix_unique (hmix c) (Channel.mix_exhausted hpos hpast hen)
  · exact Channel.mix_unique (hmix c) (Channel.mix_inside (hinside c) hpos hfirst hlive)
  · have hsum : 0 + v 0 + v 1 + v 2 + v 3 + 128 = 128 + (v 0 + v 1 + v 2 + v 3) := by
      rw [zero_add, add_comm]
    rw [State.mixedTo, hm, hsum]
  · rw [hrender]
    exact finishOperation_countFrame (s := s.mixedTo m) hq hf
  · rw [hrender, State.countFrame_boundary (s := s.mixedTo m) hf]
    exact finishOperation_enterTick hw
  · rw [hrender] at ht
    exact ((State.countFrame_frame _).comp (finishOperation_frame ht)).result

/-! ### The channels RENDER leaves -/

/-- The registers' position is the one the wrap leaves and the step moves, unless the channel is silent past its end. -/
theorem advancedPos_eq (ch : Channel) :
    advancedPos ch = if ch.exhausted then ch.pos else ch.wrapLoop.pos + ch.step := by
  unfold advancedPos Channel.exhausted Channel.wrapLoop Channel.frameIndex
  by_cases hpast : ch.loopEnd ≤ ch.pos.extractLsb' 16 16
  · cases hen : ch.loopEn <;> simp [hpast]
  · simp [hpast]

/-- A turn that runs moves the position as the registers say, and writes nothing else (R261, R262). -/
theorem Channel.mix_advances {g : Song} {ch : Channel} {r : Channel × BitVec 8} (h : ch.mix g = .ok r) :
    r.1 = { ch with pos := advancedPos ch } := by
  rw [advancedPos_eq]
  rcases Channel.mix_cases h with ⟨hx, rfl⟩ | ⟨hx, v, _, rfl⟩ <;> rw [hx]
  · rfl
  · unfold Channel.advance Channel.wrapLoop
    split <;> rfl

/-- The other channels' turns leave a channel alone. -/
theorem Mix.turns_other {g : Song} {c : Fin 4} {cs : List (Fin 4)} {m m' : Mix} (h : Mix.turns g cs m = .ok m')
    (hc : c ∉ cs) : m'.chans[c] = m.chans[c] := by
  induction cs generalizing m with
  | nil => cases h; rfl
  | cons d cs ih =>
    unfold Mix.turns at h
    split at h
    · cases h
    · rename_i b hb
      rw [ih h (fun hmem => hc (List.mem_cons_of_mem d hmem)),
        Mix.turn_other hb (fun hdc => hc (hdc ▸ List.mem_cons_self))]

/-- Each channel has one turn, and is moved by it (R275). -/
theorem Mix.turns_advances {g : Song} {c : Fin 4} {cs : List (Fin 4)} {m m' : Mix}
    (h : Mix.turns g cs m = .ok m') (hcs : cs.Nodup) (hc : c ∈ cs) :
    m'.chans[c] = { m.chans[c] with pos := advancedPos m.chans[c] } := by
  induction cs generalizing m with
  | nil => cases hc
  | cons d cs ih =>
    obtain ⟨hd, hnodup⟩ := List.nodup_cons.1 hcs
    unfold Mix.turns at h
    split at h
    · cases h
    · rename_i b hb
      by_cases hcd : d = c
      · subst hcd
        obtain ⟨r, hr, rfl⟩ := Mix.turn_ok.1 hb
        rw [Mix.turns_other h hd, ← Channel.mix_advances hr]
        simp
      · rw [ih h hnodup ((List.mem_cons.1 hc).resolve_left (Ne.symm hcd)), Mix.turn_other hb hcd]

/-- RENDER moves every channel by its turn, before it counts the frame. -/
theorem State.mixedTo_channel {s : State} {m : Mix} (h : mixAll s.song s.chans = .ok m) (c : Fin 4) :
    (s.mixedTo m).channel c = { s.channel c with pos := advancedPos (s.channel c) } :=
  Mix.turns_advances h (by decide) ((by decide : ∀ c : Fin 4, c ∈ [0, 1, 2, 3]) c)

/-! ### The three ways of a tick event -/

/-- What the procedure keeps for each channel, it keeps for the four. -/
theorem forChannels_keeps {P : State → Prop} {f : Fin 4 → State → Out}
    (hf : ∀ c s t, P s → f c s = .next t → P t) {s t : State} (hs : P s) (h : forChannels f s = .next t) : P t := by
  obtain ⟨s₁, h₁, hrest₁⟩ := andThen_eq_next.1 h
  obtain ⟨s₂, h₂, hrest₂⟩ := andThen_eq_next.1 hrest₁
  obtain ⟨s₃, h₃, h₄⟩ := andThen_eq_next.1 hrest₂
  exact hf 3 s₃ t (hf 2 s₂ s₃ (hf 1 s₁ s₂ (hf 0 s s₁ hs h₁) h₂) h₃) h₄

/-- `cmd_tick` writes its channel only (R210). -/
theorem cmdTick_ctx {c : Fin 4} {s t : State} (h : cmdTick c s = .next t) :
    t.ctx = s.ctx ∧ t.priming = s.priming := by
  rw [cmdTick, fetchLatched_eq, exec_tick rfl] at h
  obtain ⟨ch, rfl, _⟩ := tickAction_next h
  exact ⟨rfl, rfl⟩

/-- Outside START a per-tick event leaves the context (R168, R210). -/
theorem finishOperation_tick_ctx {s t : State} (hp : s.priming = false)
    (h : finishOperation (s.atChannel .tick 0) = .next t) : t.ctx = s.ctx := by
  rw [finishOperation_tick] at h
  obtain ⟨u, hu, hend⟩ := andThen_eq_next.1 h
  obtain ⟨hctx, hpriming⟩ := forChannels_keeps (P := fun v => v.ctx = s.ctx ∧ v.priming = s.priming)
    (fun c v w hv hw => by rwa [(cmdTick_ctx hw).1, (cmdTick_ctx hw).2]) ⟨rfl, rfl⟩ hu
  cases hend
  rw [State.finishTick_ctx, hpriming, hp, hctx]
  rfl

/-- The row a pattern change leads to: at its first channel, every channel at row 0, the frame counter as it was
(R165). -/
structure State.Rewound (s u : State) : Prop where
  seq : u.seq = .row
  chan : u.chan = 0
  priming : u.priming = s.priming
  frameCtr : u.ctx.frameCtr = s.ctx.frameCtr
  rowCtr : ∀ c, (u.channel c).rowCtr = 0

/-- An order entry that runs is a sentinel before a second entry, or leads to the row (R165). -/
theorem turn_order_next {s v : State} (hq : s.seq = .order ∨ s.seq = .orderAgain) (h : turn s = .next v) :
    (v.seq = .orderAgain ∧ v.priming = s.priming ∧ v.ctx.frameCtr = s.ctx.frameCtr) ∨ s.Rewound v := by
  rw [turn_order hq] at h
  obtain ⟨b, _, hentry⟩ := withValue_next.1 h
  split at hentry
  · obtain ⟨_, rfl⟩ := wrapOrder_next hentry
    exact .inl ⟨rfl, rfl, rfl⟩
  · split at hentry
    · obtain ⟨_, rfl⟩ := wrapOrder_next hentry
      exact .inl ⟨rfl, rfl, rfl⟩
    · obtain ⟨_, _, rfl⟩ := exec_pattern_next (n := b) hentry
      exact .inr ⟨rfl, rfl, rfl, rfl, fun c => by simp [State.channel, Channel.rewind]⟩

/-- An operation that stands at an order entry goes on at the row it leads to. -/
theorem finishOperation_rewound {s t : State} (hq : s.seq = .order ∨ s.seq = .orderAgain)
    (h : finishOperation s = .next t) : ∃ u, s.Rewound u ∧ finishOperation u = .next t := by
  induction hk : s.turnsLeft using Nat.strong_induction_on generalizing s with
  | _ k ih =>
    have hne : s.seq ≠ .host := by rcases hq with hq | hq <;> rw [hq] <;> decide
    rw [finishOperation_unfold hne] at h
    obtain ⟨v, hv, hrest⟩ := andThen_eq_next.1 h
    rcases turn_order_next hq hv with ⟨hagain, hpriming, hframe⟩ | hrow
    · obtain ⟨u, hu, hut⟩ := ih v.turnsLeft (hk ▸ turn_turnsLeft hne hv) (.inr hagain) hrest rfl
      exact ⟨u, { hu with priming := hu.priming.trans hpriming, frameCtr := hu.frameCtr.trans hframe }, hut⟩
    · exact ⟨v, hrow, hrest⟩

/-- A row played from its first channel counts every channel and loads the tick counter; outside START it leaves the
frame counter (R162, R163). -/
theorem finishOperation_row_counts {s t : State} (hq : s.seq = .row) (hc : s.chan = 0) (hp : s.priming = false)
    (h : finishOperation s = .next t) :
    t.ctx.frameCtr = s.ctx.frameCtr ∧ t.ctx.tickCtr.toNat = t.ctx.ticksPerRow.toNat - 1 ∧
      ∀ c, (t.channel c).rowCtr = (s.channel c).rowCtr + 1 := by
  rw [← step_inside (hq ▸ nofun)] at h
  obtain ⟨htick, hframe⟩ := (rowEndsWithTheTickReload s t hq).2 h
  rw [hp] at hframe
  exact ⟨hframe, htick, fun c => ((step_rowPlayed hq h).counted c (hc ▸ Fin.zero_le c)).rowCtr⟩

/-- So does one that a pending pattern change comes before, from row 0 (R162, R165). -/
theorem finishOperation_boundary_counts {s t : State} (hp : s.priming = false)
    (h : finishOperation (s.atChannel (if s.ctx.chgPat then .order else .row) 0) = .next t) :
    t.ctx.frameCtr = s.ctx.frameCtr ∧ t.ctx.tickCtr.toNat = t.ctx.ticksPerRow.toNat - 1 ∧
      ∀ c, (t.channel c).rowCtr = (if s.ctx.chgPat then 0 else (s.channel c).rowCtr) + 1 := by
  split at h
  · rename_i hchg
    obtain ⟨u, hu, hut⟩ := finishOperation_rewound (.inl rfl) h
    obtain ⟨hframe, htick, hrow⟩ := finishOperation_row_counts hu.seq hu.chan (hu.priming.trans hp) hut
    exact ⟨hframe.trans hu.frameCtr, htick, fun c => by rw [hrow c, hu.rowCtr c, if_pos hchg]⟩
  · rename_i hchg
    obtain ⟨hframe, htick, hrow⟩ := finishOperation_row_counts (s := s.atChannel .row 0) rfl rfl hp h
    exact ⟨hframe, htick, fun c => by rw [if_neg hchg]; exact hrow c⟩

/-- Settles O28: off the boundary the mixed state with its frame counted; at it a tick event, in its three ways. -/
theorem renderCountsFrames : Obligations.RenderCountsFrames := by
  intro s t hq hs h
  rw [exec_render_mixedTo hq hs] at h
  obtain ⟨m, hm, hfin⟩ := withValue_next.1 h
  have hchan : ∀ c, (s.mixedTo m).reloaded.channel c = { s.channel c with pos := advancedPos (s.channel c) } :=
    State.mixedTo_channel hm
  have hboundary : s.ctx.frameCtr = 1 → finishOperation (s.mixedTo m).reloaded.enterTick = .next t := fun hf => by
    rwa [State.countFrame_boundary (s := s.mixedTo m) hf] at hfin
  refine ⟨fun hf => ?_, fun hf hc => ?_, fun hf hc hsingle => ?_, fun hf hc hsingle => ?_⟩
  · rw [finishOperation_countFrame (s := s.mixedTo m) hq hf] at hfin
    cases hfin
    rfl
  · have htick := hboundary hf
    rw [State.enterTick_tick (s := (s.mixedTo m).reloaded) hc] at htick
    exact finishOperation_tick_ctx rfl htick
  · have hend := hboundary hf
    rw [State.enterTick_single (s := (s.mixedTo m).reloaded) hc hsingle,
      finishOperation_done (State.finishTick_seq _)] at hend
    cases hend
    refine ⟨State.finishTick_ctx _, fun c => ?_⟩
    rw [State.finishTick_channel, hchan]
    rfl
  · have hrow := hboundary hf
    rw [State.enterTick_row (s := (s.mixedTo m).reloaded) hc hsingle] at hrow
    obtain ⟨hframe, htick, hcount⟩ := finishOperation_boundary_counts rfl hrow
    exact ⟨hframe, htick, fun c => by rw [hcount c, hchan]; rfl⟩

end Sys2Proof.Machine

/-! PROOFS. The host operations themselves: START as the procedure of the spec, what the operations without a tick
event write, and which of them a session refuses. -/

namespace Sys2Proof.Machine

/-! ### START -/

/-- Settles O15: both write the same START values, and the priming tick run through is the procedure. -/
theorem startIsTheAtomicProcedure : Obligations.StartIsTheAtomicProcedure := by
  intro s r hw hq hs
  rw [exec_start hq (Session.live_iff.2 hs), startWhole]
  congr 1
  funext x
  exact finishOperation_enterTick hw

/-! ### What a session refuses -/

/-- The sessions in which an operation is legal (R298; log entry 9). What is no operation needs none. -/
def Session.allows (x : Session) : Instr → Bool
  | .create => decide (x = .none)
  | .start _ | .destroy => x.live
  | .setPosition _ | .queryPosition | .render => decide (x = .started)
  | _ => true

/-- An operation a session does not allow is refused there (R298, R314). -/
theorem exec_notStarted {i : Instr} {s : State} (hq : s.seq = .host) (h : s.session.allows i = false) :
    exec i s = .refused .notStarted := by
  cases i
  case create => show execCreate s = _; exact onHost_illegal hq h
  case start r => show execStart r s = _; exact onHost_illegal hq h
  case setPosition o => show execSetPosition o s = _; exact onHost_illegal hq h
  case queryPosition => show execQueryPosition s = _; exact onHost_illegal hq h
  case render => show execRender s = _; exact onHost_illegal hq h
  case destroy => show execDestroy s = _; exact onHost_illegal hq h
  all_goals cases h

/-- The operation codes from 6 on name no operation (R120). -/
theorem decodeHostOp_reserved {code : BitVec 8} (h : 6 ≤ code.toNat) (arg : BitVec 16) :
    decodeHostOp code arg = .error (.reservedOperation code) := by
  have ne {k : BitVec 8} (hk : k.toNat < 6) : code ≠ k := fun e => by rw [e] at h; omega
  rw [decodeHostOp, if_neg (ne (by decide)), if_neg (ne (by decide)), if_neg (ne (by decide)),
    if_neg (ne (by decide)), if_neg (ne (by decide)), if_neg (ne (by decide))]

/-- A request with such a code is refused in every session (R298, R314). -/
theorem serve_reserved {code : BitVec 3} (h : 6 ≤ code.toNat) (arg : BitVec 16) (s : State) :
    serve (.op code arg) s = .refused .notStarted := by
  have hwide : 6 ≤ (code.setWidth 8).toNat := by rwa [BitVec.toNat_setWidth_of_le (by decide)]
  rw [serve, fetchOp, decodeHostOp_reserved hwide]
  rfl

/-- Settles O25: each operation in a session that does not allow it, and the codes that name none. -/
theorem outOfSequenceIsRefused : Obligations.OutOfSequenceIsRefused := by
  refine ⟨fun s hq hs => ?unstarted, fun s hq hs => ?absent, fun s hq hs => ?again,
    fun s code arg rest hq ho hc => ?code⟩
  case unstarted =>
    have hno : decide (s.session = .started) = false := decide_eq_false hs
    exact ⟨fun o => exec_notStarted hq hno, exec_notStarted hq hno, exec_notStarted hq hno⟩
  case absent =>
    have hno : s.session.live = false := by rcases hs with hs | hs <;> rw [hs] <;> rfl
    exact ⟨fun r => exec_notStarted hq hno, exec_notStarted hq hno⟩
  case again => exact exec_notStarted hq (decide_eq_false hs)
  case code =>
    rw [step_request hq ho]
    exact serve_reserved hc arg _

/-! ### The operations without a tick event -/

/-- CREATE where there was no session yet: the registers are free values (R291; log entry 8). -/
theorem exec_create {s : State} (hq : s.seq = .host) (hs : s.session = .none) :
    exec .create s = .next
      { s with
        song := s.given.song, cfg := s.given.cfg
        chans := Vector.ofFn (Config.freeChannel s.fresh), ctx := Config.freeContext s.fresh
        fresh := s.fresh + 1, session := .created, result := .none } := by
  rw [exec, execCreate, onHost_legal hq (decide_eq_true hs)]

/-- SET_POSITION in a started session (R294). -/
theorem exec_setPosition {s : State} (hq : s.seq = .host) (hs : s.session = .started) (o : BitVec 8) :
    exec (.setPosition o) s = .next
      { s with ctx := { s.ctx with orderPos := o, orderMark := o, chgPat := true }, result := .none } := by
  rw [exec, execSetPosition, onHost_legal hq (decide_eq_true hs)]

/-- QUERY_POSITION in a started session (R295). -/
theorem exec_queryPosition {s : State} (hq : s.seq = .host) (hs : s.session = .started) :
    exec .queryPosition s = .next { s with result := .position (s.ctx.loopCtr ++ s.ctx.orderPos) } := by
  rw [exec, execQueryPosition, onHost_legal hq (decide_eq_true hs)]

/-- DESTROY in a session, created or started, leaves the registers (R297; log entry 23). -/
theorem exec_destroy {s : State} (hq : s.seq = .host) (hs : s.session.live = true) :
    exec .destroy s = .next { s with session := .ended, result := .none } := by
  rw [exec, execDestroy, onHost_legal hq hs]

/-- Settles O20: there a session is made, and any session at all forbids a second one. -/
theorem createMakesASession : Obligations.CreateMakesASession := by
  intro s hq
  exact ⟨exec_create hq, fun hs => exec_notStarted hq (decide_eq_false hs)⟩

/-- Settles O22: the meaning of the operation in the session that allows it. -/
theorem setPositionSeeks : Obligations.SetPositionSeeks := by
  intro s o hq hs
  exact exec_setPosition hq hs o

/-- A byte above a byte. -/
theorem toNat_append_byte (hi lo : BitVec 8) : (hi ++ lo).toNat = 256 * hi.toNat + lo.toNat := by
  rw [BitVec.toNat_append, ← Nat.shiftLeft_add_eq_or_of_lt lo.isLt, Nat.shiftLeft_eq, Nat.mul_comm]

/-- Settles O23: the result is the loop count's byte above the order position's. -/
theorem queryPacksLoopAndOrder : Obligations.QueryPacksLoopAndOrder := by
  intro s hq hs
  exact ⟨s.ctx.loopCtr ++ s.ctx.orderPos, exec_queryPosition hq hs, toNat_append_byte _ _⟩

/-- Settles O24: an ended session allows no operation. -/
theorem destroyEndsTheSession : Obligations.DestroyEndsTheSession := by
  intro s hq hs
  have refused {i : Instr} (h : Session.ended.allows i = false) :
      exec i { s with session := .ended, result := .none } = .refused .notStarted := exec_notStarted hq h
  exact ⟨_, exec_destroy hq (Session.live_iff.2 hs), rfl, refused rfl, fun _ => refused rfl, fun _ => refused rfl,
    refused rfl, refused rfl, refused rfl⟩

end Sys2Proof.Machine

/-! PROOFS. The host's acts beside the operations: the two control bits, the other registers, and the loader's Song and
configuration. -/

namespace Sys2Proof.Machine

/-! ### Between operations, each act in the session that decides it -/

/-- A session that was not made, or was ended, is not live (R298). -/
theorem Session.live_eq_false {x : Session} (h : x = .none ∨ x = .ended) : x.live = false := by
  rcases h with rfl | rfl <;> rfl

/-- `single_row` is the host's to write (R320). -/
theorem hostSetSingleRow_started {s : State} (hs : s.session = .started) (b : Bool) :
    hostSetSingleRow b s = .next { s with ctx := { s.ctx with singleRow := b } } := if_pos hs

/-- `active[c]` is the host's to write (R320). -/
theorem hostSetActive_started {s : State} (hs : s.session = .started) (c : Fin 4) (b : Bool) :
    hostSetActive c b s = .next (s.setChannel c { s.channel c with active := b }) := if_pos hs

/-- What a live session is bound to stays (R87). -/
theorem hostLoad_live {s : State} (hs : s.session.live = true) (g : Song) (k : Cfg) :
    hostLoad g k s = .refused .songMutated := if_pos hs

/-- Without a session the loader's Song and configuration are CREATE's arguments (R291; log entry 11). -/
theorem hostLoad_notLive {s : State} (hs : s.session.live = false) (g : Song) (k : Cfg) :
    hostLoad g k s = .next { s with given := ⟨g, k⟩ } := if_neg (Bool.eq_false_iff.1 hs)

/-- Settles O26: the step serves the act, and the session decides it; a write of `active[c]` reads back on channel `c`
and is not seen on another. -/
theorem controlBitsAreHostWritable : Obligations.ControlBitsAreHostWritable := by
  intro s rest c b g k hq
  refine ⟨fun hs ho => ?singleRow, fun hs ho => ?active, fun ho => ?other, fun hs ho => ?bound, fun hs ho => ?free⟩ <;>
    rw [step_request hq ho]
  case singleRow => exact hostSetSingleRow_started (s := { s with ops := rest }) hs b
  case active =>
    exact ⟨_, hostSetActive_started (s := { s with ops := rest }) hs c b, State.channel_setChannel_same _ c _,
      fun _ hd => State.channel_setChannel_ne (s := { s with ops := rest }) hd, rfl⟩
  case other => rfl
  case bound => exact hostLoad_live (s := { s with ops := rest }) (Session.live_iff.2 hs) g k
  case free => exact hostLoad_notLive (s := { s with ops := rest }) (Session.live_eq_false hs) g k

end Sys2Proof.Machine

/-! PROOFS. The state after reset meets the invariants: the START values do under every configuration, and a blank Song
under the test configuration is a legal binding. -/

namespace Sys2Proof.Machine

/-- The START values are in range, whatever the configuration and the rate: period 0 has step 0, and no sample is bound
(R62). -/
theorem Channel.start_channelInv (cfg : Cfg) (rate : BitVec 16) : ChannelInv cfg rate .start := by
  have hkept : Channel.start.Kept cfg rate :=
    ⟨Nat.zero_le _, Nat.zero_le _, Nat.zero_le _, rfl, rfl, Nat.zero_le _, ⟨nofun, fun hslot => absurd rfl hslot⟩⟩
  exact channelInv_iff.2 ⟨hkept, fun _ => ⟨rfl, rfl⟩, fun _ _ => rfl⟩

/-- What is bound after reset is legal (R8; log entry 4). -/
theorem Binding.reset_legal : Binding.Legal ⟨.blank, .test⟩ := ⟨by decide, Song.blank_wf⟩

/-- The registers after reset meet the invariant of a started session (R60, R62). -/
theorem State.reset_sound : State.reset.Sound where
  channels c := by rw [State.reset_channel]; exact Channel.start_channelInv _ _
  gvol := by decide
  rate := by decide
  pending _ _ := rfl

/-- Settles O17: no request is waiting, the priming tick still stands at its order entry, so no channel is
inside a row, and no sample is bound. -/
theorem resetMeetsTheInvariant : Obligations.ResetMeetsTheInvariant := by
  have hinv : Inv State.reset :=
    inv_iff.2 ⟨Binding.reset_legal, Binding.reset_legal, nofun, fun _ => rfl, fun _ => ⟨State.reset_sound, nofun⟩⟩
  have hloops : LoopInv State.reset := fun _ c hslot => by
    rw [State.reset_channel] at hslot
    exact absurd rfl hslot
  exact ⟨hinv, Song.blank_wf, hloops⟩

end Sys2Proof.Machine
